-- ==== Sys2Proof/Word.lean ====
section
/-! DEFINITION. The words of the block: a wire or stream byte, a host register word and the 24-bit address a frame carries. -/

namespace Sys2Proof

/-- A byte of the wire and of the stream (R79: "the wire moves 8-bit bytes"). -/
abbrev Byte := BitVec 8

/-- A host register word (R25, R79: "host accesses move 32 bits"). -/
abbrev Word := BitVec 32

/-- A flash address as the wire carries it: three bytes (R117). -/
abbrev WireAddr := BitVec 24

/-- A pin level: `true` is level 1 (high), `false` is level 0 (low) (R14 `pin.P`). -/
abbrev Level := Bool

end Sys2Proof
end

