-- ==== Sys2Proof/Config.lean ====
section
/-! DEFINITION. What is fixed for one machine (R9, R10) and the free values: what the Device, the source and reset draw under no law (R48, R84, R86). -/

namespace Sys2Proof.Config

/-- PAGE_SIZE (R9): "the maximum number of bytes a single program command may write" (R16). -/
abbrev pageSize : Nat := 256

/-- SECTOR_SIZE (R9), the erase granularity. -/
abbrev sectorSize : Nat := 4096

/-- CLK_MAX_KHZ (R9): the largest target clock SET_CLOCK accepts. -/
abbrev clkMaxKhz : Nat := 1000

/-- HALF_NUM (R9): the numerator of the half-period formula, microseconds times kHz. -/
abbrev halfNum : Nat := 500

/-- BYTECOUNT_MAX (R9): 2^28, the largest byte count READ, PROGRAM and ERASE accept. -/
abbrev byteCountMax : Nat := 268435456

/-- The eight wire opcode parameters of R10. They are no constants of the model: State carries them, no step writes
them, and a claim that needs a value names it (R10, R118; log 10). -/
structure Opcodes where
  rdid : Byte
  read : Byte
  wren : Byte
  pp   : Byte
  se   : Byte
  ce   : Byte
  rdsr : Byte
  be   : Byte
  deriving DecidableEq, Repr

/-- The default values R10 gives, which it marks as general knowledge and not the source's (log 10, PRESUMED). -/
def defaultOpcodes : Opcodes :=
  { rdid := 0x9F, read := 0x03, wren := 0x06, pp := 0x02, se := 0x20, ce := 0xC7, rdsr := 0x05, be := 0xD8 }

/-- FREE VALUE. The bit the Device answers to the `k`-th sample its script does not fix (R86: "a draw under no law"; log 4). -/
opaque freeMiso : Nat → Bool

/-- FREE VALUE. What the stream source answers to the `k`-th pull its script does not fix: a byte, or `none` for
end-of-input (R84; log 5). -/
opaque freePull : Nat → Option Byte

/-- FREE VALUE. The MISO level that the `k`-th host read would see in PINS bit 4 (R41; log 6). -/
opaque freePinMiso : Nat → Bool

/-- FREE VALUE. MFR, TYPE and CAP after a reset event, indexed by the length of the trace (R38, R48; log 9). -/
opaque freeTriple : Nat → BitVec 24

/-- FREE VALUE. RXDATA bits 7:0 after a reset event, indexed by the length of the trace (R40, R48; log 9). -/
opaque freeRxData : Nat → Byte

end Sys2Proof.Config
end

