-- ==== Sys2Proof/Syntax.lean ====
section
/-! DEFINITION. The instructions: the thirteen host commands (R103), the two host accesses (R108) and the eight wire frames (R110 to R116, R119), one constructor of `Instr` for each row of spec/opcode_table.json. -/

namespace Sys2Proof

/-- The thirteen commands a host writes to CMD, with the ARG operand R102 gives each. -/
inductive Command where
  | nop
  | init
  | setClock (k : BitVec 16)
  | setWp (p : Bool)
  | csAssert
  | csDeassert
  | txByte (data : Byte)
  | rxByte
  | identify
  | read
  | program
  | erase
  | busyWait
  deriving DecidableEq, Repr

/-- The eight wire frames, each with the address bytes it carries (R109 to R117, R119). The bytes received and the data
bytes sent are no operands: the Device and the stream source supply them. -/
inductive Frame where
  | rdid
  | readData (a : WireAddr)
  | wren
  | pp (a : WireAddr)
  | se (a : WireAddr)
  | be (a : WireAddr)
  | ce
  | rdsr
  deriving DecidableEq, Repr

/-- Every instruction of the opcode table. -/
inductive Instr where
  | nop
  | init
  | setClock (k : BitVec 16)
  | setWp (p : Bool)
  | csAssert
  | csDeassert
  | txByte (data : Byte)
  | rxByte
  | identify
  | read
  | program
  | erase
  | busyWait
  | rd (a : Byte)
  | wr (a : Byte) (v : Word)
  | rdid
  | readData (a : WireAddr)
  | wren
  | pp (a : WireAddr)
  | se (a : WireAddr)
  | be (a : WireAddr)
  | ce
  | rdsr
  deriving DecidableEq, Repr

/-- A command as an instruction. -/
def Command.instr : Command → Instr
  | .nop => .nop
  | .init => .init
  | .setClock k => .setClock k
  | .setWp p => .setWp p
  | .csAssert => .csAssert
  | .csDeassert => .csDeassert
  | .txByte d => .txByte d
  | .rxByte => .rxByte
  | .identify => .identify
  | .read => .read
  | .program => .program
  | .erase => .erase
  | .busyWait => .busyWait

/-- A wire frame as an instruction. -/
def Frame.instr : Frame → Instr
  | .rdid => .rdid
  | .readData a => .readData a
  | .wren => .wren
  | .pp a => .pp a
  | .se a => .se a
  | .be a => .be a
  | .ce => .ce
  | .rdsr => .rdsr

/-- The twelve host-visible registers (R25). -/
inductive Reg where
  | cmd | status | config | offset | byteCount | clkKhz | timing | chipId | rxData | pins | progress | pollLimit
  deriving DecidableEq, Repr

end Sys2Proof
end

