-- ==== Sys2Proof/WellFormed.lean ====
section
/-! DEFINITION. Which instructions the spec gives a meaning as they stand: legal host offsets (R77, R205) and sector-aligned sector erases (R114). -/

namespace Sys2Proof

/-- An offset a host access may name: "a mod 4 = 0 and 0x00 <= a <= 0x2C" (R77). -/
abbrev legalOffset (a : Byte) : Bool := a.toNat % 4 == 0 && a.toNat ≤ 0x2C

/-- The offsets a host may write: CMD, CONFIG, OFFSET, BYTECOUNT and POLL_LIMIT (R25, R201). -/
abbrev writableOffset (a : Byte) : Bool :=
  a == 0x00 || a == 0x08 || a == 0x0C || a == 0x10 || a == 0x2C

/-- The check of an instruction's operands. SET_CLOCK's K is not checked here: 0..65535 is encodable and a value above
1000 is a result of the command (R102, R140). -/
def Instr.wellFormed : Instr → Bool
  | .nop => true
  | .init => true
  | .setClock _ => true
  | .setWp _ => true
  | .csAssert => true
  | .csDeassert => true
  | .txByte _ => true
  | .rxByte => true
  | .identify => true
  | .read => true
  | .program => true
  | .erase => true
  | .busyWait => true
  | .rd a => legalOffset a
  | .wr a _ => legalOffset a && writableOffset a
  | .rdid => true
  | .readData _ => true
  | .wren => true
  | .pp _ => true
  | .se a => a.toNat % 4096 == 0
  | .be _ => true
  | .ce => true
  | .rdsr => true

end Sys2Proof
end

