-- ==== Sys2Proof/Decode.lean ====
section
/-! DEFINITION. The three encodings (R100): the command word (R101 to R107, R122), the host access descriptor (R108) and the header of a wire frame (R109 to R119). The decoder first, then the encoder written from the same tables. -/

namespace Sys2Proof

/-- Why bits are no instruction. -/
inductive DecodeError where
  /-- CODE is in no row of R103 (R105). Safe: as a command it completes with ILLEGAL_CMD. -/
  | illegalCode
  /-- A bit the row's mask covers outside CODE is set (R104). Safe: as a command it completes with BAD_ARG. -/
  | reservedBits
  /-- The first byte of a frame is none of the eight opcode parameters (R10). Safe: no such frame is sent by the engine. -/
  | unknownOpcode
  /-- A frame header that is shorter or longer than its opcode byte and its address bytes (R109). Safe. -/
  | frameLength
  /-- No row of the opcode table has that many bits, or the bits above the descriptor's nine are set (R108). Safe. -/
  | noSuchWidth
  deriving DecidableEq, Repr

/-! ## The command word -/

/-- One row of the command map (R103). -/
structure CommandRow where
  code : Byte
  matched : Word
  mask : Word
  deriving DecidableEq, Repr

/-- The command map of R103. -/
def commandRows : List CommandRow :=
  [ ⟨0x00, 0x00000000, 0xFFFFFFFF⟩,
    ⟨0x01, 0x00000001, 0xFFFFFFFF⟩,
    ⟨0x02, 0x00000002, 0xFF0000FF⟩,
    ⟨0x03, 0x00000003, 0xFFFFFEFF⟩,
    ⟨0x10, 0x00000010, 0xFFFFFFFF⟩,
    ⟨0x11, 0x00000011, 0xFFFFFFFF⟩,
    ⟨0x12, 0x00000012, 0xFFFF00FF⟩,
    ⟨0x13, 0x00000013, 0xFFFFFFFF⟩,
    ⟨0x20, 0x00000020, 0xFFFFFFFF⟩,
    ⟨0x21, 0x00000021, 0xFFFFFFFF⟩,
    ⟨0x22, 0x00000022, 0xFFFFFFFF⟩,
    ⟨0x23, 0x00000023, 0xFFFFFFFF⟩,
    ⟨0x24, 0x00000024, 0xFFFFFFFF⟩ ]

/-- CODE, bits 7:0 of the command word (R101). -/
def codeOf (w : Word) : Byte := w.extractLsb' 0 8

/-- SET_CLOCK's K, word bits 23:8 (R102). -/
def kOf (w : Word) : BitVec 16 := w.extractLsb' 8 16

/-- SET_WP's P, word bit 8 (R102). -/
def pOf (w : Word) : Bool := w.getLsbD 8

/-- TX_BYTE's DATA, word bits 15:8 (R102). -/
def dataOf (w : Word) : Byte := w.extractLsb' 8 8

/-- The command a CODE of R103 selects, with its ARG fields read from the word (R102, R103). -/
def commandOfCode (w : Word) : Option Command :=
  match (codeOf w).toNat with
  | 0x00 => some .nop
  | 0x01 => some .init
  | 0x02 => some (.setClock (kOf w))
  | 0x03 => some (.setWp (pOf w))
  | 0x10 => some .csAssert
  | 0x11 => some .csDeassert
  | 0x12 => some (.txByte (dataOf w))
  | 0x13 => some .rxByte
  | 0x20 => some .identify
  | 0x21 => some .read
  | 0x22 => some .program
  | 0x23 => some .erase
  | 0x24 => some .busyWait
  | _ => none

/-- What the command decoder says of a word (R122). Illegal and Reserved are the codec's own verdicts: results of the
command, not refusals of the model. -/
inductive Verdict where
  | illegal
  | reserved
  | command (c : Command)
  deriving DecidableEq, Repr

/-- The command decoder, total on any word (R122): first CODE against the map, then the row's mask and match. -/
def decodeCommand (w : Word) : Verdict :=
  match commandRows.find? (fun r => r.code == codeOf w) with
  | none => .illegal
  | some r =>
    if w &&& r.mask = r.matched then
      match commandOfCode w with
      | some c => .command c
      | none => .illegal
    else .reserved

/-! ## The wire frame header -/

/-- The three bytes of a wire address, bits 23:16 first (R75, R117). -/
def addrBytes (a : WireAddr) : List Byte :=
  [a.extractLsb' 16 8, a.extractLsb' 8 8, a.extractLsb' 0 8]

/-- The frame header after its opcode byte: the address bytes of an addressed frame and nothing for the others
(R110 to R119). Where two opcode parameters have one value the first of the list wins; the block itself never decodes a
frame (R118), so only this codec is concerned. -/
def decodeFrame (o : Config.Opcodes) (bytes : List Byte) : Except DecodeError Frame :=
  match bytes with
  | [] => .error .frameLength
  | op :: args =>
    if op = o.rdid then plain .rdid args
    else if op = o.read then addressed .readData args
    else if op = o.wren then plain .wren args
    else if op = o.pp then addressed .pp args
    else if op = o.se then addressed .se args
    else if op = o.be then addressed .be args
    else if op = o.ce then plain .ce args
    else if op = o.rdsr then plain .rdsr args
    else .error .unknownOpcode
where
  plain (f : Frame) : List Byte → Except DecodeError Frame
    | [] => .ok f
    | _ :: _ => .error .frameLength
  addressed (f : WireAddr → Frame) : List Byte → Except DecodeError Frame
    | [a2, a1, a0] => .ok (f (a2 ++ a1 ++ a0))
    | _ => .error .frameLength

/-! ## The three encodings together -/

/-- The bits of an instruction in the encoding it belongs to (R100): a command word, a host access descriptor with the
32-bit value beside it (R108), or the header bytes of a frame in the order they are sent (R109). -/
inductive Encoded where
  | command (w : Word)
  | access (descriptor : BitVec 9) (data : Word)
  | frame (header : List Byte)
  deriving DecidableEq, Repr

/-- The host access a descriptor stands for: RW in bit 8, A in bits 7:0 (R108). -/
def decodeAccess (d : BitVec 9) (data : Word) : Instr :=
  if d.getLsbD 8 then .wr (d.extractLsb' 0 8) data else .rd (d.extractLsb' 0 8)

/-- The whole decoder, total on any bits. -/
def decode (o : Config.Opcodes) : Encoded → Except DecodeError Instr
  | .command w =>
    match decodeCommand w with
    | .illegal => .error .illegalCode
    | .reserved => .error .reservedBits
    | .command c => .ok c.instr
  | .access d data => .ok (decodeAccess d data)
  | .frame bytes =>
    match decodeFrame o bytes with
    | .error e => .error e
    | .ok f => .ok f.instr

/-- The header bytes the opcode table leaves out of a wire row: zeros, one for each address byte of the opcode's frame. -/
def headerOfOpcode (o : Config.Opcodes) (op : Byte) : List Byte :=
  if op = o.rdid then [op]
  else if op = o.read then [op, 0, 0, 0]
  else if op = o.wren then [op]
  else if op = o.pp ∨ op = o.se ∨ op = o.be then [op, 0, 0, 0]
  else [op]

/-- The bits of a table row laid out in the encoding that has rows of that width: 32 bits are a command word, 9 bits (in
whole bytes 16) a host access descriptor with data 0, 8 bits a frame's opcode byte with address bytes 0. -/
def encodedOfTable (o : Config.Opcodes) (nbits w : Nat) : Option Encoded :=
  if nbits ≤ 8 then
    if w < 256 then some (.frame (headerOfOpcode o (BitVec.ofNat 8 w))) else none
  else if nbits ≤ 16 then
    if w < 512 then some (.access (BitVec.ofNat 9 w) 0) else none
  else if nbits ≤ 32 then
    if w < 4294967296 then some (.command (BitVec.ofNat 32 w)) else none
  else none

/-- The instruction the decoder reads from a row of the opcode table, with the wire opcodes at their default values. -/
def decodeTableWord (nbits w : Nat) : Option Instr :=
  match encodedOfTable Config.defaultOpcodes nbits w with
  | none => none
  | some e =>
    match decode Config.defaultOpcodes e with
    | .ok i => some i
    | .error _ => none

/-! ## The encoder -/

/-- The word of a command: ARG in bits 31:8 over CODE in bits 7:0 (R101, R102, R103). -/
def encodeCommand : Command → Word
  | .nop => 0x00000000
  | .init => 0x00000001
  | .setClock k => (0#8 ++ k : BitVec 24) ++ 0x02#8
  | .setWp p => (0#23 ++ BitVec.ofBool p : BitVec 24) ++ 0x03#8
  | .csAssert => 0x00000010
  | .csDeassert => 0x00000011
  | .txByte d => (0#16 ++ d : BitVec 24) ++ 0x12#8
  | .rxByte => 0x00000013
  | .identify => 0x00000020
  | .read => 0x00000021
  | .program => 0x00000022
  | .erase => 0x00000023
  | .busyWait => 0x00000024

/-- The opcode byte of a frame (R110 to R119). -/
def Frame.opcode (o : Config.Opcodes) : Frame → Byte
  | .rdid => o.rdid
  | .readData _ => o.read
  | .wren => o.wren
  | .pp _ => o.pp
  | .se _ => o.se
  | .be _ => o.be
  | .ce => o.ce
  | .rdsr => o.rdsr

/-- The address a frame carries, if it carries one (R111, R113, R114, R119). -/
def Frame.address : Frame → Option WireAddr
  | .rdid => none
  | .readData a => some a
  | .wren => none
  | .pp a => some a
  | .se a => some a
  | .be a => some a
  | .ce => none
  | .rdsr => none

/-- The address bytes of a frame: three, or none (R117). -/
def Frame.addressBytes (f : Frame) : List Byte :=
  match f.address with
  | some a => addrBytes a
  | none => []

/-- The header bytes of a frame in the order they are sent: the opcode, then the address bytes (R109, R117). -/
def Frame.header (o : Config.Opcodes) (f : Frame) : List Byte := f.opcode o :: f.addressBytes

/-- The whole encoder. -/
def encode (o : Config.Opcodes) : Instr → Encoded
  | .nop => .command (encodeCommand .nop)
  | .init => .command (encodeCommand .init)
  | .setClock k => .command (encodeCommand (.setClock k))
  | .setWp p => .command (encodeCommand (.setWp p))
  | .csAssert => .command (encodeCommand .csAssert)
  | .csDeassert => .command (encodeCommand .csDeassert)
  | .txByte d => .command (encodeCommand (.txByte d))
  | .rxByte => .command (encodeCommand .rxByte)
  | .identify => .command (encodeCommand .identify)
  | .read => .command (encodeCommand .read)
  | .program => .command (encodeCommand .program)
  | .erase => .command (encodeCommand .erase)
  | .busyWait => .command (encodeCommand .busyWait)
  | .rd a => .access (0#1 ++ a) 0
  | .wr a v => .access (1#1 ++ a) v
  | .rdid => .frame (Frame.header o .rdid)
  | .readData a => .frame (Frame.header o (.readData a))
  | .wren => .frame (Frame.header o .wren)
  | .pp a => .frame (Frame.header o (.pp a))
  | .se a => .frame (Frame.header o (.se a))
  | .be a => .frame (Frame.header o (.be a))
  | .ce => .frame (Frame.header o .ce)
  | .rdsr => .frame (Frame.header o .rdsr)

/-- The eight opcode parameters are pairwise distinct: what a frame's opcode byte must be to name its frame (R118 allows
equal values, and the block's rules do not change then). -/
abbrev opcodesDistinct (o : Config.Opcodes) : Prop :=
  [o.rdid, o.read, o.wren, o.pp, o.se, o.ce, o.rdsr, o.be].Nodup

/-- The byte offset of a register in the host window (R25). -/
def Reg.offsetOf : Reg → Byte
  | .cmd => 0x00
  | .status => 0x04
  | .config => 0x08
  | .offset => 0x0C
  | .byteCount => 0x10
  | .clkKhz => 0x14
  | .timing => 0x18
  | .chipId => 0x1C
  | .rxData => 0x20
  | .pins => 0x24
  | .progress => 0x28
  | .pollLimit => 0x2C

/-- The twelve registers in offset order (R25). -/
def Reg.all : List Reg :=
  [.cmd, .status, .config, .offset, .byteCount, .clkKhz, .timing, .chipId, .rxData, .pins, .progress, .pollLimit]

/-- The register at a byte offset; none at an offset R77 forbids. -/
def Reg.atOffset (a : Byte) : Option Reg := Reg.all.find? (fun r => r.offsetOf == a)

end Sys2Proof
end

