-- ==== Sys2Proof/Machine/State.lean ====
section
/-! DEFINITION. The state of the block and of the three agents around it (R8, R20 to R48), the reasons a step can stop, and the state after reset (R47, R250). -/

namespace Sys2Proof.Machine

/-- The output pins (R24). MISO is the Device's and has no level of the block's. -/
inductive Pin where
  | sck | mosi | csN | wpN
  deriving DecidableEq, Repr

/-- The levels now driven on the four output pins (R24, `pin.P` of R14). -/
structure Pins where
  sck  : Level
  mosi : Level
  csN  : Level
  wpN  : Level
  deriving DecidableEq, Repr

/-- The events of the trace (R14, R15, R250). -/
inductive Event where
  /-- `W(P, v)`: an output pin is driven. -/
  | write (p : Pin) (v : Level)
  /-- `D(n)`: at least `n` microseconds pass before the next event; `n > 0`. -/
  | delay (n : Nat)
  /-- `S(b)`: MISO was sampled. -/
  | sample (b : Level)
  /-- `P(b)`: a byte was handed to the sink. -/
  | push (b : Byte)
  /-- `L(b)`, or `L(EOF)` as `none`: the source was asked for a byte. -/
  | pull (r : Option Byte)
  /-- `RESET`. -/
  | reset
  deriving DecidableEq, Repr

/-- The result codes of STATUS.RESULT (R221). Codes 7..15 are "reserved, never written", so the type has no value for them. -/
inductive Result where
  | ok | unsupported | wrongStreamMode | badArg | illegalCmd | sourceShort | timeout
  deriving DecidableEq, Repr

/-- CONFIG.IFACE (R32). -/
inductive Iface where
  | singleLane | dualLane | quadLane | twoWire
  deriving DecidableEq, Repr

/-- CONFIG.PROTO (R32). -/
inductive Proto where
  | series25 | series24
  deriving DecidableEq, Repr

/-- The stream port's mode input STREAM_MODE (R207). -/
inductive StreamMode where
  | none | write | read
  deriving DecidableEq, Repr

/-- TIMING (R37): whole microseconds, 0..500 each. -/
structure Timing where
  half : BitVec 10
  bit  : BitVec 10
  byte : BitVec 10
  deriving DecidableEq, Repr

/-- CHIPID (R38). -/
structure ChipId where
  mfr   : Byte
  typ   : Byte
  cap   : Byte
  valid : Bool
  deriving DecidableEq, Repr

/-- The engine's working registers (R22), and the three local variables of IDENTIFY's pseudocode (R163), which no
register of R22 can hold together (log 17). -/
structure Work where
  addr    : BitVec 33
  endAddr : BitVec 33
  remain  : BitVec 29
  chunk   : BitVec 9
  n       : BitVec 9
  exh     : Bool
  shift   : Byte
  polls   : BitVec 32
  i       : BitVec 29
  m       : Byte
  t       : Byte
  c       : Byte
  deriving DecidableEq, Repr

/-- Which of IDENTIFY's three bytes a received byte is (R163). -/
inductive IdByte where
  | m | t | c
  deriving DecidableEq, Repr

/-- One line of a command's pseudocode still to be performed: an event, an assignment to registers with the loop test that
follows it, or a raise (R14, R23; log 2, log 3). -/
inductive Line where
  /-- `PinWrite(P, v)` (R14); on CS_N it carries the CS_ACTIVE assignment beside it (R31, R132, R133, R139). -/
  | drive (p : Pin) (v : Level)
  /-- TxByte's `PinWrite(MOSI, v[i])` (R134). -/
  | shiftOut (v : Byte) (i : Fin 8)
  /-- `Delay(n)` with n > 0 (R14). -/
  | delay (n : Nat)
  /-- RxByte's `b <- PinRead(MISO)` and `r[i] = b` (R135). -/
  | shiftIn (i : Fin 8)
  /-- A whole wire frame: its AssertSelect opens it (R109). -/
  | wire (f : Frame)
  /-- IDENTIFY's `m <- RxByte()`, `t <- …` or `c <- …`, after the byte is in (R163). -/
  | latch (x : IdByte)
  /-- `reg.CHIPID <- …` (R163). -/
  | writeChipId
  /-- `reg.RXDATA[7:0] <- r` (R145). -/
  | writeRxData
  /-- `reg.CLKKHZ <- K` and TIMING with it (R37, R140). -/
  | writeClock (k : BitVec 16)
  /-- `reg.PROGRESS <- 0` of EngineCheck (R160). -/
  | clearProgress
  /-- READ's `I <- 0` and the first loop test (R164). -/
  | beginRead
  /-- READ's `Push(b)` (R164). -/
  | push
  /-- READ's `reg.PROGRESS <- …`, `I <- I + 1` and the loop test (R164). -/
  | countRead
  /-- PROGRAM's `ADDR <- reg.OFFSET`, `REMAIN <- reg.BYTECOUNT` and the first chunk test (R165). -/
  | beginProgram
  /-- PROGRAM's `N <- 0`, `EXH <- 0` and the first byte test (R165). -/
  | beginData
  /-- PROGRAM's `(b, ok) <- Pull()` and the branch on ok (R165). -/
  | pull
  /-- PROGRAM's `N <- N + 1`, `reg.PROGRESS <- …` and the byte test (R165). -/
  | countSent
  /-- PROGRAM's EXH check, ADDR and REMAIN assignments and the chunk test (R165). -/
  | nextChunk
  /-- EraseRange's `ADDR <- alignDown(…)`, `END <- …` and the first sector test (R170). -/
  | beginErase
  /-- EraseRange's `reg.PROGRESS <- reg.PROGRESS + 1` (R170). -/
  | countSector
  /-- EraseRange's `ADDR <- ADDR + SECTOR_SIZE` and the sector test (R170). -/
  | nextSector
  /-- BusyWaitLoop's `POLLS <- 0` (R162). -/
  | beginPoll
  /-- BusyWaitLoop's `POLLS <- POLLS + 1`, its PROGRESS assignment when `count`, and its two tests (R162). -/
  | polled (count : Bool)
  /-- `raise CmdError(code)` (R14, R222). -/
  | raise (code : Result)
  deriving DecidableEq, Repr

/-- The sequencer SEQ: IDLE, or RUNNING(cmd, point) (R23). The point is the list of the lines still to be performed; when
none is left the pseudocode stands at its last line, `finish(OK)` (log 2). -/
inductive Seq where
  | idle
  | running (cmd : Word) (point : List Line)
  deriving DecidableEq, Repr

/-- The Device as the block meets it: its answers to the next samples, the level it holds once they are used up (`none`: a
free value for each sample), and how many samples the free values have answered (R86; log 4). -/
structure Device where
  answers : List Level
  held    : Option Level
  drawn   : Nat
  deriving DecidableEq, Repr

/-- The stream source: the bytes of its next pulls, whether the sequence ends after them (else free values go on), and how
many pulls the free values have answered (R84, R45 (c); log 5). -/
structure Source where
  bytes : List Byte
  ended : Bool
  drawn : Nat
  deriving DecidableEq, Repr

/-- One host access on the register window: the descriptor RW ++ A, the access size in bytes and the value written (R108, R77). -/
structure HostAccess where
  descriptor : BitVec 9
  size       : Nat
  data       : Word
  deriving DecidableEq, Repr

/-- What the outside can do between two events (R8, R207, R250). -/
inductive HostAct where
  /-- A read or a write of the register window (R200, R201). -/
  | access (a : HostAccess)
  /-- WAITIDLE: read STATUS until BUSY = 0, with `gap` + 1 engine steps between two reads (R121; log 18). -/
  | waitIdle (gap : Nat)
  /-- The stream port's mode input changes (R207). -/
  | streamMode (m : StreamMode)
  /-- The platform asserts reset (R250, R251). -/
  | reset
  deriving DecidableEq, Repr

/-- A move of the outside and how many engine steps pass before it (log 1). -/
structure HostMove where
  wait : Nat
  act  : HostAct
  deriving DecidableEq, Repr

/-- The whole state: the block's registers and sequencer, then the parameters, then the agents around the block and what
has been seen of the block (R8, R20). -/
structure State where
  /-- Output pin levels (R24). -/
  pins : Pins
  /-- STATUS.BUSY (R28). -/
  busy : Bool
  /-- STATUS.RESULT (R29). -/
  result : Result
  /-- STATUS.ERR_STICKY (R30). -/
  errSticky : Bool
  /-- STATUS.CS_ACTIVE (R31). -/
  csActive : Bool
  /-- CONFIG.IFACE (R32). -/
  iface : Iface
  /-- CONFIG.PROTO (R32). -/
  proto : Proto
  /-- OFFSET (R34). -/
  offset : BitVec 32
  /-- BYTECOUNT bits 28:0 (R35). -/
  byteCount : BitVec 29
  /-- CLKKHZ bits 15:0 (R36). -/
  clkKhz : BitVec 16
  /-- TIMING (R37). -/
  timing : Timing
  /-- CHIPID (R38). -/
  chipId : ChipId
  /-- RXDATA bits 7:0 (R40). -/
  rxData : Byte
  /-- PROGRESS (R42). -/
  progress : BitVec 32
  /-- POLL_LIMIT (R43). -/
  pollLimit : BitVec 32
  /-- SEQ (R23). -/
  seq : Seq
  /-- Working registers (R22). -/
  work : Work
  /-- The wire opcode parameters OPC_* (R10); no step writes them. -/
  opcodes : Config.Opcodes
  /-- STREAM_MODE, the stream port's input (R207). -/
  streamMode : StreamMode
  /-- The moves the outside will make, in order (R8; log 1). -/
  host : List HostMove
  /-- What the host has read: offset and value of each read, oldest first (R200; log 16). -/
  reads : List (Byte × Word)
  /-- The Device (R86). -/
  device : Device
  /-- The stream source (R84). -/
  source : Source
  /-- The stream sink: every byte pushed, oldest first (R85). -/
  sink : List Byte
  /-- The frames the engine has opened, oldest first: a history that no rule reads (R109; log 20). -/
  frames : List Frame
  /-- The trace: every event, oldest first (R15, R83). -/
  trace : List Event
  deriving DecidableEq, Repr

/-- Why the machine stops with a fault: there is no such reason. "PinWrite, PinRead and Delay always complete; a model gives
them no fault outcome" (R147), and "the block has no fatal state" (R230). Every error is a result of a command (R220). -/
inductive Fault where
  deriving DecidableEq, Repr

/-- What the model gives no step: the cases the spec marks `refuse` (93_implementation_defined.md S12 to S15). -/
inductive Refusal where
  /-- An instruction that has no meaning in this model yet; raised by no arm of exec. Safe. -/
  | notModelled (mnemonic : String)
  /-- A host register write, or a command, while STATUS.BUSY = 1 (R204); raised by WR and the thirteen commands. Safe: the
  host has no such move. -/
  | writeWhileBusy
  /-- An offset that is not a multiple of 4 or is above 0x2C (R77, R205); raised by RD and WR. Safe. -/
  | badOffset
  /-- A write of STATUS, CLKKHZ, TIMING, CHIPID, RXDATA, PINS or PROGRESS (R201, R205); raised by WR. Safe. -/
  | readOnlyRegister
  /-- A host access that is not 32 bits wide (R77, R205); raised by the step that fetches the access. Safe. -/
  | accessWidth
  /-- A change of STREAM_MODE while a command runs (R207); raised by the step that fetches the change. Safe. -/
  | streamModeWhileBusy
  deriving DecidableEq, Repr

/-- The outcome of one step of this machine. -/
abbrev Out := Host.Outcome State Fault Refusal

/-- The working registers after power-up. R47 leaves them unspecified and no rule reads one before it is written; zero is
this model's choice (log 8, DESIGN CHOICE, unsafe). -/
def Work.reset : Work :=
  { addr := 0, endAddr := 0, remain := 0, chunk := 0, n := 0, exh := false, shift := 0, polls := 0, i := 0,
    m := 0, t := 0, c := 0 }

/-- The machine right after reset (R47, R250, R252): the pins idle and protected, every register at R47's value, SEQ idle,
and the trace holding the one event RESET. CHIPID bits 23:0 and RXDATA bits 7:0 are unspecified by R47 and zero here
(log 7); the opcode parameters have R10's defaults (log 10); the outside has nothing attached and no move to make (log 12). -/
def State.reset : State :=
  { pins := { sck := false, mosi := false, csN := true, wpN := false }
    busy := false
    result := .ok
    errSticky := false
    csActive := false
    iface := .singleLane
    proto := .series25
    offset := 0
    byteCount := 0
    clkKhz := 0
    timing := { half := 0, bit := 0, byte := 0 }
    chipId := { mfr := 0, typ := 0, cap := 0, valid := false }
    rxData := 0
    progress := 0
    pollLimit := 0
    seq := .idle
    work := Work.reset
    opcodes := Config.defaultOpcodes
    streamMode := .none
    host := []
    reads := []
    device := { answers := [], held := none, drawn := 0 }
    source := { bytes := [], ended := false, drawn := 0 }
    sink := []
    frames := []
    trace := [.reset] }

end Sys2Proof.Machine
end

