-- ==== Sys2Proof/Machine/Flags.lean ====
section
/-! DEFINITION. The flags and every computation of one: result codes (R221), the STATUS word (R27), CS_ACTIVE (R31), BUSY at a command's start (R28, R202) and the completion that `finish` and `raise CmdError` share (R222). -/

namespace Sys2Proof.Machine

/-- The 4-bit code of a result in STATUS bits 7:4 (R221). -/
def Result.code : Result → BitVec 4
  | .ok => 0
  | .unsupported => 1
  | .wrongStreamMode => 2
  | .badArg => 3
  | .illegalCmd => 4
  | .sourceShort => 5
  | .timeout => 6

/-- The STATUS word: BUSY bit 0, RESULT bits 7:4, ERR_STICKY bit 8, CS_ACTIVE bit 9, zeros elsewhere (R27). -/
def statusWord (s : State) : Word :=
  0#22 ++ BitVec.ofBool s.csActive ++ BitVec.ofBool s.errSticky ++ s.result.code ++ 0#3 ++ BitVec.ofBool s.busy

/-- CS_ACTIVE after a pin write: 1 exactly when the last write to CS_N was 0 (R31). -/
def csActiveAfter (p : Pin) (v : Level) (old : Bool) : Bool :=
  match p with
  | .csN => !v
  | .sck => old
  | .mosi => old
  | .wpN => old

/-- ERR_STICKY at a completion: set by any result but OK, cleared by none (R30, R222). -/
def stickyAfter (c : Result) (old : Bool) : Bool := old || c != .ok

/-- The completion of a command, in one step, for `finish(code)` and `raise CmdError(code)` alike: RESULT, ERR_STICKY,
BUSY and SEQ, and "no other state changes at completion" (R222). This is the block's only error entry (R220, R233). -/
def complete (c : Result) (s : State) : State :=
  { s with result := c, errSticky := stickyAfter c s.errSticky, busy := false, seq := .idle }

/-- StartCommand's change, in the step of the CMD write: BUSY <- 1 and SEQ <- RUNNING(V, first line) (R28, R202). -/
def started (w : Word) (lines : List Line) (s : State) : State :=
  { s with busy := true, seq := .running w lines }

/-- A CMD write: refused while BUSY = 1 (R204), else the command starts (R202). -/
def startLines (w : Word) (lines : List Line) (s : State) : Out :=
  if s.busy then .refused .writeWhileBusy else .next (started w lines s)

end Sys2Proof.Machine
end

