-- ==== Sys2Proof/Machine/Operands.lean ====
section
/-! DEFINITION. Every operand form: the twelve register words a host reads (R25 to R43), the four registers it writes (R201), and the addresses and counts the engine computes from them (R117, R130, R175). -/

namespace Sys2Proof.Machine

/-! ## Register fields -/

/-- IFACE's code (R32). -/
def Iface.code : Iface → BitVec 2
  | .singleLane => 0
  | .dualLane => 1
  | .quadLane => 2
  | .twoWire => 3

/-- The bus variant of an IFACE code: every value is storable (R32). -/
def Iface.ofCode (b : BitVec 2) : Iface :=
  match b.toNat with
  | 0 => .singleLane
  | 1 => .dualLane
  | 2 => .quadLane
  | _ => .twoWire

/-- PROTO's code (R32). -/
def Proto.code : Proto → Bool
  | .series25 => false
  | .series24 => true

/-- The protocol variant of a PROTO code (R32). -/
def Proto.ofCode (b : Bool) : Proto := if b then .series24 else .series25

/-- CONFIG: IFACE bits 1:0, PROTO bit 8, zeros elsewhere (R32, R33). -/
def configWord (s : State) : Word := 0#23 ++ BitVec.ofBool s.proto.code ++ 0#6 ++ s.iface.code

/-- TIMING: T_HALF bits 9:0, T_BIT bits 19:10, T_BYTE bits 29:20 (R37). -/
def timingWord (s : State) : Word := 0#2 ++ s.timing.byte ++ s.timing.bit ++ s.timing.half

/-- CHIPID: MFR bits 7:0, TYPE bits 15:8, CAP bits 23:16, VALID bit 31 (R38). -/
def chipIdWord (s : State) : Word :=
  BitVec.ofBool s.chipId.valid ++ 0#7 ++ s.chipId.cap ++ s.chipId.typ ++ s.chipId.mfr

/-- PINS: SCK bit 0, MOSI bit 1, CS_N bit 2, WP_N bit 3, and in bit 4 a draw of MISO taken at the read (R41; log 6). -/
def pinsWord (s : State) : Word :=
  0#27 ++ BitVec.ofBool (Config.freePinMiso s.reads.length) ++ BitVec.ofBool s.pins.wpN ++ BitVec.ofBool s.pins.csN ++
    BitVec.ofBool s.pins.mosi ++ BitVec.ofBool s.pins.sck

/-- The word a read of a register returns (R200). -/
def readReg (r : Reg) (s : State) : Word :=
  match r with
  | .cmd => 0
  | .status => statusWord s
  | .config => configWord s
  | .offset => s.offset
  | .byteCount => 0#3 ++ s.byteCount
  | .clkKhz => 0#16 ++ s.clkKhz
  | .timing => timingWord s
  | .chipId => chipIdWord s
  | .rxData => 0#24 ++ s.rxData
  | .pins => pinsWord s
  | .progress => s.progress
  | .pollLimit => s.pollLimit

/-- `reg.CONFIG <- V AND 0x00000103` (R201, R33). -/
def writeConfig (v : Word) (s : State) : State :=
  { s with iface := Iface.ofCode (v.extractLsb' 0 2), proto := Proto.ofCode (v.getLsbD 8) }

/-- `reg.OFFSET <- V` (R201). -/
def writeOffset (v : Word) (s : State) : State := { s with offset := v }

/-- `reg.BYTECOUNT <- V AND 0x1FFFFFFF` (R201, R35). -/
def writeByteCount (v : Word) (s : State) : State := { s with byteCount := v.extractLsb' 0 29 }

/-- `reg.POLL_LIMIT <- V` (R201). -/
def writePollLimit (v : Word) (s : State) : State := { s with pollLimit := v }

/-! ## The transport's timing -/

/-- configureTiming(k): all three delays 0 for k = 0, else `max(1, 500 div k)` (R130). -/
def configureTiming (k : BitVec 16) : Timing :=
  if k = 0 then { half := 0, bit := 0, byte := 0 }
  else
    let h : BitVec 10 := BitVec.ofNat 10 (max 1 (Config.halfNum / k.toNat))
    { half := h, bit := h, byte := h }

/-! ## Addresses and counts -/

/-- The three address bytes' value of an exact engine address: "the wire address is ADDR mod 2^24" (R117). -/
def wireAddr (a : BitVec 33) : WireAddr := a.extractLsb' 0 24

/-- `alignDown(a, SECTOR_SIZE)` (R13, R170). -/
def alignDownSector (a : BitVec 33) : BitVec 33 := a - BitVec.ofNat 33 (a.toNat % Config.sectorSize)

/-- OFFSET as an exact engine address (R22, R165, R170). -/
def startAddr (s : State) : BitVec 33 := s.offset.setWidth 33

/-- `CHUNK <- min(REMAIN, PAGE_SIZE)` (R165). -/
def chunkOf (remain : BitVec 29) : BitVec 9 := BitVec.ofNat 9 (min remain.toNat Config.pageSize)

/-- `min(x + 1, 2^32 - 1)`: the counting of PROGRESS, which "saturates at 2^32 - 1" (R42), and of POLLS (R162; log 14). -/
def countUp (x : BitVec 32) : BitVec 32 := if x = BitVec.allOnes 32 then x else x + 1

/-- Supported(): IFACE = 0 and PROTO = 0 (R161). -/
def supported (s : State) : Bool := s.iface == .singleLane && s.proto == .series25

end Sys2Proof.Machine
end

