-- ==== Sys2Proof/Machine/Ops.lean ====
section
/-! DEFINITION. The named operations: the event primitives of R14, the environment's answers (R84, R86), the transport's primitives as the lines they stand for (R132 to R137), the wire frames (R109 to R119), and reset (R250). -/

namespace Sys2Proof.Machine

/-! ## Events -/

/-- The pin levels after one pin write (R14). -/
def Pins.set (p : Pin) (v : Level) (q : Pins) : Pins :=
  match p with
  | .sck => { q with sck := v }
  | .mosi => { q with mosi := v }
  | .csN => { q with csN := v }
  | .wpN => { q with wpN := v }

/-- An event joins the trace (R15). -/
def emit (e : Event) (s : State) : State := { s with trace := s.trace ++ [e] }

/-- `PinWrite(P, v)`, with CS_ACTIVE following CS_N in the same step (R14, R31). -/
def drive (p : Pin) (v : Level) (s : State) : State :=
  emit (.write p v) { s with pins := s.pins.set p v, csActive := csActiveAfter p v s.csActive }

/-- The Device's answer to one sample, and the Device after it: its next answer, else the level it holds, else a free
value (R86; log 4). -/
def Device.next (d : Device) : Level × Device :=
  match d.answers with
  | b :: bs => (b, { d with answers := bs })
  | [] =>
    match d.held with
    | some b => (b, d)
    | none => (Config.freeMiso d.drawn, { d with drawn := d.drawn + 1 })

/-- The source's answer to one pull, and the source after it. After the first end-of-input every pull gives end-of-input
(R84; log 5). -/
def Source.next (q : Source) : Option Byte × Source :=
  match q.bytes with
  | b :: bs => (some b, { q with bytes := bs })
  | [] =>
    if q.ended then (none, q)
    else
      match Config.freePull q.drawn with
      | some b => (some b, { q with drawn := q.drawn + 1 })
      | none => (none, { q with drawn := q.drawn + 1, ended := true })

/-- TxByte's bit `i`: `PinWrite(MOSI, v[i])`, with the byte being shifted in SHIFT (R134, R22). -/
def shiftOut (v : Byte) (i : Fin 8) (s : State) : State :=
  drive .mosi (v.getLsbD i.val) { s with work.shift := v }

/-- `((r << 1) OR b)[7:0]`, where bit 7 starts from r = 0 (R135). -/
def shiftedIn (i : Fin 8) (r : Byte) (b : Level) : Byte :=
  (if i = 7 then 0#7 else r.extractLsb' 0 7) ++ BitVec.ofBool b

/-- RxByte's bit `i`: `b <- PinRead(MISO)`, shifted into SHIFT (R135). -/
def shiftIn (i : Fin 8) (s : State) : State :=
  let a := s.device.next
  emit (.sample a.1) { s with device := a.2, work.shift := shiftedIn i s.work.shift a.1 }

/-- `Push(b)` of the byte last received, which always succeeds (R14, R85). -/
def pushByte (s : State) : State := emit (.push s.work.shift) { s with sink := s.sink ++ [s.work.shift] }

/-- The working registers after a pull: the byte in SHIFT, or EXH <- 1 at end-of-input (R165). -/
def Work.pulled (r : Option Byte) (w : Work) : Work :=
  match r with
  | some b => { w with shift := b }
  | none => { w with exh := true }

/-- `(b, ok) <- Pull()` and the branch on ok (R14, R165). -/
def pullByte (s : State) : State :=
  let a := s.source.next
  emit (.pull a.1) { s with source := a.2, work := s.work.pulled a.1 }

/-! ## The transport's primitives as lines -/

/-- `Delay(n)`: "if n = 0 it does nothing" (R14). -/
def delayLines (n : BitVec 10) : List Line := if n = 0 then [] else [.delay n.toNat]

/-- AssertSelect after its pin write, and AssertSelect whole (R132). -/
def assertSelect (t : Timing) : List Line := .drive .csN false :: delayLines t.byte

/-- DeassertSelect (R133). -/
def deassertSelect (t : Timing) : List Line := .drive .csN true :: delayLines t.byte

/-- One clock pulse with the per-bit delay before it (R134, R135). -/
def pulse (t : Timing) : List Line :=
  delayLines t.bit ++ [.drive .sck true] ++ delayLines t.half ++ [.drive .sck false] ++ delayLines t.half

/-- The bits of a byte in the order they are shifted, most significant first (R74). -/
def bitOrder : List (Fin 8) := [7, 6, 5, 4, 3, 2, 1, 0]

/-- TxByte(v) (R134). -/
def txByteLines (t : Timing) (v : Byte) : List Line :=
  bitOrder.flatMap (fun i => .shiftOut v i :: pulse t) ++ delayLines t.byte

/-- RxByte(), which leaves the byte in SHIFT (R135). -/
def rxByteLines (t : Timing) : List Line :=
  bitOrder.flatMap (fun i => .shiftIn i :: pulse t) ++ delayLines t.byte

/-- TxByte of each byte in turn: TxAddr sends three (R136), a frame its header (R109). -/
def txBytesLines (t : Timing) (bs : List Byte) : List Line := bs.flatMap (txByteLines t)

/-! ## Wire frames -/

/-- What a frame holds between its header and its DeassertSelect: the received bytes of RDID (R110, R163), of READ (R111,
R164) and of RDSR (R116), the pulled bytes of PP (R113, R165), nothing for WREN, SE, BE and CE (R112, R114, R115, R119). -/
def frameBody (t : Timing) : Frame → List Line
  | .rdid => rxByteLines t ++ [.latch .m] ++ rxByteLines t ++ [.latch .t] ++ rxByteLines t ++ [.latch .c]
  | .readData _ => [.beginRead]
  | .wren => []
  | .pp _ => [.beginData]
  | .se _ => []
  | .be _ => []
  | .ce => []
  | .rdsr => rxByteLines t

/-- A frame's lines after the pin write that opens it (R109, R132, R133). -/
def frameRest (s : State) (f : Frame) : List Line :=
  delayLines s.timing.byte ++ txBytesLines s.timing (f.header s.opcodes) ++ frameBody s.timing f ++
    deassertSelect s.timing

/-- The pin write that opens a frame, and the frame's entry in the history (R132; log 20). -/
def openFrame (f : Frame) (s : State) : State := drive .csN false { s with frames := s.frames ++ [f] }

/-! ## Reset -/

/-- The platform asserts reset: every piece of the block's state at R47's value in one step, recorded as one event RESET
(R250, R251). The unspecified fields are free values (R48; log 9), and the working registers, unspecified too, stay as they
are (log 8). The agents around the block are not reset. -/
def resetBlock (s : State) : State :=
  let chip := Config.freeTriple s.trace.length
  emit .reset
    { s with
      pins := { sck := false, mosi := false, csN := true, wpN := false }
      busy := false
      result := .ok
      errSticky := false
      csActive := false
      iface := .singleLane
      proto := .series25
      offset := 0
      byteCount := 0
      clkKhz := 0
      timing := configureTiming 0
      chipId :=
        { mfr := chip.extractLsb' 0 8, typ := chip.extractLsb' 8 8, cap := chip.extractLsb' 16 8, valid := false }
      rxData := Config.freeRxData s.trace.length
      progress := 0
      pollLimit := 0
      seq := .idle }

end Sys2Proof.Machine
end

