-- ==== Sys2Proof/Machine/Engine.lean ====
section
/-! DEFINITION. The flash command engine: EngineCheck (R160, R161), the lines of IDENTIFY, READ, PROGRAM, ERASE and BUSY_WAIT (R163 to R172) with the loop bodies they expand to, and each command's start by a CMD write. -/

namespace Sys2Proof.Machine

/-- EngineCheck's tests in their order (R160, R231): the configuration; BYTECOUNT for a command that uses a range; the
stream mode for a command that needs one. `none` when all pass. Nothing the tests read can change between the CMD write and
the engine's first step (R204, R207), so the start of the command performs them (log 2). -/
def engineCheck (ranged : Bool) (needs : Option StreamMode) (s : State) : Option Result :=
  if !supported s then some .unsupported
  else if ranged && decide (s.byteCount.toNat > Config.byteCountMax) then some .badArg
  else
    match needs with
    | none => none
    | some m => if s.streamMode = m then none else some .wrongStreamMode

/-- A command's lines behind its check: a failed check raises before any event (R160), and so ends with CS_N still 0 when a raw
transaction is open, although R177 says that no engine command ends so: R160 is followed (log 23, DEDUCED). -/
def checked (e : Option Result) (lines : List Line) : List Line :=
  match e with
  | some c => [.raise c]
  | none => lines

/-- BusyWaitLoop, which repeats from its `polled` line (R162). -/
def busyWaitLoopLines (count : Bool) : List Line := [.beginPoll, .wire .rdsr, .polled count]

/-- One pass of PROGRAM's chunk loop at flash address `a` (R165). -/
def chunkLines (a : BitVec 33) : List Line :=
  [.wire .wren, .wire (.pp (wireAddr a))] ++ busyWaitLoopLines false ++ [.nextChunk]

/-- One pass of EraseRange's sector loop at flash address `a` (R170). -/
def sectorLines (a : BitVec 33) : List Line :=
  [.wire .wren, .wire (.se (wireAddr a)), .countSector] ++ busyWaitLoopLines false ++ [.nextSector]

/-- EraseChip: two one-byte transactions and no busy-wait (R169). -/
def eraseChipLines : List Line := [.wire .wren, .wire .ce]

/-- IDENTIFY (R163). -/
def identifyLines (s : State) : List Line :=
  checked (engineCheck false none s) [.wire .rdid, .writeChipId]

/-- READ (R164). -/
def readLines (s : State) : List Line :=
  checked (engineCheck true (some .write) s) [.clearProgress, .wire (.readData (wireAddr (startAddr s)))]

/-- PROGRAM (R165). With BYTECOUNT = 0 it has no pin event and ends with CS_N still 0 when a raw transaction is open, although
R177 says that no engine command ends so: R165 is followed (log 23, DEDUCED). -/
def programLines (s : State) : List Line :=
  checked (engineCheck true (some .read) s) [.clearProgress, .beginProgram]

/-- ERASE: whole device for BYTECOUNT = 0, else ranged (R168). -/
def eraseLines (s : State) : List Line :=
  checked (engineCheck true none s)
    (.clearProgress :: if s.byteCount = 0 then eraseChipLines else [.beginErase])

/-- BUSY_WAIT (R172). -/
def busyWaitLines (s : State) : List Line :=
  checked (engineCheck false none s) (.clearProgress :: busyWaitLoopLines true)

/-- The meaning of IDENTIFY: its CMD write (R163, R202). -/
def execIdentify (s : State) : Out := startLines (encodeCommand .identify) (identifyLines s) s

/-- The meaning of READ (R164, R202). -/
def execRead (s : State) : Out := startLines (encodeCommand .read) (readLines s) s

/-- The meaning of PROGRAM (R165, R202). -/
def execProgram (s : State) : Out := startLines (encodeCommand .program) (programLines s) s

/-- The meaning of ERASE (R168, R202). -/
def execErase (s : State) : Out := startLines (encodeCommand .erase) (eraseLines s) s

/-- The meaning of BUSY_WAIT (R172, R202). -/
def execBusyWait (s : State) : Out := startLines (encodeCommand .busyWait) (busyWaitLines s) s

end Sys2Proof.Machine
end

