-- ==== Sys2Proof/Machine/Transport.lean ====
section
/-! DEFINITION. The eight transport commands NOP, INIT, SET_CLOCK, SET_WP, CS_ASSERT, CS_DEASSERT, TX_BYTE and RX_BYTE (R138 to R145): the lines of each one's pseudocode, and its start by a CMD write. -/

namespace Sys2Proof.Machine

/-- The check of the raw bus commands: IFACE only (R142 to R145, R223). -/
def rawChecked (s : State) (lines : List Line) : List Line :=
  if s.iface = .singleLane then lines else [.raise .unsupported]

/-- NOP: `finish(OK)` (R138). -/
def nopLines : List Line := []

/-- INIT: the idle levels, with no delay (R139). -/
def initLines : List Line :=
  [.drive .sck false, .drive .mosi false, .drive .csN true, .drive .wpN false]

/-- SET_CLOCK(K) (R140). -/
def setClockLines (k : BitVec 16) : List Line :=
  if k.toNat > Config.clkMaxKhz then [.raise .badArg] else [.writeClock k]

/-- SET_WP(P): 1 protects, which drives WP_N to 0 (R141). -/
def setWpLines (p : Bool) : List Line := [.drive .wpN (!p)]

/-- CS_ASSERT (R142). -/
def csAssertLines (s : State) : List Line := rawChecked s (assertSelect s.timing)

/-- CS_DEASSERT (R143). -/
def csDeassertLines (s : State) : List Line := rawChecked s (deassertSelect s.timing)

/-- TX_BYTE(DATA) (R144). -/
def txByteCmdLines (d : Byte) (s : State) : List Line := rawChecked s (txByteLines s.timing d)

/-- RX_BYTE (R145). -/
def rxByteCmdLines (s : State) : List Line := rawChecked s (rxByteLines s.timing ++ [.writeRxData])

/-- The meaning of NOP: its CMD write (R138, R202). -/
def execNop (s : State) : Out := startLines (encodeCommand .nop) nopLines s

/-- The meaning of INIT (R139, R202). -/
def execInit (s : State) : Out := startLines (encodeCommand .init) initLines s

/-- The meaning of SET_CLOCK (R140, R202). -/
def execSetClock (k : BitVec 16) (s : State) : Out := startLines (encodeCommand (.setClock k)) (setClockLines k) s

/-- The meaning of SET_WP (R141, R202). -/
def execSetWp (p : Bool) (s : State) : Out := startLines (encodeCommand (.setWp p)) (setWpLines p) s

/-- The meaning of CS_ASSERT (R142, R202). -/
def execCsAssert (s : State) : Out := startLines (encodeCommand .csAssert) (csAssertLines s) s

/-- The meaning of CS_DEASSERT (R143, R202). -/
def execCsDeassert (s : State) : Out := startLines (encodeCommand .csDeassert) (csDeassertLines s) s

/-- The meaning of TX_BYTE (R144, R202). -/
def execTxByte (d : Byte) (s : State) : Out := startLines (encodeCommand (.txByte d)) (txByteCmdLines d s) s

/-- The meaning of RX_BYTE (R145, R202). -/
def execRxByte (s : State) : Out := startLines (encodeCommand .rxByte) (rxByteCmdLines s) s

end Sys2Proof.Machine
end

