-- ==== Sys2Proof/Machine/HostAccess.lean ====
section
/-! DEFINITION. The host instructions RD and WR (R200, R201), StartCommand (R202) and the meaning of a decoded command word. -/

namespace Sys2Proof.Machine

/-- The command a decoded word starts (R202). -/
def startDecoded (c : Command) (s : State) : Out :=
  match c with
  | .nop => execNop s
  | .init => execInit s
  | .setClock k => execSetClock k s
  | .setWp p => execSetWp p s
  | .csAssert => execCsAssert s
  | .csDeassert => execCsDeassert s
  | .txByte d => execTxByte d s
  | .rxByte => execRxByte s
  | .identify => execIdentify s
  | .read => execRead s
  | .program => execProgram s
  | .erase => execErase s
  | .busyWait => execBusyWait s

/-- StartCommand(V) (R202): an illegal word starts the command `raise CmdError(ILLEGAL_CMD)`, a reserved form
`raise CmdError(BAD_ARG)`, any other word its command. -/
def startCommand (v : Word) (s : State) : Out :=
  match decodeCommand v with
  | .illegal => startLines v [.raise .illegalCmd] s
  | .reserved => startLines v [.raise .badArg] s
  | .command c => startDecoded c s

/-- RD(A) (R200): the register's word is returned to the host and nothing else changes (R80, R206). -/
def execRd (a : Byte) (s : State) : Out :=
  match Reg.atOffset a with
  | none => .refused .badOffset
  | some r => .next { s with reads := s.reads ++ [(a, readReg r s)] }

/-- WR(A, V) (R201), with its refusals in the pseudocode's order: the offset, BUSY, a read-only register. -/
def execWr (a : Byte) (v : Word) (s : State) : Out :=
  match Reg.atOffset a with
  | none => .refused .badOffset
  | some r =>
    if s.busy then .refused .writeWhileBusy
    else
      match r with
      | .cmd => startCommand v s
      | .config => .next (writeConfig v s)
      | .offset => .next (writeOffset v s)
      | .byteCount => .next (writeByteCount v s)
      | .pollLimit => .next (writePollLimit v s)
      | .status => .refused .readOnlyRegister
      | .clkKhz => .refused .readOnlyRegister
      | .timing => .refused .readOnlyRegister
      | .chipId => .refused .readOnlyRegister
      | .rxData => .refused .readOnlyRegister
      | .pins => .refused .readOnlyRegister
      | .progress => .refused .readOnlyRegister

end Sys2Proof.Machine
end

