-- ==== Sys2Proof/Machine/Sequencer.lean ====
section
/-! DEFINITION. One engine step: what a line does (R14), which lines a loop test puts next (R162 to R172), when a line raises (R222), and the engine's turn on them (R23). -/

namespace Sys2Proof.Machine

/-- PROGRAM's loop head: `CHUNK <- min(REMAIN, PAGE_SIZE)` when REMAIN > 0 (R165). -/
def Work.enterChunk (w : Work) : Work := if w.remain = 0 then w else { w with chunk := chunkOf w.remain }

/-- IDENTIFY's local variables (R163). -/
def Work.latch (x : IdByte) (w : Work) : Work :=
  match x with
  | .m => { w with m := w.shift }
  | .t => { w with t := w.shift }
  | .c => { w with c := w.shift }

/-- What a line does to the state beside the sequencer. -/
def effect (l : Line) (s : State) : State :=
  match l with
  | .drive p v => drive p v s
  | .shiftOut v i => shiftOut v i s
  | .delay n => emit (.delay n) s
  | .shiftIn i => shiftIn i s
  | .wire f => openFrame f s
  | .latch x => { s with work := s.work.latch x }
  | .writeChipId => { s with chipId := { mfr := s.work.m, typ := s.work.t, cap := s.work.c, valid := true } }
  | .writeRxData => { s with rxData := s.work.shift }
  | .writeClock k => { s with clkKhz := k, timing := configureTiming k }
  | .clearProgress => { s with progress := 0 }
  | .beginRead => { s with work.i := 0 }
  | .push => pushByte s
  | .countRead => { s with progress := countUp s.progress, work.i := s.work.i + 1 }
  | .beginProgram =>
    { s with work := { s.work with addr := startAddr s, remain := s.byteCount }.enterChunk }
  | .beginData => { s with work := { s.work with n := 0, exh := false } }
  | .pull => pullByte s
  | .countSent => { s with progress := countUp s.progress, work.n := s.work.n + 1 }
  | .nextChunk =>
    { s with
      work :=
        { s.work with
          addr := s.work.addr + s.work.chunk.setWidth 33
          remain := s.work.remain - s.work.chunk.setWidth 29 }.enterChunk }
  | .beginErase =>
    { s with
      work :=
        { s.work with
          addr := alignDownSector (startAddr s)
          endAddr := startAddr s + s.byteCount.setWidth 33 } }
  | .countSector => { s with progress := countUp s.progress }
  | .nextSector => { s with work.addr := s.work.addr + BitVec.ofNat 33 Config.sectorSize }
  | .beginPoll => { s with work.polls := 0 }
  | .polled count =>
    { s with
      work.polls := countUp s.work.polls
      progress := if count then countUp s.work.polls else s.progress }
  | .raise _ => s

/-! ## The loop tests -/

/-- `while I < reg.BYTECOUNT` (R164). -/
def moreToRead (s : State) : Bool := decide (s.work.i < s.byteCount)

/-- `while REMAIN > 0` (R165). -/
def moreChunks (s : State) : Bool := s.work.remain != 0

/-- `while N < CHUNK and EXH == 0` (R165). -/
def moreData (s : State) : Bool := decide (s.work.n < s.work.chunk) && !s.work.exh

/-- `while ADDR < END` (R170). -/
def moreSectors (s : State) : Bool := decide (s.work.addr < s.work.endAddr)

/-- `s[0]`, the WIP bit of the status byte in SHIFT (R116, R162). -/
def wip (s : State) : Bool := s.work.shift.getLsbD 0

/-- `reg.POLL_LIMIT != 0 and POLLS >= reg.POLL_LIMIT` (R162). -/
def pollLimitReached (s : State) : Bool := s.pollLimit != 0 && decide (s.pollLimit ≤ s.work.polls)

/-- READ's loop from its test on (R164). -/
def readLoop (s : State) : List Line :=
  bif moreToRead s then rxByteLines s.timing ++ [.push, .countRead] else []

/-- PROGRAM's chunk loop from its test on (R165). -/
def chunkLoop (s : State) : List Line := bif moreChunks s then chunkLines s.work.addr else []

/-- PROGRAM's byte loop from its test on (R165). -/
def dataLoop (s : State) : List Line := bif moreData s then [.pull] else []

/-- EraseRange's loop from its test on (R170). -/
def sectorLoop (s : State) : List Line := bif moreSectors s then sectorLines s.work.addr else []

/-- PROGRAM's branch on ok: the pulled byte is sent and counted, or nothing more is (R165). -/
def pulledLines (s : State) : List Line :=
  bif s.work.exh then [] else txByteLines s.timing s.work.shift ++ [.countSent]

/-- BusyWaitLoop from its two tests on: READY, TIMEOUT, or one status read more (R162). -/
def pollLoop (count : Bool) (s : State) : List Line :=
  bif !wip s then [] else bif pollLimitReached s then [.raise .timeout] else [.wire .rdsr, .polled count]

/-- The lines a loop test or a branch puts before the rest, on the state after the line's effect. -/
def expand (l : Line) (s : State) : List Line :=
  match l with
  | .drive _ _ => []
  | .shiftOut _ _ => []
  | .delay _ => []
  | .shiftIn _ => []
  | .wire f => frameRest s f
  | .latch _ => []
  | .writeChipId => []
  | .writeRxData => []
  | .writeClock _ => []
  | .clearProgress => []
  | .beginRead => readLoop s
  | .push => []
  | .countRead => readLoop s
  | .beginProgram => chunkLoop s
  | .beginData => dataLoop s
  | .pull => pulledLines s
  | .countSent => dataLoop s
  | .nextChunk => chunkLoop s
  | .beginErase => sectorLoop s
  | .countSector => []
  | .nextSector => sectorLoop s
  | .beginPoll => []
  | .polled count => pollLoop count s
  | .raise _ => []

/-- The result a line raises, if it raises: `raise CmdError(code)` itself, and PROGRAM's SOURCE_SHORT before the chunk
advances (R165, R227). -/
def raises (l : Line) (s : State) : Option Result :=
  match l with
  | .raise c => some c
  | .nextChunk => if s.work.exh then some .sourceShort else none
  | .drive _ _ => none
  | .shiftOut _ _ => none
  | .delay _ => none
  | .shiftIn _ => none
  | .wire _ => none
  | .latch _ => none
  | .writeChipId => none
  | .writeRxData => none
  | .writeClock _ => none
  | .clearProgress => none
  | .beginRead => none
  | .push => none
  | .countRead => none
  | .beginProgram => none
  | .beginData => none
  | .pull => none
  | .countSent => none
  | .beginErase => none
  | .countSector => none
  | .nextSector => none
  | .beginPoll => none
  | .polled _ => none

/-- One line performed with `rest` after it: a raise completes the command and drops the rest (R222); any other line has
its effect and the point moves on (R23). -/
def perform (l : Line) (cmd : Word) (rest : List Line) (s : State) : State :=
  match raises l s with
  | some c => complete c s
  | none =>
    let t := effect l s
    { t with seq := .running cmd (expand l t ++ rest) }

end Sys2Proof.Machine
end

