-- ==== Sys2Proof/Machine/Wire.lean ====
section
/-! DEFINITION. The eight wire opcodes as instructions: sending the frame each one opens (R109 to R119). -/

namespace Sys2Proof.Machine

/-- A frame is sent: its AssertSelect drives CS_N low in this step and the lines of the rest of the frame come next (R109).
Inside a command the frame goes before the lines still to be performed. No step meets this with SEQ idle; there the
sequencer sends the frame as the whole of what it runs, under the word 0 (log 13). -/
def sendFrame (f : Frame) (s : State) : Out :=
  match s.seq with
  | .running cmd rest => .next (perform (.wire f) cmd rest s)
  | .idle => .next (perform (.wire f) 0 [] { s with busy := true })

/-- RDID: OPC_RDID sent, three bytes received (R110). -/
def execRdid (s : State) : Out := sendFrame .rdid s

/-- READ_DATA: OPC_READ and the address sent, BYTECOUNT bytes received and pushed (R111, R164). -/
def execReadData (a : WireAddr) (s : State) : Out := sendFrame (.readData a) s

/-- WREN: OPC_WREN and nothing else (R112). -/
def execWren (s : State) : Out := sendFrame .wren s

/-- PP: OPC_PP and the address sent, then the pulled bytes of the chunk (R113, R165). -/
def execPp (a : WireAddr) (s : State) : Out := sendFrame (.pp a) s

/-- SE: OPC_SE and the address (R114). -/
def execSe (a : WireAddr) (s : State) : Out := sendFrame (.se a) s

/-- BE: OPC_BE and the address. No engine command sends it (R119; log 13). -/
def execBe (a : WireAddr) (s : State) : Out := sendFrame (.be a) s

/-- CE: OPC_CE and nothing else (R115). -/
def execCe (s : State) : Out := sendFrame .ce s

/-- RDSR: OPC_RDSR sent, one status byte received (R116). -/
def execRdsr (s : State) : Out := sendFrame .rdsr s

end Sys2Proof.Machine
end

