-- ==== Sys2Proof/Machine/Dispatch.lean ====
section
/-! DEFINITION. The one dispatch from an instruction to its meaning. -/

namespace Sys2Proof.Machine

def exec (i : Instr) (s : State) : Host.Outcome State Fault Refusal :=
  match i with
  | .nop => Sys2Proof.Machine.execNop s
  | .init => Sys2Proof.Machine.execInit s
  | .setClock k => Sys2Proof.Machine.execSetClock k s
  | .setWp p => Sys2Proof.Machine.execSetWp p s
  | .csAssert => Sys2Proof.Machine.execCsAssert s
  | .csDeassert => Sys2Proof.Machine.execCsDeassert s
  | .txByte d => Sys2Proof.Machine.execTxByte d s
  | .rxByte => Sys2Proof.Machine.execRxByte s
  | .identify => Sys2Proof.Machine.execIdentify s
  | .read => Sys2Proof.Machine.execRead s
  | .program => Sys2Proof.Machine.execProgram s
  | .erase => Sys2Proof.Machine.execErase s
  | .busyWait => Sys2Proof.Machine.execBusyWait s
  | .rd a => Sys2Proof.Machine.execRd a s
  | .wr a v => Sys2Proof.Machine.execWr a v s
  | .rdid => Sys2Proof.Machine.execRdid s
  | .readData a => Sys2Proof.Machine.execReadData a s
  | .wren => Sys2Proof.Machine.execWren s
  | .pp a => Sys2Proof.Machine.execPp a s
  | .se a => Sys2Proof.Machine.execSe a s
  | .be a => Sys2Proof.Machine.execBe a s
  | .ce => Sys2Proof.Machine.execCe s
  | .rdsr => Sys2Proof.Machine.execRdsr s

end Sys2Proof.Machine
end

