-- ==== Sys2Proof/Machine/Fetch.lean ====
section
/-! DEFINITION. Whose turn it is and what that agent does: a move of the outside, or one step of the engine (R8, R23, R83); and where an instruction stands so that the next step runs it. -/

namespace Sys2Proof.Machine

/-- One engine step (R23): nothing while SEQ is idle (R252); `finish(OK)` when no line is left; a frame line runs the frame's
instruction; any other line is performed. -/
def engineTurn (s : State) : Out :=
  match s.seq with
  | .idle => .next s
  | .running _ [] => .next (complete .ok s)
  | .running cmd (.wire f :: rest) => exec f.instr { s with seq := .running cmd rest }
  | .running cmd (l :: rest) => .next (perform l cmd rest s)

/-- A host access is fetched: only whole 32-bit words are legal (R77, R205); the descriptor is decoded and its instruction
runs (R108). -/
def accessTurn (a : HostAccess) (s : State) : Out :=
  if a.size = 4 then exec (decodeAccess a.descriptor a.data) s else .refused .accessWidth

/-- WAITIDLE's next poll, if BUSY still reads 1 (R121). -/
def pollAgain (gap : Nat) (s : State) : State :=
  if s.busy then { s with host := { wait := gap + 1, act := .waitIdle gap } :: s.host } else s

/-- One move of the outside. -/
def hostTurn (act : HostAct) (s : State) : Out :=
  match act with
  | .access a => accessTurn a s
  | .waitIdle gap =>
    match exec (.rd Reg.status.offsetOf) s with
    | .next t => .next (pollAgain gap t)
    | .fault r => .fault r
    | .refused r => .refused r
  | .streamMode m => if s.busy then .refused .streamModeWhileBusy else .next { s with streamMode := m }
  | .reset => .next (resetBlock s)

/-- The next turn: the outside's first move when no engine step is left to wait for, else the engine's (R83; log 1). -/
def turn (s : State) : Out :=
  match s.host with
  | [] => engineTurn s
  | m :: q =>
    match m.wait with
    | 0 => hostTurn m.act { s with host := q }
    | k + 1 => engineTurn { s with host := { m with wait := k } :: q }

/-! ## Placing an instruction where the next step fetches it -/

/-- The host access that writes a command word to CMD (R26, R108). -/
def cmdWrite (w : Word) : HostAccess := { descriptor := 0x100#9, size := 4, data := w }

/-- The outside's first move waits for one engine step more. -/
def deferHost : List HostMove → List HostMove
  | [] => []
  | m :: q => { m with wait := m.wait + 1 } :: q

/-- A frame line placed first in the sequencer, which then runs (log 13). -/
def placeFrame (f : Frame) (s : State) : State :=
  { s with
    host := deferHost s.host
    busy := true
    seq :=
      match s.seq with
      | .idle => .running 0 [.wire f]
      | .running cmd rest => .running cmd (.wire f :: rest) }

/-- An encoded instruction placed so that the next step fetches it: a command word and an access descriptor as the outside's
first move, a frame as the engine's first line. -/
def placeEncoded (e : Encoded) (s : State) : State :=
  match e with
  | .command w => { s with host := { wait := 0, act := .access (cmdWrite w) } :: s.host }
  | .access d v => { s with host := { wait := 0, act := .access { descriptor := d, size := 4, data := v } } :: s.host }
  | .frame bytes =>
    match decodeFrame s.opcodes bytes with
    | .ok f => placeFrame f s
    | .error _ => s

/-- The bits of a table row placed so that the next step runs them. -/
def placeTableWord (nbits w : Nat) (s : State) : State :=
  match encodedOfTable s.opcodes nbits w with
  | some e => placeEncoded e s
  | none => s

end Sys2Proof.Machine
end

