-- ==== Sys2Proof/Machine/Step.lean ====
section
/-! DEFINITION. The step of the machine, and the placing of an instruction where it fetches next. -/

namespace Sys2Proof.Machine

/-- One step: one agent acts (R8, R83). -/
def step (s : State) : Host.Outcome State Fault Refusal := turn s

/-- `s` with the instruction placed where `step` fetches its next one (log 12). -/
def State.withFetchWord (s : State) (nbits w : Nat) : State := placeTableWord nbits w s

end Sys2Proof.Machine
end

