-- ==== Sys2Proof/Machine/Pseudo.lean ====
section
/-! DEFINITION. The assembler level (R120, R121): each line of a host program, and each pseudo-instruction, as the moves of the outside it expands to. -/

namespace Sys2Proof.Machine

/-- A line of a host program (R120) or a pseudo-instruction (R121). -/
inductive AsmLine where
  | rd (r : Reg)
  | wr (r : Reg) (v : Word)
  | command (c : Command)
  | waitIdle
  | cfg (iface : BitVec 2) (proto : BitVec 1)
  | ldoff (a : Word)
  | ldcnt (n : Word)
  | protect
  | unprotect
  | xfer (b : Byte)
  | rawWren
  | rawRdsr
  deriving DecidableEq, Repr

/-- A host read of a register as a move (R108). R120 does not say how many engine steps pass before it; 0 is the model's choice
(log 22, DESIGN CHOICE). -/
def readMove (r : Reg) : HostMove :=
  { wait := 0, act := .access { descriptor := 0#1 ++ r.offsetOf, size := 4, data := 0 } }

/-- A host write of a register as a move (R108), with the same choice of 0 engine steps before it (log 22, DESIGN CHOICE). -/
def writeMove (r : Reg) (v : Word) : HostMove :=
  { wait := 0, act := .access { descriptor := 1#1 ++ r.offsetOf, size := 4, data := v } }

/-- WAITIDLE as a move, reading STATUS first after 0 engine steps (log 22, DESIGN CHOICE) and again each time `gap` + 1 have
passed (R121; log 18). -/
def waitIdleMove (gap : Nat) : HostMove := { wait := 0, act := .waitIdle gap }

/-- A command line: the CMD write, then WAITIDLE (R120). -/
def commandMoves (gap : Nat) (c : Command) : List HostMove :=
  [writeMove .cmd (encodeCommand c), waitIdleMove gap]

/-- The expansion of a line (R120, R121). -/
def AsmLine.expand (gap : Nat) (o : Config.Opcodes) : AsmLine → List HostMove
  | .rd r => [readMove r]
  | .wr r v => [writeMove r v]
  | .command c => commandMoves gap c
  | .waitIdle => [waitIdleMove gap]
  | .cfg i p => [writeMove .config ((p.setWidth 32 <<< 8) ||| i.setWidth 32)]
  | .ldoff a => [writeMove .offset a]
  | .ldcnt n => [writeMove .byteCount n]
  | .protect => commandMoves gap (.setWp true)
  | .unprotect => commandMoves gap (.setWp false)
  | .xfer b => xferMoves b
  | .rawWren => xferMoves o.wren
  | .rawRdsr =>
    commandMoves gap .csAssert ++ commandMoves gap (.txByte o.rdsr) ++ commandMoves gap .rxByte ++
      commandMoves gap .csDeassert ++ [readMove .rxData]
where
  /-- XFER's three commands (R121). -/
  xferMoves (b : Byte) : List HostMove :=
    commandMoves gap .csAssert ++ commandMoves gap (.txByte b) ++ commandMoves gap .csDeassert

/-- The moves of a whole host program (R120). -/
def assemble (gap : Nat) (o : Config.Opcodes) (p : List AsmLine) : List HostMove := p.flatMap (AsmLine.expand gap o)

/-- The short names R120 accepts, each with the mnemonic it stands for. -/
def shortNames : List (String × String) :=
  [("SETCLK", "SET_CLOCK"), ("SETWP", "SET_WP"), ("CSA", "CS_ASSERT"), ("CSD", "CS_DEASSERT"), ("TXB", "TX_BYTE"),
    ("RXB", "RX_BYTE"), ("IDENT", "IDENTIFY"), ("PROG", "PROGRAM"), ("BUSYW", "BUSY_WAIT")]

end Sys2Proof.Machine
end

