-- ==== Sys2Proof/Safety.lean ====
section
/-! DEFINITION. The terms the claims are stated in: what a run reaches, the host's duties, the invariant of the block, and what the primitives and frames put on the trace, written as lists of events from R14 and R132 to R137. -/

namespace Sys2Proof.Machine

/-! ## Runs -/

/-- `n` steps, stopping at the first that answers no next state: `Host.Core.run` of this machine. -/
def runFor : Nat → State → Out
  | 0, s => .next s
  | n + 1, s =>
    match step s with
    | .next t => runFor n t
    | .fault r => .fault r
    | .refused r => .refused r

/-- Some number of steps from `s`, none of them a fault or a refusal, leads to `t`. -/
def Reaches (s t : State) : Prop := ∃ n, runFor n s = .next t

/-- Every number of steps from `s` leads to a next state with the property: the run never stops and never leaves it. -/
def Forever (p : State → Prop) (s : State) : Prop :=
  ∀ n, ∃ t, runFor n s = .next t ∧ p t

/-- The instruction's meaning answers a next state, and the engine's steps from there lead to `t`: the command started in
that step (R202) runs its pseudocode to `t`. -/
def RunsTo (i : Instr) (s t : State) : Prop := ∃ u, exec i s = .next u ∧ Reaches u t

/-- The block waits for a CMD write and the outside makes no move of its own: what a claim about one command starts from. -/
abbrev Ready (s : State) : Prop := s.busy = false ∧ s.seq = .idle ∧ s.host = []

/-- The next turn is the engine's: the outside makes no move now. -/
abbrev engineNext (s : State) : Bool :=
  match s.host with
  | [] => true
  | m :: _ => m.wait != 0

/-- The one supported configuration: "IFACE = 0 (single-lane serial) and … PROTO = 0 (25-series command set)" (R161). -/
abbrev configSupported (s : State) : Prop := s.iface = .singleLane ∧ s.proto = .series25

/-- A command that ended with an error and did nothing else: STATUS.RESULT and ERR_STICKY (R222, R233). -/
abbrev failed (c : Result) (s : State) : State := { s with result := c, errSticky := true }

/-- A count as PROGRESS and POLLS hold it: "it saturates at 2^32 - 1" (R42). -/
abbrev saturated (n : Nat) : BitVec 32 := BitVec.ofNat 32 (min n (2 ^ 32 - 1))

/-- The outside's next move, due now, is a reset (R250, R251). -/
abbrev resetDue (s : State) : Bool :=
  match s.host with
  | [] => false
  | m :: _ => m.wait == 0 && m.act == .reset

/-- The pins after a frame: SCK low, MOSI at the last bit sent, CS_N high, WP_N as it was (R133 to R135). -/
abbrev busClosed (mosi : Level) (s : State) : Pins := { s.pins with sck := false, mosi := mosi, csN := true }

/-! ## Duties of the outside (R208) -/

/-- The access keeps the host's duties: 32 bits wide, a legal offset, and for a write a writable register while BUSY = 0
(R204, R205). -/
abbrev accessLegal (a : HostAccess) (s : State) : Bool :=
  a.size == 4 &&
    match decodeAccess a.descriptor a.data with
    | .wr x _ => legalOffset x && writableOffset x && !s.busy
    | .rd x => legalOffset x
    | _ => false

/-- The outside's next move, if it is due, keeps the duties of R208. -/
abbrev dutyKept (s : State) : Bool :=
  match s.host with
  | [] => true
  | m :: _ =>
    match m.wait, m.act with
    | 0, .access a => accessLegal a s
    | 0, .streamMode _ => !s.busy
    | 0, .waitIdle _ => true
    | 0, .reset => true
    | _ + 1, _ => true

/-! ## The invariant -/

/-- What the lines still to be performed need of the levels of SCK and CS_N when their turn comes, and leave behind: MOSI and
CS_N are driven only while SCK is low, the pin pulses return low, a frame opens and ends with SCK low, a command ends with
SCK low (R146), and the lines that can raise TIMEOUT or SOURCE_SHORT are met with CS_N high (R177, R233). -/
def pointSound (sck csN : Level) : List Line → Bool
  | [] => !sck
  | .drive .sck v :: rest => pointSound v csN rest
  | .drive .mosi _ :: rest => !sck && pointSound sck csN rest
  | .drive .csN v :: rest => !sck && pointSound sck v rest
  | .drive .wpN _ :: rest => pointSound sck csN rest
  | .shiftOut _ _ :: rest => !sck && pointSound sck csN rest
  | .shiftIn _ :: rest => !sck && pointSound sck csN rest
  | .delay _ :: rest => pointSound sck csN rest
  | .wire _ :: rest => !sck && pointSound false true rest
  | .latch _ :: rest => pointSound sck csN rest
  | .writeChipId :: rest => pointSound sck csN rest
  | .writeRxData :: rest => pointSound sck csN rest
  | .writeClock _ :: rest => pointSound sck csN rest
  | .clearProgress :: rest => pointSound sck csN rest
  | .beginRead :: rest => !sck && pointSound sck csN rest
  | .push :: rest => pointSound sck csN rest
  | .countRead :: rest => !sck && pointSound sck csN rest
  | .beginProgram :: rest => !sck && pointSound sck csN rest
  | .beginData :: rest => !sck && pointSound sck csN rest
  | .pull :: rest => !sck && pointSound sck csN rest
  | .countSent :: rest => !sck && pointSound sck csN rest
  | .nextChunk :: rest => !sck && csN && pointSound sck csN rest
  | .beginErase :: rest => !sck && pointSound sck csN rest
  | .countSector :: rest => pointSound sck csN rest
  | .nextSector :: rest => !sck && pointSound sck csN rest
  | .beginPoll :: rest => pointSound sck csN rest
  | .polled _ :: rest => !sck && csN && pointSound sck csN rest
  | .raise c :: _ => !sck && (csN || (c != .timeout && c != .sourceShort))

/-- No line of the point writes a clock above 1000 kHz (R36, R140). -/
def pointClockLegal : List Line → Bool
  | [] => true
  | .drive _ _ :: rest => pointClockLegal rest
  | .shiftOut _ _ :: rest => pointClockLegal rest
  | .delay _ :: rest => pointClockLegal rest
  | .shiftIn _ :: rest => pointClockLegal rest
  | .wire _ :: rest => pointClockLegal rest
  | .latch _ :: rest => pointClockLegal rest
  | .writeChipId :: rest => pointClockLegal rest
  | .writeRxData :: rest => pointClockLegal rest
  | .writeClock k :: rest => decide (k.toNat ≤ Config.clkMaxKhz) && pointClockLegal rest
  | .clearProgress :: rest => pointClockLegal rest
  | .beginRead :: rest => pointClockLegal rest
  | .push :: rest => pointClockLegal rest
  | .countRead :: rest => pointClockLegal rest
  | .beginProgram :: rest => pointClockLegal rest
  | .beginData :: rest => pointClockLegal rest
  | .pull :: rest => pointClockLegal rest
  | .countSent :: rest => pointClockLegal rest
  | .nextChunk :: rest => pointClockLegal rest
  | .beginErase :: rest => pointClockLegal rest
  | .countSector :: rest => pointClockLegal rest
  | .nextSector :: rest => pointClockLegal rest
  | .beginPoll :: rest => pointClockLegal rest
  | .polled _ :: rest => pointClockLegal rest
  | .raise _ :: rest => pointClockLegal rest

/-- The bus part of the invariant: the sequencer's point is sound for the levels now driven, and SCK is low when idle
(R146: "SCK idles low"). -/
abbrev busSound (s : State) : Bool :=
  match s.seq with
  | .idle => !s.pins.sck
  | .running _ point => pointSound s.pins.sck s.pins.csN point && pointClockLegal point

/-- The invariant of the block. -/
structure Inv (s : State) : Prop where
  /-- "SEQ = IDLE exactly when STATUS.BUSY = 0" (R23). -/
  idle_iff : s.seq = .idle ↔ s.busy = false
  /-- "STATUS.CS_ACTIVE is 1 exactly when … pin.CS_N = 0" (R31). -/
  cs : s.csActive = !s.pins.csN
  /-- TIMING is "always equal to the value configureTiming(CLKKHZ)" (R37). -/
  timing : s.timing = configureTiming s.clkKhz
  /-- CLKKHZ is 0 or 1..1000 (R36). -/
  clk : s.clkKhz.toNat ≤ Config.clkMaxKhz
  /-- A RESULT other than OK has set ERR_STICKY (R30). -/
  sticky : s.result ≠ .ok → s.errSticky = true
  /-- The bus levels fit the sequencer's point (R146, R177, R233). -/
  bus : busSound s = true

/-! ## Write-enable discipline (R173) -/

/-- A frame that needs WREN before it: PP, SE, CE; and BE, which no engine command sends (R173, R119). -/
def needsWren : Frame → Bool
  | .rdid => false
  | .readData _ => false
  | .wren => false
  | .pp _ => true
  | .se _ => true
  | .be _ => true
  | .ce => true
  | .rdsr => false

/-- Every frame of the list that needs it stands right after a WREN frame; `armed` says whether the frame before the list
is WREN. -/
def wrenDisciplined (armed : Bool) : List Frame → Bool
  | [] => true
  | f :: rest => (!needsWren f || armed) && wrenDisciplined (f == .wren) rest

/-- The last frame sent is WREN. -/
abbrev lastIsWren (fs : List Frame) : Bool := fs.getLast? == some .wren

/-- The frames a point will open keep the discipline too, whatever frames its loop lines put in first. -/
def pointDisciplined (armed : Bool) : List Line → Bool
  | [] => true
  | .drive _ _ :: rest => pointDisciplined armed rest
  | .shiftOut _ _ :: rest => pointDisciplined armed rest
  | .delay _ :: rest => pointDisciplined armed rest
  | .shiftIn _ :: rest => pointDisciplined armed rest
  | .wire f :: rest => (!needsWren f || armed) && pointDisciplined (f == .wren) rest
  | .latch _ :: rest => pointDisciplined armed rest
  | .writeChipId :: rest => pointDisciplined armed rest
  | .writeRxData :: rest => pointDisciplined armed rest
  | .writeClock _ :: rest => pointDisciplined armed rest
  | .clearProgress :: rest => pointDisciplined armed rest
  | .beginRead :: rest => pointDisciplined armed rest
  | .push :: rest => pointDisciplined armed rest
  | .countRead :: rest => pointDisciplined armed rest
  | .beginProgram :: rest => pointDisciplined false rest
  | .beginData :: rest => pointDisciplined armed rest
  | .pull :: rest => pointDisciplined armed rest
  | .countSent :: rest => pointDisciplined armed rest
  | .nextChunk :: rest => pointDisciplined false rest
  | .beginErase :: rest => pointDisciplined false rest
  | .countSector :: rest => pointDisciplined armed rest
  | .nextSector :: rest => pointDisciplined false rest
  | .beginPoll :: rest => pointDisciplined armed rest
  | .polled _ :: rest => pointDisciplined false rest
  | .raise _ :: rest => pointDisciplined armed rest

/-- The frames sent so far, and the frames still in the sequencer's point, keep the discipline. -/
structure WrenInv (s : State) : Prop where
  sent : wrenDisciplined false s.frames = true
  ahead : ∀ cmd point, s.seq = .running cmd point → pointDisciplined (lastIsWren s.frames) point = true

/-! ## What the primitives put on the trace -/

/-- `Delay(n)` (R14). -/
def delayEvents (n : BitVec 10) : List Event := if n = 0 then [] else [.delay n.toNat]

/-- The rest of one bit after its MOSI write or MISO sample (R134, R135). -/
def pulseEvents (t : Timing) : List Event :=
  delayEvents t.bit ++ [.write .sck true] ++ delayEvents t.half ++ [.write .sck false] ++ delayEvents t.half

/-- The bits of a byte as they go out and come in: v[7] first, v[0] last (R74, R134). -/
def bitsOf (v : Byte) : List Level :=
  [v.getLsbD 7, v.getLsbD 6, v.getLsbD 5, v.getLsbD 4, v.getLsbD 3, v.getLsbD 2, v.getLsbD 1, v.getLsbD 0]

/-- The byte whose bits came in that order (R135). -/
def byteOfBits (bs : List Level) : Byte := bs.foldl (fun r b => r.extractLsb' 0 7 ++ BitVec.ofBool b) 0

/-- TxByte(v) on the trace (R134). -/
def txEvents (t : Timing) (v : Byte) : List Event :=
  (bitsOf v).flatMap (fun b => .write .mosi b :: pulseEvents t) ++ delayEvents t.byte

/-- RxByte() on the trace, for the bits the Device answers (R135). -/
def rxEvents (t : Timing) (bits : List Level) : List Event :=
  bits.flatMap (fun b => .sample b :: pulseEvents t) ++ delayEvents t.byte

/-- AssertSelect() on the trace (R132). -/
def assertEvents (t : Timing) : List Event := .write .csN false :: delayEvents t.byte

/-- DeassertSelect() on the trace (R133). -/
def deassertEvents (t : Timing) : List Event := .write .csN true :: delayEvents t.byte

/-- A frame's header on the trace: AssertSelect and TxByte of each byte (R109). -/
def headerEvents (o : Config.Opcodes) (t : Timing) (f : Frame) : List Event :=
  assertEvents t ++ (f.header o).flatMap (txEvents t)

/-- A frame that sends its header and nothing else and receives nothing: WREN, SE, BE, CE (R112, R114, R115, R119). -/
def plainFrameEvents (o : Config.Opcodes) (t : Timing) (f : Frame) : List Event :=
  headerEvents o t f ++ deassertEvents t

/-- A received byte and its push on the trace (R164). -/
def readByteEvents (t : Timing) (bits : List Level) : List Event :=
  rxEvents t bits ++ [.push (byteOfBits bits)]

/-- A pulled byte and its TxByte on the trace (R165). -/
def sendByteEvents (t : Timing) (b : Byte) : List Event := .pull (some b) :: txEvents t b

/-- An RDSR frame on the trace, for the bits of the status byte (R116, R162). -/
def statusReadEvents (o : Config.Opcodes) (t : Timing) (bits : List Level) : List Event :=
  headerEvents o t .rdsr ++ rxEvents t bits ++ deassertEvents t

/-- The RDSR frames of one busy-wait on the trace, one for each status byte (R162). -/
def pollEvents (o : Config.Opcodes) (t : Timing) (statuses : List Byte) : List Event :=
  statuses.flatMap (fun b => statusReadEvents o t (bitsOf b))

/-- One WREN/PP pair of PROGRAM on the trace, its data bytes pulled and sent, then `last`, then the busy-wait (R165). -/
def chunkEvents (o : Config.Opcodes) (t : Timing) (a : BitVec 33) (data : List Byte) (last : List Event)
    (statuses : List Byte) : List Event :=
  plainFrameEvents o t .wren ++ headerEvents o t (.pp (wireAddr a)) ++ data.flatMap (sendByteEvents t) ++ last ++
    deassertEvents t ++ pollEvents o t statuses

/-- PROGRAM on the trace: one pair for each busy-wait of `polls`, 256 data bytes a pair while there are as many (R166). -/
def programEvents (o : Config.Opcodes) (t : Timing) (a : BitVec 33) (data : List Byte) : List (List Byte) → List Event
  | [] => []
  | p :: ps =>
    chunkEvents o t a (data.take Config.pageSize) [] p ++
      programEvents o t (a + BitVec.ofNat 33 Config.pageSize) (data.drop Config.pageSize) ps

/-- The frames of PROGRAM, in order (R166). -/
def programFrames (a : BitVec 33) : List (List Byte) → List Frame
  | [] => []
  | p :: ps =>
    [.wren, .pp (wireAddr a)] ++ List.replicate p.length .rdsr ++
      programFrames (a + BitVec.ofNat 33 Config.pageSize) ps

/-- One sector of EraseRange on the trace (R170). -/
def sectorEvents (o : Config.Opcodes) (t : Timing) (a : BitVec 33) (statuses : List Byte) : List Event :=
  plainFrameEvents o t .wren ++ plainFrameEvents o t (.se (wireAddr a)) ++ pollEvents o t statuses

/-- EraseRange on the trace: one sector for each busy-wait of `polls` (R171). -/
def eraseEvents (o : Config.Opcodes) (t : Timing) (a : BitVec 33) : List (List Byte) → List Event
  | [] => []
  | p :: ps => sectorEvents o t a p ++ eraseEvents o t (a + BitVec.ofNat 33 Config.sectorSize) ps

/-- The frames of EraseRange, in order (R171). -/
def eraseFrames (a : BitVec 33) : List (List Byte) → List Frame
  | [] => []
  | p :: ps =>
    [.wren, .se (wireAddr a)] ++ List.replicate p.length .rdsr ++
      eraseFrames (a + BitVec.ofNat 33 Config.sectorSize) ps

/-- The microseconds that the delays of a trace add up to (R237, R267). -/
def delaySum : List Event → Nat
  | [] => 0
  | .delay n :: rest => n + delaySum rest
  | .write _ _ :: rest => delaySum rest
  | .sample _ :: rest => delaySum rest
  | .push _ :: rest => delaySum rest
  | .pull _ :: rest => delaySum rest
  | .reset :: rest => delaySum rest

/-- The instruction runs to the end of the command, and whenever it has, the delays it put on the trace add up to `us`
microseconds: R267's lower bound, read off the run. -/
def Delays (i : Instr) (s : State) (us : Nat) : Prop :=
  (∃ t, RunsTo i s t ∧ t.seq = .idle) ∧
  ∀ t, RunsTo i s t → t.seq = .idle → delaySum t.trace = delaySum s.trace + us

/-! ## What the Device and the source answer -/

/-- The Device's next `n` bits, and the Device after them (R86). -/
def Device.nextBits : Nat → Device → List Level × Device
  | 0, d => ([], d)
  | n + 1, d =>
    let r := Device.nextBits n d.next.2
    (d.next.1 :: r.1, r.2)

/-- The bits of the next `n` bytes the Device answers, byte by byte, and the Device after them. -/
def Device.nextBytes : Nat → Device → List (List Level) × Device
  | 0, d => ([], d)
  | n + 1, d =>
    let b := d.nextBits 8
    let r := Device.nextBytes n b.2
    (b.1 :: r.1, r.2)

/-- A Device that answers these bytes next and then goes on as `d`. -/
def Device.answering (bytes : List Byte) (d : Device) : Device := { d with answers := bytes.flatMap bitsOf ++ d.answers }

/-- The status bytes of one busy-wait that ends READY: WIP = 1 in all but the last, WIP = 0 in the last (R162). -/
def EndsReady (statuses : List Byte) : Prop :=
  ∃ busy ready, statuses = busy ++ [ready] ∧ (∀ b ∈ busy, b.getLsbD 0 = true) ∧ ready.getLsbD 0 = false

/-- POLL_LIMIT lets a busy-wait make `n` status reads (R43, R162). -/
abbrev pollsAllowed (n : Nat) (s : State) : Prop := s.pollLimit = 0 ∨ n ≤ s.pollLimit.toNat

/-- A Device whose status reads all show WIP = 1: bit 0 of every byte it answers from now on is 1 (R229). -/
def Device.alwaysBusy (d : Device) : Prop :=
  ∀ n, ∀ bits ∈ (d.nextBytes n).1, (byteOfBits bits).getLsbD 0 = true

end Sys2Proof.Machine
end

