-- ==== Sys2Proof/Certificates/Slice0/Obligations.lean ====
section
/-! DEFINITION. The statements for the provers. Where a final state is written `{ s with … }`, every field not named is as it was in `s`: that is the statement's frame. `work := w` leaves open only the engine's working registers, which no rule reads between commands (R22). -/

section

open Sys2Proof Sys2Proof.Machine

/-! ## Encodings -/

/-- R100, R103, R108, R109: decoding an encoded instruction gives it back, for every instruction, every operand value and
any eight distinct opcode parameters. -/
def Obligations.DecodeEncodeRoundTrip : Prop :=
  ∀ (o : Config.Opcodes) (i : Instr), opcodesDistinct o → decode o (encode o i) = .ok i

/-- R103, R122: each command is the meaning of exactly one word. -/
def Obligations.CommandHasExactlyOneWord : Prop :=
  ∀ (w : Word) (c : Command), decodeCommand w = .command c ↔ w = encodeCommand c

/-- R105: the CODE values 0x04..0x0F, 0x14..0x1F and 0x25..0xFF are illegal and no other is; the word's other bits have no
say. By R226 the command then ends with ILLEGAL_CMD and nothing but STATUS changes. -/
def Obligations.UnassignedCodeIsIllegalCommand : Prop :=
  ∀ w : Word,
    (decodeCommand w = .illegal ↔
      (0x04 ≤ w.toNat % 256 ∧ w.toNat % 256 ≤ 0x0F) ∨ (0x14 ≤ w.toNat % 256 ∧ w.toNat % 256 ≤ 0x1F) ∨
        0x25 ≤ w.toNat % 256) ∧
    ∀ s : State, Ready s → decodeCommand w = .illegal → RunsTo (.wr 0x00 w) s (failed .illegalCmd s)

/-- R104: an assigned CODE with a 1 in a bit the row's mask covers outside CODE is a reserved form, and its command ends with
BAD_ARG and nothing but STATUS changes. The used ARG bits are written out from R102. -/
def Obligations.ReservedArgBitsAreBadArg : Prop :=
  ∀ w : Word,
    let code := w.toNat % 256
    let arg := w.toNat / 256
    (decodeCommand w = .reserved ↔
      (code ∈ [0x00, 0x01, 0x10, 0x11, 0x13, 0x20, 0x21, 0x22, 0x23, 0x24] ∧ arg ≠ 0) ∨ (code = 0x02 ∧ arg ≥ 65536) ∨
        (code = 0x03 ∧ arg ≥ 2) ∨ (code = 0x12 ∧ arg ≥ 256)) ∧
    ∀ s : State, Ready s → decodeCommand w = .reserved → RunsTo (.wr 0x00 w) s (failed .badArg s)

/-- Words written out from R102, R103, R108 and R109 to R117. The opcode bytes are R10's defaults, which R10 marks as
general knowledge (log 10, PRESUMED). -/
def Obligations.SpecWordsDecode : Prop :=
  decode Config.defaultOpcodes (.command 0b00000000000000000110010000000010#32) = .ok (.setClock 100) ∧
  decode Config.defaultOpcodes (.command 0b00000000000000001010010100010010#32) = .ok (.txByte 0xA5) ∧
  decode Config.defaultOpcodes (.command 0b00000000000000000000000000100010#32) = .ok .program ∧
  decode Config.defaultOpcodes (.access 0b000000100#9 0) = .ok (.rd 0x04) ∧
  decode Config.defaultOpcodes (.access 0b100001100#9 0x12345678) = .ok (.wr 0x0C 0x12345678) ∧
  decode Config.defaultOpcodes (.frame [0x02, 0x12, 0x34, 0x56]) = .ok (.pp 0x123456) ∧
  decode Config.defaultOpcodes (.frame [0x9F]) = .ok .rdid

/-! ## The host's accesses -/

/-- R200: RD in its twelve cases, at the offsets the pseudocode writes out: a next state in which the host has read the
register's word and nothing else has changed, whether or not a command runs. At any other offset RD is refused. -/
def Obligations.HostReadReturnsTheRegister : Prop :=
  (∀ (a : Byte) (s : State), (a.toNat % 4 ≠ 0 ∨ a.toNat > 0x2C) → exec (.rd a) s = .refused .badOffset) ∧
  ∀ s : State,
    let hostReads (a : Byte) (v : Word) : Prop := exec (.rd a) s = .next { s with reads := s.reads ++ [(a, v)] }
    hostReads 0x00 0 ∧ hostReads 0x04 (readReg .status s) ∧ hostReads 0x08 (readReg .config s) ∧
    hostReads 0x0C (readReg .offset s) ∧ hostReads 0x10 (readReg .byteCount s) ∧ hostReads 0x14 (readReg .clkKhz s) ∧
    hostReads 0x18 (readReg .timing s) ∧ hostReads 0x1C (readReg .chipId s) ∧ hostReads 0x20 (readReg .rxData s) ∧
    hostReads 0x24 (readReg .pins s) ∧ hostReads 0x28 (readReg .progress s) ∧ hostReads 0x2C (readReg .pollLimit s)

/-- The fields of the twelve register words, as sums of field values at the bit positions of R26, R27, R32 to R38, R40 to
R43 and the codes of R221; every other bit reads 0. PINS bit 4 is the model's free value for MISO (log 6). -/
def Obligations.RegisterWordsHoldTheirFields : Prop :=
  ∀ s : State,
    let code : Nat :=
      match s.result with
      | .ok => 0
      | .unsupported => 1
      | .wrongStreamMode => 2
      | .badArg => 3
      | .illegalCmd => 4
      | .sourceShort => 5
      | .timeout => 6
    let iface : Nat :=
      match s.iface with
      | .singleLane => 0
      | .dualLane => 1
      | .quadLane => 2
      | .twoWire => 3
    (readReg .cmd s).toNat = 0 ∧
    (readReg .status s).toNat = s.busy.toNat + 16 * code + 256 * s.errSticky.toNat + 512 * s.csActive.toNat ∧
    (readReg .config s).toNat = iface + 256 * (decide (s.proto = .series24)).toNat ∧
    (readReg .offset s).toNat = s.offset.toNat ∧
    (readReg .byteCount s).toNat = s.byteCount.toNat ∧
    (readReg .clkKhz s).toNat = s.clkKhz.toNat ∧
    (readReg .timing s).toNat = s.timing.half.toNat + 1024 * s.timing.bit.toNat + 1048576 * s.timing.byte.toNat ∧
    (readReg .chipId s).toNat =
      s.chipId.mfr.toNat + 256 * s.chipId.typ.toNat + 65536 * s.chipId.cap.toNat + 2147483648 * s.chipId.valid.toNat ∧
    (readReg .rxData s).toNat = s.rxData.toNat ∧
    (readReg .pins s).toNat =
      s.pins.sck.toNat + 2 * s.pins.mosi.toNat + 4 * s.pins.csN.toNat + 8 * s.pins.wpN.toNat +
        16 * (Config.freePinMiso s.reads.length).toNat ∧
    (readReg .progress s).toNat = s.progress.toNat ∧
    (readReg .pollLimit s).toNat = s.pollLimit.toNat

/-- R201: WR in the order of its pseudocode. An illegal offset is refused; a write while BUSY = 1 is refused; CONFIG, OFFSET,
BYTECOUNT and POLL_LIMIT store the value, masked as the rule says, and nothing else changes; a CMD write answers a next state
that differs in BUSY = 1 and SEQ = RUNNING(V, point) alone (StartCommand); a read-only register refuses. -/
def Obligations.HostWriteStoresOrStartsOrRefuses : Prop :=
  ∀ (a : Byte) (v : Word) (s : State),
    if a.toNat % 4 ≠ 0 ∨ a.toNat > 0x2C then exec (.wr a v) s = .refused .badOffset
    else if s.busy = true then exec (.wr a v) s = .refused .writeWhileBusy
    else if a = 0x00 then ∃ point, exec (.wr a v) s = .next { s with busy := true, seq := .running v point }
    else if a = 0x08 then
      ∃ i p, exec (.wr a v) s = .next { s with iface := i, proto := p } ∧
        readReg .config { s with iface := i, proto := p } = v &&& 0x00000103
    else if a = 0x0C then exec (.wr a v) s = .next { s with offset := v }
    else if a = 0x10 then
      ∃ n, exec (.wr a v) s = .next { s with byteCount := n } ∧
        readReg .byteCount { s with byteCount := n } = v &&& 0x1FFFFFFF
    else if a = 0x2C then exec (.wr a v) s = .next { s with pollLimit := v }
    else exec (.wr a v) s = .refused .readOnlyRegister

/-- R204: while BUSY = 1 no register write and no command has a step. -/
def Obligations.NoWriteWhileACommandRuns : Prop :=
  ∀ s : State, s.busy = true →
    (∀ (r : Reg) (v : Word), exec (.wr r.offsetOf v) s = .refused .writeWhileBusy) ∧
    ∀ c : Command, exec c.instr s = .refused .writeWhileBusy

/-- R205: an offset outside 0x00..0x2C or not a multiple of 4, an access that is not 32 bits wide, and a write of a read-only
register are refused. -/
def Obligations.IllegalAccessesAreRefused : Prop :=
  (∀ (a : Byte) (v : Word) (s : State), (a.toNat > 0x2C ∨ a.toNat % 4 ≠ 0) →
    exec (.rd a) s = .refused .badOffset ∧ exec (.wr a v) s = .refused .badOffset) ∧
  (∀ (a : HostAccess) (s : State), a.size ≠ 4 →
    step { s with host := { wait := 0, act := .access a } :: s.host } = .refused .accessWidth) ∧
  ∀ (r : Reg) (v : Word) (s : State), r ∈ [.status, .clkKhz, .timing, .chipId, .rxData, .pins, .progress] →
    s.busy = false → exec (.wr r.offsetOf v) s = .refused .readOnlyRegister

/-- R202: StartCommand in the step of the CMD write. A command's meaning is its CMD write and answers a next state with
BUSY = 1 and SEQ = RUNNING(V, point), nothing else changed; an illegal word and a reserved form run as the raise of
ILLEGAL_CMD or BAD_ARG, which the engine's next step completes with no other effect. -/
def Obligations.CmdWriteStartsTheCommand : Prop :=
  ∀ s : State, s.busy = false →
    (∀ c : Command, ∃ point,
      exec c.instr s = .next { s with busy := true, seq := .running (encodeCommand c) point } ∧
      exec (.wr 0x00 (encodeCommand c)) s = .next { s with busy := true, seq := .running (encodeCommand c) point }) ∧
    ∀ w : Word, ∀ r : Result,
      (decodeCommand w = .illegal ∧ r = .illegalCmd) ∨ (decodeCommand w = .reserved ∧ r = .badArg) →
      ∃ point,
        exec (.wr 0x00 w) s = .next { s with busy := true, seq := .running w point } ∧
        (s.host = [] →
          step { s with busy := true, seq := .running w point } =
            .next { s with result := r, errSticky := true, busy := false, seq := .idle })

/-- R206: the host may read any register in any state; the value is the register's value in that state, nothing but what the
host has read changes, and the engine's next step is the same step with or without the read. -/
def Obligations.HostReadsDisturbNothing : Prop :=
  ∀ (r : Reg) (s : State), ∃ t,
    exec (.rd r.offsetOf) s = .next t ∧
    t = { s with reads := s.reads ++ [(r.offsetOf, readReg r s)] } ∧
    ∀ u, engineTurn s = .next u → engineTurn t = .next { u with reads := t.reads }

/-- R208, R204, R205, R207: the machine takes a step exactly when the outside's due move keeps its duties; the engine, a
reset and a legal read always can. -/
def Obligations.StepAnswersExactlyWhenDutiesAreKept : Prop :=
  ∀ s : State, (∃ t, step s = .next t) ↔ dutyKept s = true

/-! ## The step -/

/-- The step runs the decoded instruction. A due access runs the instruction of its descriptor on the state without the move
(R108); a due CMD write runs the decoded command (R122, R202); the engine's frame line runs the frame's instruction on the
state without the line, one engine step less to wait before the outside's next move (log 1); and an engine step on any other
line performs that line. The placing of frames is the model's (log 13). -/
def Obligations.StepRunsTheDecodedInstruction : Prop :=
  (∀ (s : State) (a : HostAccess) (q : List HostMove),
    s.host = { wait := 0, act := .access a } :: q → a.size = 4 →
    step s = exec (decodeAccess a.descriptor a.data) { s with host := q }) ∧
  (∀ (s : State) (w : Word) (c : Command) (q : List HostMove),
    s.host = { wait := 0, act := .access (cmdWrite w) } :: q → decodeCommand w = .command c →
    step s = exec c.instr { s with host := q }) ∧
  (∀ (s : State) (cmd : Word) (f : Frame) (rest : List Line),
    s.seq = .running cmd (.wire f :: rest) → s.host = [] →
    step s = exec f.instr { s with seq := .running cmd rest }) ∧
  (∀ (s : State) (cmd : Word) (f : Frame) (rest : List Line) (k : Nat) (act : HostAct) (q : List HostMove),
    s.seq = .running cmd (.wire f :: rest) → s.host = { wait := k + 1, act := act } :: q →
    step s = exec f.instr { s with host := { wait := k, act := act } :: q, seq := .running cmd rest }) ∧
  ∀ (s : State) (cmd : Word) (l : Line) (rest : List Line),
    s.seq = .running cmd (l :: rest) → s.host = [] → step s = .next (perform l cmd rest s)

/-- An encoded instruction, placed where the step fetches, is the instruction the very next step runs: a command or an access
on the state as it was, a frame with the sequencer running (log 12, log 13). -/
def Obligations.PlacedInstructionRunsNext : Prop :=
  ∀ s : State, opcodesDistinct s.opcodes →
    (∀ c : Command, step (placeEncoded (encode s.opcodes c.instr) s) = exec c.instr s) ∧
    (∀ a : Byte, step (placeEncoded (encode s.opcodes (.rd a)) s) = exec (.rd a) s) ∧
    (∀ (a : Byte) (v : Word), step (placeEncoded (encode s.opcodes (.wr a v)) s) = exec (.wr a v) s) ∧
    ∀ (f : Frame) (cmd : Word) (rest : List Line), s.seq = .running cmd rest →
      step (placeEncoded (encode s.opcodes f.instr) s) = exec f.instr { s with busy := true }

/-- R14, R15, R83: a step adds at most one event, and pins, sink and source move only with the event that says so. -/
def Obligations.EveryChangeOfPinsAndStreamsIsAnEvent : Prop :=
  ∀ s t : State, step s = .next t → resetDue s = false →
    (t.trace = s.trace ∧ t.pins = s.pins ∧ t.sink = s.sink ∧ t.source = s.source ∧ t.device = s.device) ∨
    (∃ p v, t.trace = s.trace ++ [.write p v] ∧ t.pins = s.pins.set p v ∧ t.sink = s.sink ∧ t.source = s.source ∧
      t.device = s.device) ∨
    (∃ n, t.trace = s.trace ++ [.delay n] ∧ t.pins = s.pins ∧ t.sink = s.sink ∧ t.source = s.source ∧
      t.device = s.device) ∨
    (∃ b, t.trace = s.trace ++ [.sample b] ∧ (b, t.device) = s.device.next ∧ t.pins = s.pins ∧ t.sink = s.sink ∧
      t.source = s.source) ∨
    (∃ b, t.trace = s.trace ++ [.push b] ∧ t.sink = s.sink ++ [b] ∧ t.pins = s.pins ∧ t.source = s.source ∧
      t.device = s.device) ∨
    ∃ r, t.trace = s.trace ++ [.pull r] ∧ (r, t.source) = s.source.next ∧ t.pins = s.pins ∧ t.sink = s.sink ∧
      t.device = s.device

/-! ## Reset -/

/-- R250, R251 (and R47): a reset, whenever it comes, puts every piece of the block's state at its reset value in one step,
recorded as one event; MFR, TYPE, CAP and RXDATA take any value (R48), a running command ends with no completion result. The
machine's first state has the same values. `w` leaves the working registers open, which R47 does not specify (log 8, DESIGN
CHOICE). That the Device, the source, the sink, STREAM_MODE, the opcode parameters, the reads and the frames stay through a
reset, as `{ s with … }` says, is the model's choice and no rule's (log 9, DESIGN CHOICE). -/
def Obligations.ResetPutsEveryRegisterAtItsResetValue : Prop :=
  (∀ (s : State) (q : List HostMove), s.host = { wait := 0, act := .reset } :: q →
    ∃ (m t c r : Byte) (w : Work), step s = .next
      { s with
        host := q
        work := w
        pins := { sck := false, mosi := false, csN := true, wpN := false }
        busy := false, result := .ok, errSticky := false, csActive := false
        iface := .singleLane, proto := .series25
        offset := 0, byteCount := 0, clkKhz := 0
        timing := { half := 0, bit := 0, byte := 0 }
        chipId := { mfr := m, typ := t, cap := c, valid := false }
        rxData := r, progress := 0, pollLimit := 0
        seq := .idle
        trace := s.trace ++ [.reset] }) ∧
  ∃ (m t c r : Byte), State.reset =
    { State.reset with
      pins := { sck := false, mosi := false, csN := true, wpN := false }
      busy := false, result := .ok, errSticky := false, csActive := false
      iface := .singleLane, proto := .series25
      offset := 0, byteCount := 0, clkKhz := 0
      timing := { half := 0, bit := 0, byte := 0 }
      chipId := { mfr := m, typ := t, cap := c, valid := false }
      rxData := r, progress := 0, pollLimit := 0
      seq := .idle
      trace := [.reset] }

/-- R252: after reset the block waits, SEQ = IDLE, for a write to CMD: without a move of the outside every step leaves the
state as it is. -/
def Obligations.IdleBlockWaits : Prop :=
  ∀ s : State, s.seq = .idle → s.host = [] → Forever (fun t => t = s) s

/-! ## The transport -/

/-- R130: configureTiming, with its division written on natural numbers. -/
def Obligations.TimingFollowsTheTargetClock : Prop :=
  ∀ k : BitVec 16, k.toNat ≤ 1000 →
    let h := if k.toNat = 0 then 0 else max 1 (500 / k.toNat)
    (configureTiming k).half.toNat = h ∧ (configureTiming k).bit.toNat = h ∧ (configureTiming k).byte.toNat = h

/-- R138: NOP is the word 0x00000000; it completes with OK and changes nothing else. -/
def Obligations.NopCompletes : Prop :=
  decodeCommand 0x00000000 = .command .nop ∧
  ∀ s : State, Ready s → RunsTo .nop s { s with result := .ok }

/-- R139: INIT drives SCK, MOSI, CS_N and WP_N to their idle levels in that order, with no delay, clears CS_ACTIVE and
completes with OK, whatever CONFIG holds. -/
def Obligations.InitDrivesTheIdleLevels : Prop :=
  decodeCommand 0x00000001 = .command .init ∧
  ∀ s : State, Ready s →
    RunsTo .init s
      { s with
        pins := { sck := false, mosi := false, csN := true, wpN := false }
        csActive := false
        result := .ok
        trace := s.trace ++ [.write .sck false, .write .mosi false, .write .csN true, .write .wpN false] }

/-- R140: SET_CLOCK writes CLKKHZ and recomputes TIMING, with no pin event, or ends with BAD_ARG and changes neither. -/
def Obligations.SetClockRecomputesTiming : Prop :=
  (∀ k : BitVec 16, decodeCommand (BitVec.ofNat 32 (256 * k.toNat + 0x02)) = .command (.setClock k)) ∧
  ∀ (k : BitVec 16) (s : State), Ready s →
    (k.toNat > 1000 → RunsTo (.setClock k) s (failed .badArg s)) ∧
    (k.toNat ≤ 1000 → RunsTo (.setClock k) s { s with clkKhz := k, timing := configureTiming k, result := .ok })

/-- R141: SET_WP drives WP_N low to protect and high to unprotect, with no delay. -/
def Obligations.SetWpDrivesTheProtectLine : Prop :=
  decodeCommand 0x00000103 = .command (.setWp true) ∧ decodeCommand 0x00000003 = .command (.setWp false) ∧
  ∀ (p : Bool) (s : State), Ready s →
    RunsTo (.setWp p) s
      { s with
        pins := { s.pins with wpN := !p }
        result := .ok
        trace := s.trace ++ [.write .wpN (!p)] }

/-- R142, R143, R132, R133: CS_ASSERT drives CS_N low, sets CS_ACTIVE and waits T_BYTE; CS_DEASSERT drives it high, clears
CS_ACTIVE and waits T_BYTE; both whatever CS_N is before. With IFACE other than single-lane each is UNSUPPORTED; PROTO is not
checked. -/
def Obligations.SelectCommandsDriveTheSelectLine : Prop :=
  decodeCommand 0x00000010 = .command .csAssert ∧ decodeCommand 0x00000011 = .command .csDeassert ∧
  ∀ s : State, Ready s →
    (s.iface ≠ .singleLane →
      RunsTo .csAssert s (failed .unsupported s) ∧ RunsTo .csDeassert s (failed .unsupported s)) ∧
    (s.iface = .singleLane →
      RunsTo .csAssert s
        { s with
          pins := { s.pins with csN := false }
          csActive := true
          result := .ok
          trace := s.trace ++ [.write .csN false] ++ delayEvents s.timing.byte } ∧
      RunsTo .csDeassert s
        { s with
          pins := { s.pins with csN := true }
          csActive := false
          result := .ok
          trace := s.trace ++ [.write .csN true] ++ delayEvents s.timing.byte })

/-- R144, R134: TX_BYTE shifts out d[7], d[6], …, d[0] in that order, whatever CS_N is, and leaves MOSI at bit 0 and SCK low;
with IFACE other than single-lane it is UNSUPPORTED. -/
def Obligations.TxByteShiftsOutMsbFirst : Prop :=
  (∀ d : Byte, decodeCommand (BitVec.ofNat 32 (256 * d.toNat + 0x12)) = .command (.txByte d)) ∧
  ∀ (d : Byte) (s : State), Ready s →
    (s.iface ≠ .singleLane → RunsTo (.txByte d) s (failed .unsupported s)) ∧
    (s.iface = .singleLane →
      ∃ w, RunsTo (.txByte d) s
        { s with
          work := w
          pins := { s.pins with sck := false, mosi := d.getLsbD 0 }
          result := .ok
          trace := s.trace ++
            [d.getLsbD 7, d.getLsbD 6, d.getLsbD 5, d.getLsbD 4, d.getLsbD 3, d.getLsbD 2, d.getLsbD 1,
              d.getLsbD 0].flatMap (fun b => .write .mosi b :: pulseEvents s.timing) ++
            delayEvents s.timing.byte })

/-- R145, R135: RX_BYTE samples eight bits, most significant first, whatever the Device answers, writes the byte to RXDATA and
does not write MOSI; with IFACE other than single-lane it is UNSUPPORTED and RXDATA stays. -/
def Obligations.RxByteShiftsInMsbFirst : Prop :=
  decodeCommand 0x00000013 = .command .rxByte ∧
  ∀ s : State, Ready s →
    (s.iface ≠ .singleLane → RunsTo .rxByte s (failed .unsupported s)) ∧
    (s.iface = .singleLane →
      ∃ w, RunsTo .rxByte s
        { s with
          work := w
          pins := { s.pins with sck := false }
          device := (s.device.nextBits 8).2
          rxData := byteOfBits (s.device.nextBits 8).1
          result := .ok
          trace := s.trace ++ rxEvents s.timing (s.device.nextBits 8).1 })

/-- R146: MOSI changes only while SCK is low, in every state the invariant allows. -/
def Obligations.MosiChangesOnlyWhileSckIsLow : Prop :=
  ∀ s t : State, Inv s → step s = .next t → resetDue s = false → t.pins.mosi ≠ s.pins.mosi →
    s.pins.sck = false ∧ t.pins.sck = false

/-- R267, row by row, on the trace of a run that starts in a state of the invariant: with h = T_HALF, the delays each
instruction adds sum to the table's multiple of h. The frames' rows (Txn1, RDSR) are those of a frame that is the last thing
its command does. PROGRAM's and ranged ERASE's rows are summed over the chunks and sectors, one for each busy-wait of `polls`;
with `polls` of one busy-wait they are the table's rows. -/
def Obligations.DelayTable : Prop :=
  ∀ s : State, Inv s →
    let h := s.timing.half.toNat
    let n := s.byteCount.toNat
    (∀ cmd, s.host = [] → s.seq = .running cmd [] →
      Delays .wren s (27 * h) ∧ Delays .ce s (27 * h) ∧ Delays .rdsr s (52 * h)) ∧
    (Ready s → s.iface = .singleLane →
      Delays .csAssert s h ∧ Delays .csDeassert s h ∧ (∀ d, Delays (.txByte d) s (25 * h)) ∧ Delays .rxByte s (25 * h)) ∧
    (Ready s → configSupported s →
      Delays .identify s (102 * h) ∧
      (n ≤ 2 ^ 28 → s.streamMode = .write → Delays .read s ((102 + 25 * n) * h)) ∧
      (s.byteCount = 0 → Delays .erase s (54 * h)) ∧
      (∀ (p : List Byte) (d : Device), EndsReady p → pollsAllowed p.length s → s.device = d.answering p →
        Delays .busyWait s (52 * p.length * h)) ∧
      (∀ (data more : List Byte) (polls : List (List Byte)) (d : Device),
        s.streamMode = .read → n ≤ 2 ^ 28 → data.length = n → s.source.bytes = data ++ more →
        polls.length = (n + 255) / 256 → (∀ p ∈ polls, EndsReady p ∧ pollsAllowed p.length s) →
        s.device = d.answering polls.flatten →
        Delays .program s ((129 * polls.length + 25 * n + 52 * polls.flatten.length) * h)) ∧
      ∀ (polls : List (List Byte)) (d : Device),
        1 ≤ n → n ≤ 2 ^ 28 →
        polls.length = (s.offset.toNat % 4096 + n + 4095) / 4096 → (∀ p ∈ polls, EndsReady p ∧ pollsAllowed p.length s) →
        s.device = d.answering polls.flatten →
        Delays .erase s ((129 * polls.length + 52 * polls.flatten.length) * h))

/-! ## The engine's commands -/

/-- R223: with the configuration unsupported, the raw bus commands (IFACE) and the engine commands (IFACE and PROTO) end with
UNSUPPORTED before any event, and nothing but STATUS changes. -/
def Obligations.UnsupportedConfigurationTouchesNothing : Prop :=
  ∀ s : State, Ready s →
    (∀ i ∈ [Instr.csAssert, .csDeassert, .rxByte], s.iface ≠ .singleLane → RunsTo i s (failed .unsupported s)) ∧
    (∀ d, s.iface ≠ .singleLane → RunsTo (.txByte d) s (failed .unsupported s)) ∧
    ∀ i ∈ [Instr.identify, .read, .program, .erase, .busyWait],
      ¬ configSupported s → RunsTo i s (failed .unsupported s)

/-- R225: BAD_ARG for a reserved ARG bit, for SET_CLOCK above 1000 and for READ, PROGRAM and ERASE with BYTECOUNT above 2^28
(in the supported configuration: UNSUPPORTED comes first, R231); no register but STATUS changes. -/
def Obligations.BadArgTouchesNothing : Prop :=
  ∀ s : State, Ready s →
    (∀ w, decodeCommand w = .reserved → RunsTo (.wr 0x00 w) s (failed .badArg s)) ∧
    (∀ k : BitVec 16, k.toNat > 1000 → RunsTo (.setClock k) s (failed .badArg s)) ∧
    ∀ i ∈ [Instr.read, .program, .erase],
      configSupported s → s.byteCount.toNat > 2 ^ 28 → RunsTo i s (failed .badArg s)

/-- R224: WRONG_STREAM_MODE for PROGRAM without a source and READ without a sink, after the checks that come before it
(R231), and before any event. -/
def Obligations.WrongStreamModeTouchesNothing : Prop :=
  ∀ s : State, Ready s → configSupported s → s.byteCount.toNat ≤ 2 ^ 28 →
    (s.streamMode ≠ .read → RunsTo .program s (failed .wrongStreamMode s)) ∧
    (s.streamMode ≠ .write → RunsTo .read s (failed .wrongStreamMode s))

/-- R163: IDENTIFY, for any Device: one RDID frame, three bytes received, CHIPID written with them and VALID = 1. With an
unsupported configuration it is UNSUPPORTED and CHIPID stays. `frames` is the model's own history (log 20). -/
def Obligations.IdentifyReadsTheTriple : Prop :=
  decodeCommand 0x00000020 = .command .identify ∧
  ∀ s : State, Ready s →
    (¬ configSupported s → RunsTo .identify s (failed .unsupported s)) ∧
    (configSupported s →
      ∃ w b1 b2 b3 d, s.device.nextBytes 3 = ([b1, b2, b3], d) ∧
        RunsTo .identify s
          { s with
            work := w
            pins := busClosed (s.opcodes.rdid.getLsbD 0) s
            csActive := false
            device := d
            chipId := { mfr := byteOfBits b1, typ := byteOfBits b2, cap := byteOfBits b3, valid := true }
            result := .ok
            frames := s.frames ++ [.rdid]
            trace := s.trace ++ headerEvents s.opcodes s.timing .rdid ++ rxEvents s.timing b1 ++
              rxEvents s.timing b2 ++ rxEvents s.timing b3 ++ deassertEvents s.timing })

/-- R164: READ, for any Device and any OFFSET: its checks in order; then one frame at OFFSET mod 2^24 in which BYTECOUNT bytes
are received and each is pushed, byte k the k-th received, and PROGRESS ends at BYTECOUNT. -/
def Obligations.ReadCopiesByteCountBytes : Prop :=
  decodeCommand 0x00000021 = .command .read ∧
  ∀ s : State, Ready s →
    (¬ configSupported s → RunsTo .read s (failed .unsupported s)) ∧
    (configSupported s → s.byteCount.toNat > 2 ^ 28 → RunsTo .read s (failed .badArg s)) ∧
    (configSupported s → s.byteCount.toNat ≤ 2 ^ 28 → s.streamMode ≠ .write →
      RunsTo .read s (failed .wrongStreamMode s)) ∧
    (configSupported s → s.byteCount.toNat ≤ 2 ^ 28 → s.streamMode = .write →
      ∃ w, RunsTo .read s
        { s with
          work := w
          pins := busClosed (s.offset.getLsbD 0) s
          csActive := false
          device := (s.device.nextBytes s.byteCount.toNat).2
          sink := s.sink ++ (s.device.nextBytes s.byteCount.toNat).1.map byteOfBits
          progress := BitVec.ofNat 32 s.byteCount.toNat
          result := .ok
          frames := s.frames ++ [.readData (s.offset.extractLsb' 0 24)]
          trace := s.trace ++ headerEvents s.opcodes s.timing (.readData (s.offset.extractLsb' 0 24)) ++
            (s.device.nextBytes s.byteCount.toNat).1.flatMap (readByteEvents s.timing) ++ deassertEvents s.timing })

/-- R165, R166: PROGRAM when the source has the n = BYTECOUNT bytes and every busy-wait ends READY (its status bytes are any
that do): ceil(n / 256) WREN/PP pairs with the bytes in order, exactly n pulls, each pair's status reads, and PROGRESS = n.
For n = 0 there is no event at all, and CS_N and CS_ACTIVE stay as they are, also with a raw transaction open (log 23,
DEDUCED). -/
def Obligations.ProgramWritesTheSourceByPages : Prop :=
  decodeCommand 0x00000022 = .command .program ∧
  ∀ (s : State) (data more : List Byte) (polls : List (List Byte)) (d : Device),
    Ready s → configSupported s → s.streamMode = .read → s.byteCount.toNat ≤ 2 ^ 28 →
    data.length = s.byteCount.toNat → s.source.bytes = data ++ more →
    polls.length = (s.byteCount.toNat + 255) / 256 →
    (∀ p ∈ polls, EndsReady p ∧ pollsAllowed p.length s) →
    s.device = d.answering polls.flatten →
    ∃ w, RunsTo .program s
      { s with
        work := w
        pins := if s.byteCount = 0 then s.pins else busClosed (s.opcodes.rdsr.getLsbD 0) s
        csActive := if s.byteCount = 0 then s.csActive else false
        device := d
        source := { s.source with bytes := more }
        progress := BitVec.ofNat 32 s.byteCount.toNat
        result := .ok
        frames := s.frames ++ programFrames (s.offset.setWidth 33) polls
        trace := s.trace ++ programEvents s.opcodes s.timing (s.offset.setWidth 33) data polls }

/-- R166, R227, R231: PROGRAM when the source ends after m < n bytes: floor(m / 256) full pairs, one more pair with the other
bytes and one pull more, and the busy-wait of that pair; then SOURCE_SHORT with PROGRESS = m, or TIMEOUT when that busy-wait
reaches POLL_LIMIT. -/
def Obligations.ProgramReportsAShortSource : Prop :=
  ∀ (s : State) (data : List Byte) (polls : List (List Byte)) (last : List Byte) (d : Device) (r : Result),
    Ready s → configSupported s → s.streamMode = .read → s.byteCount.toNat ≤ 2 ^ 28 →
    data.length < s.byteCount.toNat → s.source.bytes = data → s.source.ended = true →
    polls.length = data.length / 256 →
    (∀ p ∈ polls, EndsReady p ∧ pollsAllowed p.length s) →
    ((EndsReady last ∧ pollsAllowed last.length s ∧ r = .sourceShort) ∨
      (s.pollLimit ≠ 0 ∧ last.length = s.pollLimit.toNat ∧ (∀ b ∈ last, b.getLsbD 0 = true) ∧ r = .timeout)) →
    s.device = d.answering (polls.flatten ++ last) →
    ∃ w, RunsTo .program s
      { s with
        work := w
        pins := busClosed (s.opcodes.rdsr.getLsbD 0) s
        csActive := false
        device := d
        source := { s.source with bytes := [] }
        progress := BitVec.ofNat 32 data.length
        result := r
        errSticky := true
        frames := s.frames ++ programFrames (s.offset.setWidth 33) (polls ++ [last])
        trace := s.trace ++
          programEvents s.opcodes s.timing (s.offset.setWidth 33) (data.take (256 * (data.length / 256))) polls ++
          chunkEvents s.opcodes s.timing (BitVec.ofNat 33 (s.offset.toNat + 256 * (data.length / 256)))
            (data.drop (256 * (data.length / 256))) [.pull none] last }

/-- R169: ERASE with BYTECOUNT = 0 is the whole-device erase: a WREN frame, a CE frame, no busy-wait, PROGRESS 0 and OK,
whatever OFFSET and STREAM_MODE are. -/
def Obligations.WholeDeviceErase : Prop :=
  decodeCommand 0x00000023 = .command .erase ∧
  ∀ s : State, Ready s → configSupported s → s.byteCount = 0 →
    ∃ w, RunsTo .erase s
      { s with
        work := w
        pins := busClosed (s.opcodes.ce.getLsbD 0) s
        csActive := false
        progress := 0
        result := .ok
        frames := s.frames ++ [.wren, .ce]
        trace := s.trace ++ plainFrameEvents s.opcodes s.timing .wren ++ plainFrameEvents s.opcodes s.timing .ce }

/-- R170, R171: ERASE with BYTECOUNT ≥ 1 when every busy-wait ends READY: ceil((e - s) / 4096) sector erases from OFFSET
rounded down, each preceded by WREN and followed by its status reads, and PROGRESS counts them. -/
def Obligations.RangedEraseCoversTheRange : Prop :=
  decodeCommand 0x00000023 = .command .erase ∧
  ∀ (s : State) (polls : List (List Byte)) (d : Device),
    Ready s → configSupported s → 1 ≤ s.byteCount.toNat → s.byteCount.toNat ≤ 2 ^ 28 →
    let base := s.offset.toNat - s.offset.toNat % 4096
    let sectors := (s.offset.toNat + s.byteCount.toNat - base + 4095) / 4096
    polls.length = sectors →
    (∀ p ∈ polls, EndsReady p ∧ pollsAllowed p.length s) →
    s.device = d.answering polls.flatten →
    ∃ w, RunsTo .erase s
      { s with
        work := w
        pins := busClosed (s.opcodes.rdsr.getLsbD 0) s
        csActive := false
        device := d
        progress := BitVec.ofNat 32 sectors
        result := .ok
        frames := s.frames ++ eraseFrames (BitVec.ofNat 33 base) polls
        trace := s.trace ++ eraseEvents s.opcodes s.timing (BitVec.ofNat 33 base) polls }

/-- R172: BUSY_WAIT on a Device that answers busy N times and then ready makes N + 1 status reads, with POLL_LIMIT 0 or above
N, and PROGRESS says so. Bits 7:1 of a status byte have no say (R162). -/
def Obligations.BusyWaitCountsItsStatusReads : Prop :=
  decodeCommand 0x00000024 = .command .busyWait ∧
  ∀ (s : State) (busy : List Byte) (ready : Byte) (d : Device),
    Ready s → configSupported s → (∀ b ∈ busy, b.getLsbD 0 = true) → ready.getLsbD 0 = false →
    (s.pollLimit = 0 ∨ busy.length < s.pollLimit.toNat) →
    s.device = d.answering (busy ++ [ready]) →
    ∃ w, RunsTo .busyWait s
      { s with
        work := w
        pins := busClosed (s.opcodes.rdsr.getLsbD 0) s
        csActive := false
        device := d
        progress := saturated (busy.length + 1)
        result := .ok
        frames := s.frames ++ List.replicate (busy.length + 1) .rdsr
        trace := s.trace ++ pollEvents s.opcodes s.timing (busy ++ [ready]) }

/-- R228: TIMEOUT, when POLL_LIMIT = L ≠ 0 and L status reads all show WIP = 1: BUSY_WAIT after its L reads; ranged ERASE
after the sector in progress; PROGRAM after the chunk in progress, with the sectors or chunks before it done. -/
def Obligations.PollLimitEndsABusyWait : Prop :=
  ∀ (s : State) (stuck : List Byte) (d : Device),
    Ready s → configSupported s → s.pollLimit ≠ 0 → stuck.length = s.pollLimit.toNat →
    (∀ b ∈ stuck, b.getLsbD 0 = true) →
    (s.device = d.answering stuck →
      ∃ w, RunsTo .busyWait s
        { s with
          work := w
          pins := busClosed (s.opcodes.rdsr.getLsbD 0) s
          csActive := false
          device := d
          progress := s.pollLimit
          result := .timeout
          errSticky := true
          frames := s.frames ++ List.replicate stuck.length .rdsr
          trace := s.trace ++ pollEvents s.opcodes s.timing stuck }) ∧
    (∀ polls : List (List Byte),
      let base := s.offset.toNat - s.offset.toNat % 4096
      1 ≤ s.byteCount.toNat → s.byteCount.toNat ≤ 2 ^ 28 →
      base + 4096 * polls.length < s.offset.toNat + s.byteCount.toNat →
      (∀ p ∈ polls, EndsReady p ∧ pollsAllowed p.length s) →
      s.device = d.answering (polls.flatten ++ stuck) →
      ∃ w, RunsTo .erase s
        { s with
          work := w
          pins := busClosed (s.opcodes.rdsr.getLsbD 0) s
          csActive := false
          device := d
          progress := BitVec.ofNat 32 (polls.length + 1)
          result := .timeout
          errSticky := true
          frames := s.frames ++ eraseFrames (BitVec.ofNat 33 base) (polls ++ [stuck])
          trace := s.trace ++ eraseEvents s.opcodes s.timing (BitVec.ofNat 33 base) (polls ++ [stuck]) }) ∧
    ∀ (polls : List (List Byte)) (data more : List Byte),
      s.streamMode = .read → s.byteCount.toNat ≤ 2 ^ 28 → 256 * polls.length < s.byteCount.toNat →
      data.length = min s.byteCount.toNat (256 * (polls.length + 1)) → s.source.bytes = data ++ more →
      (∀ p ∈ polls, EndsReady p ∧ pollsAllowed p.length s) →
      s.device = d.answering (polls.flatten ++ stuck) →
      ∃ w, RunsTo .program s
        { s with
          work := w
          pins := busClosed (s.opcodes.rdsr.getLsbD 0) s
          csActive := false
          device := d
          source := { s.source with bytes := more }
          progress := BitVec.ofNat 32 data.length
          result := .timeout
          errSticky := true
          frames := s.frames ++ programFrames (s.offset.setWidth 33) (polls ++ [stuck])
          trace := s.trace ++ programEvents s.opcodes s.timing (s.offset.setWidth 33) data (polls ++ [stuck]) }

/-- R162: the three outcomes of one pass of BusyWaitLoop, after the status byte is in: POLLS and, in BUSY_WAIT, PROGRESS count
it; then READY on bit 0 clear, TIMEOUT when POLL_LIMIT reads are made, else one status read more. Two things here are the
model's and not R162's: that POLLS stays at 2^32 - 1 once there (`saturated`; log 14, DEDUCED), and that the count and the two
tests are one step and the raise the next (log 3, DEDUCED). -/
def Obligations.OnePassOfTheBusyWaitLoop : Prop :=
  ∀ (s : State) (cmd : Word) (count : Bool) (rest : List Line),
    s.host = [] → s.seq = .running cmd (.polled count :: rest) →
    let p := saturated (s.work.polls.toNat + 1)
    let counted := { s with work := { s.work with polls := p }, progress := if count then p else s.progress }
    (s.work.shift.getLsbD 0 = false → step s = .next { counted with seq := .running cmd rest }) ∧
    (s.work.shift.getLsbD 0 = true → s.pollLimit ≠ 0 → s.pollLimit.toNat ≤ p.toNat →
      ∃ q, step s = .next { counted with seq := q } ∧
        step { counted with seq := q } =
          .next { counted with result := .timeout, errSticky := true, busy := false, seq := .idle }) ∧
    (s.work.shift.getLsbD 0 = true → (s.pollLimit = 0 ∨ p.toNat < s.pollLimit.toNat) →
      step s = .next { counted with seq := .running cmd (.wire .rdsr :: .polled count :: rest) })

/-- R229: with POLL_LIMIT = 0, a busy-wait whose status reads all show WIP = 1, on any Device that answers so, runs for ever, in
BUSY_WAIT and wherever the loop stands in a command: no result is written and BUSY stays 1. -/
def Obligations.StuckDeviceHangsTheEngine : Prop :=
  ∀ s : State, s.host = [] → s.pollLimit = 0 → s.device.alwaysBusy →
    (s.busy = false → s.seq = .idle → configSupported s →
      ∃ u, exec .busyWait s = .next u ∧
        Forever (fun t => t.busy = true ∧ t.result = s.result ∧ t.errSticky = s.errSticky) u) ∧
    ∀ (cmd : Word) (count : Bool) (rest : List Line), s.busy = true →
      s.seq = .running cmd (.wire .rdsr :: .polled count :: rest) →
      Forever (fun t => t.busy = true ∧ t.result = s.result ∧ t.errSticky = s.errSticky) s

/-- R176: with POLL_LIMIT set, every command ends, whatever the Device and the source answer. -/
def Obligations.EveryCommandEndsUnderAPollLimit : Prop :=
  ∀ (c : Command) (s : State), Ready s → s.pollLimit ≠ 0 →
    ∃ t, RunsTo c.instr s t ∧ t.busy = false ∧ t.seq = .idle

/-- R178 (and R255): from an engine command's CMD write on, whatever its outcome, only CHIPID (in IDENTIFY), PROGRESS, STATUS,
the pins other than WP_N, and the environment's and the engine's own state change. -/
def Obligations.EngineCommandsWriteNothingElse : Prop :=
  ∀ (c : Command) (s u t : State), c ∈ [Command.identify, .read, .program, .erase, .busyWait] → Ready s →
    exec c.instr s = .next u → Reaches u t →
    t = { s with
          pins := { t.pins with wpN := s.pins.wpN }
          busy := t.busy, result := t.result, errSticky := t.errSticky, csActive := t.csActive
          chipId := if c = .identify then t.chipId else s.chipId
          progress := t.progress
          seq := t.seq, work := t.work
          device := t.device, source := t.source, sink := t.sink, frames := t.frames, trace := t.trace }

/-! ## The wire frames as instructions -/

/-- R112, R114, R115: the WREN, SE and CE frames. The block drives CS_N low, sends the opcode and, for SE, the three address
bytes, and drives CS_N high; the lines of the command around it and the working registers but SHIFT are as they were. That a
frame is an instruction of its own is log 13 (DESIGN CHOICE), and that its bytes pass through SHIFT is log 17 (DEDUCED); so
too in the statements below on the other frames. -/
def Obligations.PlainFramesSendTheirHeader : Prop :=
  ∀ (f : Frame) (s : State) (cmd : Word) (rest : List Line),
    (f = .wren ∨ f = .ce ∨ ∃ a, f = .se a) → s.host = [] → s.seq = .running cmd rest →
    ∃ u last, exec f.instr s = .next u ∧ (f.header s.opcodes).getLast? = some last ∧ Reaches u
      { s with
        work := { s.work with shift := last }
        pins := busClosed (last.getLsbD 0) s
        csActive := false
        frames := s.frames ++ [f]
        trace := s.trace ++ plainFrameEvents s.opcodes s.timing f }

/-- The BE frame, sent like the others. No engine command sends it, and its shape is general knowledge that R119 marks so
(log 13, PRESUMED). -/
def Obligations.BlockEraseFrameSendsItsHeader : Prop :=
  ∀ (a : WireAddr) (s : State) (cmd : Word) (rest : List Line), s.host = [] → s.seq = .running cmd rest →
    ∃ u, exec (.be a) s = .next u ∧ Reaches u
      { s with
        work := { s.work with shift := a.extractLsb' 0 8 }
        pins := busClosed (a.getLsbD 0) s
        csActive := false
        frames := s.frames ++ [.be a]
        trace := s.trace ++ plainFrameEvents s.opcodes s.timing (.be a) }

/-- R110: the RDID frame sends OPC_RDID and receives three bytes in order (as an instruction: log 13; m, t, c and SHIFT:
log 17). -/
def Obligations.RdidFrameReceivesThreeBytes : Prop :=
  ∀ (s : State) (cmd : Word) (rest : List Line), s.host = [] → s.seq = .running cmd rest →
    ∃ u b1 b2 b3 d, s.device.nextBytes 3 = ([b1, b2, b3], d) ∧ exec .rdid s = .next u ∧
      Reaches u
        { s with
          work :=
            { s.work with shift := byteOfBits b3, m := byteOfBits b1, t := byteOfBits b2, c := byteOfBits b3 }
          pins := busClosed (s.opcodes.rdid.getLsbD 0) s
          csActive := false
          device := d
          frames := s.frames ++ [.rdid]
          trace := s.trace ++ headerEvents s.opcodes s.timing .rdid ++ rxEvents s.timing b1 ++ rxEvents s.timing b2 ++
            rxEvents s.timing b3 ++ deassertEvents s.timing }

/-- R111: the READ frame sends OPC_READ and the three address bytes and receives BYTECOUNT bytes, each pushed and counted in
PROGRESS (R164, R42; as an instruction: log 13; SHIFT: log 17). -/
def Obligations.ReadFrameReceivesByteCountBytes : Prop :=
  ∀ (a : WireAddr) (s : State) (cmd : Word) (rest : List Line), s.host = [] → s.seq = .running cmd rest →
    ∃ u last,
      exec (.readData a) s = .next u ∧
      (a.extractLsb' 0 8 :: (s.device.nextBytes s.byteCount.toNat).1.map byteOfBits).getLast? = some last ∧ Reaches u
      { s with
        work := { s.work with shift := last, i := s.byteCount }
        pins := busClosed (a.getLsbD 0) s
        csActive := false
        device := (s.device.nextBytes s.byteCount.toNat).2
        sink := s.sink ++ (s.device.nextBytes s.byteCount.toNat).1.map byteOfBits
        progress := saturated (s.progress.toNat + s.byteCount.toNat)
        frames := s.frames ++ [.readData a]
        trace := s.trace ++ headerEvents s.opcodes s.timing (.readData a) ++
          (s.device.nextBytes s.byteCount.toNat).1.flatMap (readByteEvents s.timing) ++ deassertEvents s.timing }

/-- R113, R165: the PP frame sends OPC_PP, the three address bytes and the CHUNK data bytes pulled from the source, or those
there are before end-of-input, each counted in PROGRESS. Of the working registers only SHIFT, N and EXH change: ADDR, REMAIN
and CHUNK stay, and EXH says whether the source ended (as an instruction: log 13; SHIFT: log 17). -/
def Obligations.PageProgramFrameSendsTheChunk : Prop :=
  ∀ (a : WireAddr) (s : State) (cmd : Word) (rest : List Line) (data more : List Byte),
    s.host = [] → s.seq = .running cmd rest → s.source.bytes = data ++ more →
    (data.length = s.work.chunk.toNat ∨ (data.length < s.work.chunk.toNat ∧ more = [] ∧ s.source.ended = true)) →
    ∃ u last, exec (.pp a) s = .next u ∧ (Frame.header s.opcodes (.pp a) ++ data).getLast? = some last ∧ Reaches u
      { s with
        work :=
          { s.work with
            shift := last
            n := BitVec.ofNat 9 data.length
            exh := decide (data.length < s.work.chunk.toNat) }
        pins := busClosed (last.getLsbD 0) s
        csActive := false
        source := { s.source with bytes := more }
        progress := saturated (s.progress.toNat + data.length)
        frames := s.frames ++ [.pp a]
        trace := s.trace ++ headerEvents s.opcodes s.timing (.pp a) ++ data.flatMap (sendByteEvents s.timing) ++
          (if data.length = s.work.chunk.toNat then [] else [.pull none]) ++ deassertEvents s.timing }

/-- R116: the RDSR frame sends OPC_RDSR and receives one status byte, left in SHIFT for the test of bit 0. That the frame is an
instruction of its own is log 13 (DESIGN CHOICE), and that the status byte stands in SHIFT is log 17 (DEDUCED). -/
def Obligations.StatusFrameReceivesOneByte : Prop :=
  ∀ (s : State) (cmd : Word) (rest : List Line), s.host = [] → s.seq = .running cmd rest →
    ∃ u, exec .rdsr s = .next u ∧ Reaches u
      { s with
        work := { s.work with shift := byteOfBits (s.device.nextBits 8).1 }
        pins := busClosed (s.opcodes.rdsr.getLsbD 0) s
        csActive := false
        device := (s.device.nextBits 8).2
        frames := s.frames ++ [.rdsr]
        trace := s.trace ++ statusReadEvents s.opcodes s.timing (s.device.nextBits 8).1 }

/-- R117, R75: the three address bytes of a frame are the address's bits 23:16, 15:8 and 7:0 in that order, and an engine
address is sent mod 2^24. The clause on BE rests on the frame R119 marks as general knowledge (log 13, PRESUMED); the engine
sends no address with it. -/
def Obligations.AddressBytesAreBigEndian : Prop :=
  ∀ (o : Config.Opcodes) (a : BitVec 33) (f : WireAddr → Frame), f ∈ [Frame.readData, .pp, .se, .be] →
    (f (wireAddr a)).header o =
      [(f (wireAddr a)).opcode o, BitVec.ofNat 8 (a.toNat / 65536), BitVec.ofNat 8 (a.toNat / 256),
        BitVec.ofNat 8 a.toNat] ∧
    (wireAddr a).toNat = a.toNat % 2 ^ 24

/-! ## Status -/

/-- R222: a command's end writes RESULT, ERR_STICKY, BUSY and SEQ and nothing else. -/
def Obligations.CompletionWritesStatusOnly : Prop :=
  ∀ s t : State, step s = .next t → resetDue s = false → s.seq ≠ .idle → t.seq = .idle →
    t = { s with
          result := t.result
          errSticky := s.errSticky || t.result != .ok
          busy := false
          seq := .idle
          host := t.host }

/-- R28, R29, R30: RESULT changes only in the step in which a command ends, which is the step that clears BUSY; ERR_STICKY is
set by an end with RESULT other than OK and cleared by reset alone. -/
def Obligations.ResultAndStickyChangeOnlyAtCompletion : Prop :=
  ∀ s t : State, Inv s → step s = .next t → resetDue s = false →
    ((t.result ≠ s.result ∨ (s.busy = true ∧ t.busy = false)) → s.busy = true ∧ t.busy = false ∧ t.seq = .idle) ∧
    (t.errSticky = true ↔ s.errSticky = true ∨ (s.busy = true ∧ t.busy = false ∧ t.result ≠ .ok))

/-- R177, R233: a command that ends with TIMEOUT or SOURCE_SHORT ends with CS_N high, in every state the invariant allows. That
no engine command ends with CS_N = 0, R177's last sentence, is not claimed: with a raw transaction open, one that makes no pin
event does, by R160 and R165 (log 23, DEDUCED). -/
def Obligations.LateErrorsLeaveTheBusDeselected : Prop :=
  ∀ s t : State, Inv s → step s = .next t → s.busy = true → t.busy = false →
    (t.result = .timeout ∨ t.result = .sourceShort) → t.pins.csN = true ∧ t.csActive = false

/-- R84: after a pull that gives end-of-input every pull gives it, and no step takes the source out of that state. -/
def Obligations.EndOfInputIsSticky : Prop :=
  (∀ q : Source, q.next.1 = none → q.next.2.next = (none, q.next.2)) ∧
  ∀ s t : State, step s = .next t → s.source.next = (none, s.source) → t.source = s.source

/-! ## Invariants -/

/-- The reset state meets both invariants (R47, R250). -/
def Obligations.ResetMeetsTheInvariants : Prop := Inv State.reset ∧ WrenInv State.reset

/-- Every step keeps the invariant: SEQ idle exactly when BUSY = 0 (R23), CS_ACTIVE and CS_N together (R31), TIMING from
CLKKHZ (R37), CLKKHZ at most 1000 (R36), ERR_STICKY behind every error (R30), and the bus levels sound for what comes next
(R146, R177). -/
def Obligations.EveryStepKeepsTheInvariant : Prop :=
  ∀ s t : State, Inv s → step s = .next t → Inv t

/-- R173: in every run, each PP, SE, CE (and BE) frame the engine opens stands right after a WREN frame. -/
def Obligations.EveryStepKeepsTheWriteEnableDiscipline : Prop :=
  ∀ s t : State, WrenInv s → step s = .next t → WrenInv t

/-! ## The assembler level -/

/-- R120, R121: the pseudo-instructions' expansions, each command inside with its own WAITIDLE; and WAITIDLE, which reads
STATUS and is done when BUSY = 0, and while BUSY = 1 stays and reads again later, the number of engine steps in between being
the model's (log 18). -/
def Obligations.PseudoInstructionsExpand : Prop :=
  (∀ (g : Nat) (o : Config.Opcodes) (b : Byte) (v : Word) (i : BitVec 2) (p : BitVec 1),
    assemble g o [.protect] = assemble g o [.command (.setWp true)] ∧
    assemble g o [.unprotect] = assemble g o [.command (.setWp false)] ∧
    assemble g o [.ldoff v] = assemble g o [.wr .offset v] ∧
    assemble g o [.ldcnt v] = assemble g o [.wr .byteCount v] ∧
    assemble g o [.cfg i p] = assemble g o [.wr .config (BitVec.ofNat 32 (256 * p.toNat + i.toNat))] ∧
    assemble g o [.xfer b] = assemble g o [.command .csAssert, .command (.txByte b), .command .csDeassert] ∧
    assemble g o [.rawWren] = assemble g o [.xfer o.wren] ∧
    assemble g o [.rawRdsr] =
      assemble g o [.command .csAssert, .command (.txByte o.rdsr), .command .rxByte, .command .csDeassert, .rd .rxData] ∧
    ∀ c, assemble g o [.command c] = assemble g o [.wr .cmd (encodeCommand c), .waitIdle]) ∧
  ∀ (s : State) (gap : Nat) (q : List HostMove), s.host = { wait := 0, act := .waitIdle gap } :: q →
    (s.busy = false → step s = .next { s with host := q, reads := s.reads ++ [(0x04, readReg .status s)] }) ∧
    (s.busy = true → step s = .next
      { s with
        host := { wait := gap + 1, act := .waitIdle gap } :: q
        reads := s.reads ++ [(0x04, readReg .status s)] })

/-! ## The stream port -/

/-- R207: a change of the stream port's mode takes effect in its step, and nothing else changes, while no command runs; while
one runs it is refused. -/
def Obligations.StreamModeChangesOnlyWhileIdle : Prop :=
  ∀ (m : StreamMode) (s : State) (q : List HostMove), s.host = { wait := 0, act := .streamMode m } :: q →
    (s.busy = false → step s = .next { s with host := q, streamMode := m }) ∧
    (s.busy = true → step s = .refused .streamModeWhileBusy)

end
end

