-- ==== Sys2Proof/Laws/State.lean ====
section
/-! SUPPORT. For each update of the state, one lemma per field, so that no later proof unfolds a record update. -/

namespace Sys2Proof.Machine

/-- The state with the sequencer at a given point. -/
def State.atPoint (cmd : Word) (point : List Line) (s : State) : State := { s with seq := .running cmd point }

/-! ### emit -/

@[simp] theorem emit_pins (e : Event) (s : State) : (emit e s).pins = s.pins := rfl
@[simp] theorem emit_busy (e : Event) (s : State) : (emit e s).busy = s.busy := rfl
@[simp] theorem emit_result (e : Event) (s : State) : (emit e s).result = s.result := rfl
@[simp] theorem emit_errSticky (e : Event) (s : State) : (emit e s).errSticky = s.errSticky := rfl
@[simp] theorem emit_csActive (e : Event) (s : State) : (emit e s).csActive = s.csActive := rfl
@[simp] theorem emit_iface (e : Event) (s : State) : (emit e s).iface = s.iface := rfl
@[simp] theorem emit_proto (e : Event) (s : State) : (emit e s).proto = s.proto := rfl
@[simp] theorem emit_offset (e : Event) (s : State) : (emit e s).offset = s.offset := rfl
@[simp] theorem emit_byteCount (e : Event) (s : State) : (emit e s).byteCount = s.byteCount := rfl
@[simp] theorem emit_clkKhz (e : Event) (s : State) : (emit e s).clkKhz = s.clkKhz := rfl
@[simp] theorem emit_timing (e : Event) (s : State) : (emit e s).timing = s.timing := rfl
@[simp] theorem emit_chipId (e : Event) (s : State) : (emit e s).chipId = s.chipId := rfl
@[simp] theorem emit_rxData (e : Event) (s : State) : (emit e s).rxData = s.rxData := rfl
@[simp] theorem emit_progress (e : Event) (s : State) : (emit e s).progress = s.progress := rfl
@[simp] theorem emit_pollLimit (e : Event) (s : State) : (emit e s).pollLimit = s.pollLimit := rfl
@[simp] theorem emit_seq (e : Event) (s : State) : (emit e s).seq = s.seq := rfl
@[simp] theorem emit_work (e : Event) (s : State) : (emit e s).work = s.work := rfl
@[simp] theorem emit_opcodes (e : Event) (s : State) : (emit e s).opcodes = s.opcodes := rfl
@[simp] theorem emit_streamMode (e : Event) (s : State) : (emit e s).streamMode = s.streamMode := rfl
@[simp] theorem emit_host (e : Event) (s : State) : (emit e s).host = s.host := rfl
@[simp] theorem emit_reads (e : Event) (s : State) : (emit e s).reads = s.reads := rfl
@[simp] theorem emit_device (e : Event) (s : State) : (emit e s).device = s.device := rfl
@[simp] theorem emit_source (e : Event) (s : State) : (emit e s).source = s.source := rfl
@[simp] theorem emit_sink (e : Event) (s : State) : (emit e s).sink = s.sink := rfl
@[simp] theorem emit_frames (e : Event) (s : State) : (emit e s).frames = s.frames := rfl
@[simp] theorem emit_trace (e : Event) (s : State) : (emit e s).trace = s.trace ++ [e] := rfl

/-! ### drive -/

@[simp] theorem drive_pins (p : Pin) (v : Level) (s : State) : (drive p v s).pins = s.pins.set p v := rfl
@[simp] theorem drive_busy (p : Pin) (v : Level) (s : State) : (drive p v s).busy = s.busy := rfl
@[simp] theorem drive_result (p : Pin) (v : Level) (s : State) : (drive p v s).result = s.result := rfl
@[simp] theorem drive_errSticky (p : Pin) (v : Level) (s : State) : (drive p v s).errSticky = s.errSticky := rfl
@[simp] theorem drive_csActive (p : Pin) (v : Level) (s : State) : (drive p v s).csActive = csActiveAfter p v s.csActive := rfl
@[simp] theorem drive_iface (p : Pin) (v : Level) (s : State) : (drive p v s).iface = s.iface := rfl
@[simp] theorem drive_proto (p : Pin) (v : Level) (s : State) : (drive p v s).proto = s.proto := rfl
@[simp] theorem drive_offset (p : Pin) (v : Level) (s : State) : (drive p v s).offset = s.offset := rfl
@[simp] theorem drive_byteCount (p : Pin) (v : Level) (s : State) : (drive p v s).byteCount = s.byteCount := rfl
@[simp] theorem drive_clkKhz (p : Pin) (v : Level) (s : State) : (drive p v s).clkKhz = s.clkKhz := rfl
@[simp] theorem drive_timing (p : Pin) (v : Level) (s : State) : (drive p v s).timing = s.timing := rfl
@[simp] theorem drive_chipId (p : Pin) (v : Level) (s : State) : (drive p v s).chipId = s.chipId := rfl
@[simp] theorem drive_rxData (p : Pin) (v : Level) (s : State) : (drive p v s).rxData = s.rxData := rfl
@[simp] theorem drive_progress (p : Pin) (v : Level) (s : State) : (drive p v s).progress = s.progress := rfl
@[simp] theorem drive_pollLimit (p : Pin) (v : Level) (s : State) : (drive p v s).pollLimit = s.pollLimit := rfl
@[simp] theorem drive_seq (p : Pin) (v : Level) (s : State) : (drive p v s).seq = s.seq := rfl
@[simp] theorem drive_work (p : Pin) (v : Level) (s : State) : (drive p v s).work = s.work := rfl
@[simp] theorem drive_opcodes (p : Pin) (v : Level) (s : State) : (drive p v s).opcodes = s.opcodes := rfl
@[simp] theorem drive_streamMode (p : Pin) (v : Level) (s : State) : (drive p v s).streamMode = s.streamMode := rfl
@[simp] theorem drive_host (p : Pin) (v : Level) (s : State) : (drive p v s).host = s.host := rfl
@[simp] theorem drive_reads (p : Pin) (v : Level) (s : State) : (drive p v s).reads = s.reads := rfl
@[simp] theorem drive_device (p : Pin) (v : Level) (s : State) : (drive p v s).device = s.device := rfl
@[simp] theorem drive_source (p : Pin) (v : Level) (s : State) : (drive p v s).source = s.source := rfl
@[simp] theorem drive_sink (p : Pin) (v : Level) (s : State) : (drive p v s).sink = s.sink := rfl
@[simp] theorem drive_frames (p : Pin) (v : Level) (s : State) : (drive p v s).frames = s.frames := rfl
@[simp] theorem drive_trace (p : Pin) (v : Level) (s : State) : (drive p v s).trace = s.trace ++ [.write p v] := rfl

/-! ### complete -/

@[simp] theorem complete_pins (c : Result) (s : State) : (complete c s).pins = s.pins := rfl
@[simp] theorem complete_busy (c : Result) (s : State) : (complete c s).busy = false := rfl
@[simp] theorem complete_result (c : Result) (s : State) : (complete c s).result = c := rfl
@[simp] theorem complete_errSticky (c : Result) (s : State) : (complete c s).errSticky = stickyAfter c s.errSticky := rfl
@[simp] theorem complete_csActive (c : Result) (s : State) : (complete c s).csActive = s.csActive := rfl
@[simp] theorem complete_iface (c : Result) (s : State) : (complete c s).iface = s.iface := rfl
@[simp] theorem complete_proto (c : Result) (s : State) : (complete c s).proto = s.proto := rfl
@[simp] theorem complete_offset (c : Result) (s : State) : (complete c s).offset = s.offset := rfl
@[simp] theorem complete_byteCount (c : Result) (s : State) : (complete c s).byteCount = s.byteCount := rfl
@[simp] theorem complete_clkKhz (c : Result) (s : State) : (complete c s).clkKhz = s.clkKhz := rfl
@[simp] theorem complete_timing (c : Result) (s : State) : (complete c s).timing = s.timing := rfl
@[simp] theorem complete_chipId (c : Result) (s : State) : (complete c s).chipId = s.chipId := rfl
@[simp] theorem complete_rxData (c : Result) (s : State) : (complete c s).rxData = s.rxData := rfl
@[simp] theorem complete_progress (c : Result) (s : State) : (complete c s).progress = s.progress := rfl
@[simp] theorem complete_pollLimit (c : Result) (s : State) : (complete c s).pollLimit = s.pollLimit := rfl
@[simp] theorem complete_seq (c : Result) (s : State) : (complete c s).seq = .idle := rfl
@[simp] theorem complete_work (c : Result) (s : State) : (complete c s).work = s.work := rfl
@[simp] theorem complete_opcodes (c : Result) (s : State) : (complete c s).opcodes = s.opcodes := rfl
@[simp] theorem complete_streamMode (c : Result) (s : State) : (complete c s).streamMode = s.streamMode := rfl
@[simp] theorem complete_host (c : Result) (s : State) : (complete c s).host = s.host := rfl
@[simp] theorem complete_reads (c : Result) (s : State) : (complete c s).reads = s.reads := rfl
@[simp] theorem complete_device (c : Result) (s : State) : (complete c s).device = s.device := rfl
@[simp] theorem complete_source (c : Result) (s : State) : (complete c s).source = s.source := rfl
@[simp] theorem complete_sink (c : Result) (s : State) : (complete c s).sink = s.sink := rfl
@[simp] theorem complete_frames (c : Result) (s : State) : (complete c s).frames = s.frames := rfl
@[simp] theorem complete_trace (c : Result) (s : State) : (complete c s).trace = s.trace := rfl

/-! ### started -/

@[simp] theorem started_pins (w : Word) (l : List Line) (s : State) : (started w l s).pins = s.pins := rfl
@[simp] theorem started_busy (w : Word) (l : List Line) (s : State) : (started w l s).busy = true := rfl
@[simp] theorem started_result (w : Word) (l : List Line) (s : State) : (started w l s).result = s.result := rfl
@[simp] theorem started_errSticky (w : Word) (l : List Line) (s : State) : (started w l s).errSticky = s.errSticky := rfl
@[simp] theorem started_csActive (w : Word) (l : List Line) (s : State) : (started w l s).csActive = s.csActive := rfl
@[simp] theorem started_iface (w : Word) (l : List Line) (s : State) : (started w l s).iface = s.iface := rfl
@[simp] theorem started_proto (w : Word) (l : List Line) (s : State) : (started w l s).proto = s.proto := rfl
@[simp] theorem started_offset (w : Word) (l : List Line) (s : State) : (started w l s).offset = s.offset := rfl
@[simp] theorem started_byteCount (w : Word) (l : List Line) (s : State) : (started w l s).byteCount = s.byteCount := rfl
@[simp] theorem started_clkKhz (w : Word) (l : List Line) (s : State) : (started w l s).clkKhz = s.clkKhz := rfl
@[simp] theorem started_timing (w : Word) (l : List Line) (s : State) : (started w l s).timing = s.timing := rfl
@[simp] theorem started_chipId (w : Word) (l : List Line) (s : State) : (started w l s).chipId = s.chipId := rfl
@[simp] theorem started_rxData (w : Word) (l : List Line) (s : State) : (started w l s).rxData = s.rxData := rfl
@[simp] theorem started_progress (w : Word) (l : List Line) (s : State) : (started w l s).progress = s.progress := rfl
@[simp] theorem started_pollLimit (w : Word) (l : List Line) (s : State) : (started w l s).pollLimit = s.pollLimit := rfl
@[simp] theorem started_seq (w : Word) (l : List Line) (s : State) : (started w l s).seq = .running w l := rfl
@[simp] theorem started_work (w : Word) (l : List Line) (s : State) : (started w l s).work = s.work := rfl
@[simp] theorem started_opcodes (w : Word) (l : List Line) (s : State) : (started w l s).opcodes = s.opcodes := rfl
@[simp] theorem started_streamMode (w : Word) (l : List Line) (s : State) : (started w l s).streamMode = s.streamMode := rfl
@[simp] theorem started_host (w : Word) (l : List Line) (s : State) : (started w l s).host = s.host := rfl
@[simp] theorem started_reads (w : Word) (l : List Line) (s : State) : (started w l s).reads = s.reads := rfl
@[simp] theorem started_device (w : Word) (l : List Line) (s : State) : (started w l s).device = s.device := rfl
@[simp] theorem started_source (w : Word) (l : List Line) (s : State) : (started w l s).source = s.source := rfl
@[simp] theorem started_sink (w : Word) (l : List Line) (s : State) : (started w l s).sink = s.sink := rfl
@[simp] theorem started_frames (w : Word) (l : List Line) (s : State) : (started w l s).frames = s.frames := rfl
@[simp] theorem started_trace (w : Word) (l : List Line) (s : State) : (started w l s).trace = s.trace := rfl

/-! ### atPoint -/

@[simp] theorem atPoint_pins (w : Word) (l : List Line) (s : State) : (s.atPoint w l).pins = s.pins := rfl
@[simp] theorem atPoint_busy (w : Word) (l : List Line) (s : State) : (s.atPoint w l).busy = s.busy := rfl
@[simp] theorem atPoint_result (w : Word) (l : List Line) (s : State) : (s.atPoint w l).result = s.result := rfl
@[simp] theorem atPoint_errSticky (w : Word) (l : List Line) (s : State) : (s.atPoint w l).errSticky = s.errSticky := rfl
@[simp] theorem atPoint_csActive (w : Word) (l : List Line) (s : State) : (s.atPoint w l).csActive = s.csActive := rfl
@[simp] theorem atPoint_iface (w : Word) (l : List Line) (s : State) : (s.atPoint w l).iface = s.iface := rfl
@[simp] theorem atPoint_proto (w : Word) (l : List Line) (s : State) : (s.atPoint w l).proto = s.proto := rfl
@[simp] theorem atPoint_offset (w : Word) (l : List Line) (s : State) : (s.atPoint w l).offset = s.offset := rfl
@[simp] theorem atPoint_byteCount (w : Word) (l : List Line) (s : State) : (s.atPoint w l).byteCount = s.byteCount := rfl
@[simp] theorem atPoint_clkKhz (w : Word) (l : List Line) (s : State) : (s.atPoint w l).clkKhz = s.clkKhz := rfl
@[simp] theorem atPoint_timing (w : Word) (l : List Line) (s : State) : (s.atPoint w l).timing = s.timing := rfl
@[simp] theorem atPoint_chipId (w : Word) (l : List Line) (s : State) : (s.atPoint w l).chipId = s.chipId := rfl
@[simp] theorem atPoint_rxData (w : Word) (l : List Line) (s : State) : (s.atPoint w l).rxData = s.rxData := rfl
@[simp] theorem atPoint_progress (w : Word) (l : List Line) (s : State) : (s.atPoint w l).progress = s.progress := rfl
@[simp] theorem atPoint_pollLimit (w : Word) (l : List Line) (s : State) : (s.atPoint w l).pollLimit = s.pollLimit := rfl
@[simp] theorem atPoint_seq (w : Word) (l : List Line) (s : State) : (s.atPoint w l).seq = .running w l := rfl
@[simp] theorem atPoint_work (w : Word) (l : List Line) (s : State) : (s.atPoint w l).work = s.work := rfl
@[simp] theorem atPoint_opcodes (w : Word) (l : List Line) (s : State) : (s.atPoint w l).opcodes = s.opcodes := rfl
@[simp] theorem atPoint_streamMode (w : Word) (l : List Line) (s : State) : (s.atPoint w l).streamMode = s.streamMode := rfl
@[simp] theorem atPoint_host (w : Word) (l : List Line) (s : State) : (s.atPoint w l).host = s.host := rfl
@[simp] theorem atPoint_reads (w : Word) (l : List Line) (s : State) : (s.atPoint w l).reads = s.reads := rfl
@[simp] theorem atPoint_device (w : Word) (l : List Line) (s : State) : (s.atPoint w l).device = s.device := rfl
@[simp] theorem atPoint_source (w : Word) (l : List Line) (s : State) : (s.atPoint w l).source = s.source := rfl
@[simp] theorem atPoint_sink (w : Word) (l : List Line) (s : State) : (s.atPoint w l).sink = s.sink := rfl
@[simp] theorem atPoint_frames (w : Word) (l : List Line) (s : State) : (s.atPoint w l).frames = s.frames := rfl
@[simp] theorem atPoint_trace (w : Word) (l : List Line) (s : State) : (s.atPoint w l).trace = s.trace := rfl

/-! ### openFrame -/

@[simp] theorem openFrame_pins (f : Frame) (s : State) : (openFrame f s).pins = s.pins.set .csN false := rfl
@[simp] theorem openFrame_busy (f : Frame) (s : State) : (openFrame f s).busy = s.busy := rfl
@[simp] theorem openFrame_result (f : Frame) (s : State) : (openFrame f s).result = s.result := rfl
@[simp] theorem openFrame_errSticky (f : Frame) (s : State) : (openFrame f s).errSticky = s.errSticky := rfl
@[simp] theorem openFrame_csActive (f : Frame) (s : State) : (openFrame f s).csActive = true := rfl
@[simp] theorem openFrame_iface (f : Frame) (s : State) : (openFrame f s).iface = s.iface := rfl
@[simp] theorem openFrame_proto (f : Frame) (s : State) : (openFrame f s).proto = s.proto := rfl
@[simp] theorem openFrame_offset (f : Frame) (s : State) : (openFrame f s).offset = s.offset := rfl
@[simp] theorem openFrame_byteCount (f : Frame) (s : State) : (openFrame f s).byteCount = s.byteCount := rfl
@[simp] theorem openFrame_clkKhz (f : Frame) (s : State) : (openFrame f s).clkKhz = s.clkKhz := rfl
@[simp] theorem openFrame_timing (f : Frame) (s : State) : (openFrame f s).timing = s.timing := rfl
@[simp] theorem openFrame_chipId (f : Frame) (s : State) : (openFrame f s).chipId = s.chipId := rfl
@[simp] theorem openFrame_rxData (f : Frame) (s : State) : (openFrame f s).rxData = s.rxData := rfl
@[simp] theorem openFrame_progress (f : Frame) (s : State) : (openFrame f s).progress = s.progress := rfl
@[simp] theorem openFrame_pollLimit (f : Frame) (s : State) : (openFrame f s).pollLimit = s.pollLimit := rfl
@[simp] theorem openFrame_seq (f : Frame) (s : State) : (openFrame f s).seq = s.seq := rfl
@[simp] theorem openFrame_work (f : Frame) (s : State) : (openFrame f s).work = s.work := rfl
@[simp] theorem openFrame_opcodes (f : Frame) (s : State) : (openFrame f s).opcodes = s.opcodes := rfl
@[simp] theorem openFrame_streamMode (f : Frame) (s : State) : (openFrame f s).streamMode = s.streamMode := rfl
@[simp] theorem openFrame_host (f : Frame) (s : State) : (openFrame f s).host = s.host := rfl
@[simp] theorem openFrame_reads (f : Frame) (s : State) : (openFrame f s).reads = s.reads := rfl
@[simp] theorem openFrame_device (f : Frame) (s : State) : (openFrame f s).device = s.device := rfl
@[simp] theorem openFrame_source (f : Frame) (s : State) : (openFrame f s).source = s.source := rfl
@[simp] theorem openFrame_sink (f : Frame) (s : State) : (openFrame f s).sink = s.sink := rfl
@[simp] theorem openFrame_frames (f : Frame) (s : State) : (openFrame f s).frames = s.frames ++ [f] := rfl
@[simp] theorem openFrame_trace (f : Frame) (s : State) : (openFrame f s).trace = s.trace ++ [.write .csN false] := rfl

/-! ### shiftOut -/

@[simp] theorem shiftOut_pins (v : Byte) (i : Fin 8) (s : State) : (shiftOut v i s).pins = s.pins.set .mosi (v.getLsbD i.val) := rfl
@[simp] theorem shiftOut_busy (v : Byte) (i : Fin 8) (s : State) : (shiftOut v i s).busy = s.busy := rfl
@[simp] theorem shiftOut_result (v : Byte) (i : Fin 8) (s : State) : (shiftOut v i s).result = s.result := rfl
@[simp] theorem shiftOut_errSticky (v : Byte) (i : Fin 8) (s : State) : (shiftOut v i s).errSticky = s.errSticky := rfl
@[simp] theorem shiftOut_csActive (v : Byte) (i : Fin 8) (s : State) : (shiftOut v i s).csActive = s.csActive := rfl
@[simp] theorem shiftOut_iface (v : Byte) (i : Fin 8) (s : State) : (shiftOut v i s).iface = s.iface := rfl
@[simp] theorem shiftOut_proto (v : Byte) (i : Fin 8) (s : State) : (shiftOut v i s).proto = s.proto := rfl
@[simp] theorem shiftOut_offset (v : Byte) (i : Fin 8) (s : State) : (shiftOut v i s).offset = s.offset := rfl
@[simp] theorem shiftOut_byteCount (v : Byte) (i : Fin 8) (s : State) : (shiftOut v i s).byteCount = s.byteCount := rfl
@[simp] theorem shiftOut_clkKhz (v : Byte) (i : Fin 8) (s : State) : (shiftOut v i s).clkKhz = s.clkKhz := rfl
@[simp] theorem shiftOut_timing (v : Byte) (i : Fin 8) (s : State) : (shiftOut v i s).timing = s.timing := rfl
@[simp] theorem shiftOut_chipId (v : Byte) (i : Fin 8) (s : State) : (shiftOut v i s).chipId = s.chipId := rfl
@[simp] theorem shiftOut_rxData (v : Byte) (i : Fin 8) (s : State) : (shiftOut v i s).rxData = s.rxData := rfl
@[simp] theorem shiftOut_progress (v : Byte) (i : Fin 8) (s : State) : (shiftOut v i s).progress = s.progress := rfl
@[simp] theorem shiftOut_pollLimit (v : Byte) (i : Fin 8) (s : State) : (shiftOut v i s).pollLimit = s.pollLimit := rfl
@[simp] theorem shiftOut_seq (v : Byte) (i : Fin 8) (s : State) : (shiftOut v i s).seq = s.seq := rfl
@[simp] theorem shiftOut_work (v : Byte) (i : Fin 8) (s : State) : (shiftOut v i s).work = { s.work with shift := v } := rfl
@[simp] theorem shiftOut_opcodes (v : Byte) (i : Fin 8) (s : State) : (shiftOut v i s).opcodes = s.opcodes := rfl
@[simp] theorem shiftOut_streamMode (v : Byte) (i : Fin 8) (s : State) : (shiftOut v i s).streamMode = s.streamMode := rfl
@[simp] theorem shiftOut_host (v : Byte) (i : Fin 8) (s : State) : (shiftOut v i s).host = s.host := rfl
@[simp] theorem shiftOut_reads (v : Byte) (i : Fin 8) (s : State) : (shiftOut v i s).reads = s.reads := rfl
@[simp] theorem shiftOut_device (v : Byte) (i : Fin 8) (s : State) : (shiftOut v i s).device = s.device := rfl
@[simp] theorem shiftOut_source (v : Byte) (i : Fin 8) (s : State) : (shiftOut v i s).source = s.source := rfl
@[simp] theorem shiftOut_sink (v : Byte) (i : Fin 8) (s : State) : (shiftOut v i s).sink = s.sink := rfl
@[simp] theorem shiftOut_frames (v : Byte) (i : Fin 8) (s : State) : (shiftOut v i s).frames = s.frames := rfl
@[simp] theorem shiftOut_trace (v : Byte) (i : Fin 8) (s : State) : (shiftOut v i s).trace = s.trace ++ [.write .mosi (v.getLsbD i.val)] := rfl

/-! ### shiftIn -/

@[simp] theorem shiftIn_pins (i : Fin 8) (s : State) : (shiftIn i s).pins = s.pins := rfl
@[simp] theorem shiftIn_busy (i : Fin 8) (s : State) : (shiftIn i s).busy = s.busy := rfl
@[simp] theorem shiftIn_result (i : Fin 8) (s : State) : (shiftIn i s).result = s.result := rfl
@[simp] theorem shiftIn_errSticky (i : Fin 8) (s : State) : (shiftIn i s).errSticky = s.errSticky := rfl
@[simp] theorem shiftIn_csActive (i : Fin 8) (s : State) : (shiftIn i s).csActive = s.csActive := rfl
@[simp] theorem shiftIn_iface (i : Fin 8) (s : State) : (shiftIn i s).iface = s.iface := rfl
@[simp] theorem shiftIn_proto (i : Fin 8) (s : State) : (shiftIn i s).proto = s.proto := rfl
@[simp] theorem shiftIn_offset (i : Fin 8) (s : State) : (shiftIn i s).offset = s.offset := rfl
@[simp] theorem shiftIn_byteCount (i : Fin 8) (s : State) : (shiftIn i s).byteCount = s.byteCount := rfl
@[simp] theorem shiftIn_clkKhz (i : Fin 8) (s : State) : (shiftIn i s).clkKhz = s.clkKhz := rfl
@[simp] theorem shiftIn_timing (i : Fin 8) (s : State) : (shiftIn i s).timing = s.timing := rfl
@[simp] theorem shiftIn_chipId (i : Fin 8) (s : State) : (shiftIn i s).chipId = s.chipId := rfl
@[simp] theorem shiftIn_rxData (i : Fin 8) (s : State) : (shiftIn i s).rxData = s.rxData := rfl
@[simp] theorem shiftIn_progress (i : Fin 8) (s : State) : (shiftIn i s).progress = s.progress := rfl
@[simp] theorem shiftIn_pollLimit (i : Fin 8) (s : State) : (shiftIn i s).pollLimit = s.pollLimit := rfl
@[simp] theorem shiftIn_seq (i : Fin 8) (s : State) : (shiftIn i s).seq = s.seq := rfl
@[simp] theorem shiftIn_work (i : Fin 8) (s : State) : (shiftIn i s).work = { s.work with shift := shiftedIn i s.work.shift s.device.next.1 } := rfl
@[simp] theorem shiftIn_opcodes (i : Fin 8) (s : State) : (shiftIn i s).opcodes = s.opcodes := rfl
@[simp] theorem shiftIn_streamMode (i : Fin 8) (s : State) : (shiftIn i s).streamMode = s.streamMode := rfl
@[simp] theorem shiftIn_host (i : Fin 8) (s : State) : (shiftIn i s).host = s.host := rfl
@[simp] theorem shiftIn_reads (i : Fin 8) (s : State) : (shiftIn i s).reads = s.reads := rfl
@[simp] theorem shiftIn_device (i : Fin 8) (s : State) : (shiftIn i s).device = s.device.next.2 := rfl
@[simp] theorem shiftIn_source (i : Fin 8) (s : State) : (shiftIn i s).source = s.source := rfl
@[simp] theorem shiftIn_sink (i : Fin 8) (s : State) : (shiftIn i s).sink = s.sink := rfl
@[simp] theorem shiftIn_frames (i : Fin 8) (s : State) : (shiftIn i s).frames = s.frames := rfl
@[simp] theorem shiftIn_trace (i : Fin 8) (s : State) : (shiftIn i s).trace = s.trace ++ [.sample s.device.next.1] := rfl

/-! ### pushByte -/

@[simp] theorem pushByte_pins (s : State) : (pushByte s).pins = s.pins := rfl
@[simp] theorem pushByte_busy (s : State) : (pushByte s).busy = s.busy := rfl
@[simp] theorem pushByte_result (s : State) : (pushByte s).result = s.result := rfl
@[simp] theorem pushByte_errSticky (s : State) : (pushByte s).errSticky = s.errSticky := rfl
@[simp] theorem pushByte_csActive (s : State) : (pushByte s).csActive = s.csActive := rfl
@[simp] theorem pushByte_iface (s : State) : (pushByte s).iface = s.iface := rfl
@[simp] theorem pushByte_proto (s : State) : (pushByte s).proto = s.proto := rfl
@[simp] theorem pushByte_offset (s : State) : (pushByte s).offset = s.offset := rfl
@[simp] theorem pushByte_byteCount (s : State) : (pushByte s).byteCount = s.byteCount := rfl
@[simp] theorem pushByte_clkKhz (s : State) : (pushByte s).clkKhz = s.clkKhz := rfl
@[simp] theorem pushByte_timing (s : State) : (pushByte s).timing = s.timing := rfl
@[simp] theorem pushByte_chipId (s : State) : (pushByte s).chipId = s.chipId := rfl
@[simp] theorem pushByte_rxData (s : State) : (pushByte s).rxData = s.rxData := rfl
@[simp] theorem pushByte_progress (s : State) : (pushByte s).progress = s.progress := rfl
@[simp] theorem pushByte_pollLimit (s : State) : (pushByte s).pollLimit = s.pollLimit := rfl
@[simp] theorem pushByte_seq (s : State) : (pushByte s).seq = s.seq := rfl
@[simp] theorem pushByte_work (s : State) : (pushByte s).work = s.work := rfl
@[simp] theorem pushByte_opcodes (s : State) : (pushByte s).opcodes = s.opcodes := rfl
@[simp] theorem pushByte_streamMode (s : State) : (pushByte s).streamMode = s.streamMode := rfl
@[simp] theorem pushByte_host (s : State) : (pushByte s).host = s.host := rfl
@[simp] theorem pushByte_reads (s : State) : (pushByte s).reads = s.reads := rfl
@[simp] theorem pushByte_device (s : State) : (pushByte s).device = s.device := rfl
@[simp] theorem pushByte_source (s : State) : (pushByte s).source = s.source := rfl
@[simp] theorem pushByte_sink (s : State) : (pushByte s).sink = s.sink ++ [s.work.shift] := rfl
@[simp] theorem pushByte_frames (s : State) : (pushByte s).frames = s.frames := rfl
@[simp] theorem pushByte_trace (s : State) : (pushByte s).trace = s.trace ++ [.push s.work.shift] := rfl

/-! ### pullByte -/

@[simp] theorem pullByte_pins (s : State) : (pullByte s).pins = s.pins := rfl
@[simp] theorem pullByte_busy (s : State) : (pullByte s).busy = s.busy := rfl
@[simp] theorem pullByte_result (s : State) : (pullByte s).result = s.result := rfl
@[simp] theorem pullByte_errSticky (s : State) : (pullByte s).errSticky = s.errSticky := rfl
@[simp] theorem pullByte_csActive (s : State) : (pullByte s).csActive = s.csActive := rfl
@[simp] theorem pullByte_iface (s : State) : (pullByte s).iface = s.iface := rfl
@[simp] theorem pullByte_proto (s : State) : (pullByte s).proto = s.proto := rfl
@[simp] theorem pullByte_offset (s : State) : (pullByte s).offset = s.offset := rfl
@[simp] theorem pullByte_byteCount (s : State) : (pullByte s).byteCount = s.byteCount := rfl
@[simp] theorem pullByte_clkKhz (s : State) : (pullByte s).clkKhz = s.clkKhz := rfl
@[simp] theorem pullByte_timing (s : State) : (pullByte s).timing = s.timing := rfl
@[simp] theorem pullByte_chipId (s : State) : (pullByte s).chipId = s.chipId := rfl
@[simp] theorem pullByte_rxData (s : State) : (pullByte s).rxData = s.rxData := rfl
@[simp] theorem pullByte_progress (s : State) : (pullByte s).progress = s.progress := rfl
@[simp] theorem pullByte_pollLimit (s : State) : (pullByte s).pollLimit = s.pollLimit := rfl
@[simp] theorem pullByte_seq (s : State) : (pullByte s).seq = s.seq := rfl
@[simp] theorem pullByte_work (s : State) : (pullByte s).work = s.work.pulled s.source.next.1 := rfl
@[simp] theorem pullByte_opcodes (s : State) : (pullByte s).opcodes = s.opcodes := rfl
@[simp] theorem pullByte_streamMode (s : State) : (pullByte s).streamMode = s.streamMode := rfl
@[simp] theorem pullByte_host (s : State) : (pullByte s).host = s.host := rfl
@[simp] theorem pullByte_reads (s : State) : (pullByte s).reads = s.reads := rfl
@[simp] theorem pullByte_device (s : State) : (pullByte s).device = s.device := rfl
@[simp] theorem pullByte_source (s : State) : (pullByte s).source = s.source.next.2 := rfl
@[simp] theorem pullByte_sink (s : State) : (pullByte s).sink = s.sink := rfl
@[simp] theorem pullByte_frames (s : State) : (pullByte s).frames = s.frames := rfl
@[simp] theorem pullByte_trace (s : State) : (pullByte s).trace = s.trace ++ [.pull s.source.next.1] := rfl

end Sys2Proof.Machine
end

