-- ==== Sys2Proof/Laws/Run.lean ====
section
/-! SUPPORT. How runs compose, and what one engine step does when the outside makes no move: the lemmas that later proofs cite instead of unfolding `step`. -/

namespace Sys2Proof.Machine

/-! ### Runs -/

theorem Reaches.refl (s : State) : Reaches s s := ⟨0, rfl⟩

theorem runFor_succ {s t : State} (h : step s = .next t) (n : Nat) : runFor (n + 1) s = runFor n t := by
  simp only [runFor, h]

theorem Reaches.head {s t u : State} (h : step s = .next t) (r : Reaches t u) : Reaches s u := by
  obtain ⟨n, hn⟩ := r
  exact ⟨n + 1, by rw [runFor_succ h]; exact hn⟩

theorem Reaches.one {s t : State} (h : step s = .next t) : Reaches s t := .head h (.refl t)

theorem runFor_add {n m : Nat} {s t : State} (h : runFor n s = .next t) : runFor (n + m) s = runFor m t := by
  induction n generalizing s with
  | zero =>
    rw [Nat.zero_add]
    simp only [runFor, Host.Outcome.next.injEq] at h
    rw [h]
  | succ n ih =>
    rw [Nat.add_right_comm]
    simp only [runFor] at h ⊢
    split at h
    · exact ih h
    · cases h
    · cases h

theorem core_run_of_next (M : Host.Core) {n : Nat} {s t : M.State} (h : M.step s = .next t) :
    M.run (n + 1) s = M.run n t := by
  simp only [Host.Core.run, h]

theorem core_run_of_fault (M : Host.Core) {n : Nat} {s : M.State} {r : M.Fault} (h : M.step s = .fault r) :
    M.run (n + 1) s = .fault r := by
  simp only [Host.Core.run, h]

theorem core_run_of_refused (M : Host.Core) {n : Nat} {s : M.State} {r : M.Refusal} (h : M.step s = .refused r) :
    M.run (n + 1) s = .refused r := by
  simp only [Host.Core.run, h]

/-- `runFor` is the host's own run of the machine. -/
theorem runFor_eq_core_run (n : Nat) (s : State) : runFor n s = Host.Core.run Sys2Proof.core n s := by
  induction n generalizing s with
  | zero => rfl
  | succ n ih =>
    rw [runFor]
    split
    · rename_i t h
      exact (ih t).trans (core_run_of_next Sys2Proof.core h).symm
    · rename_i r h
      exact (core_run_of_fault Sys2Proof.core h).symm
    · rename_i r h
      exact (core_run_of_refused Sys2Proof.core h).symm

theorem Reaches.trans {s t u : State} (a : Reaches s t) (b : Reaches t u) : Reaches s u := by
  obtain ⟨n, hn⟩ := a
  obtain ⟨m, hm⟩ := b
  exact ⟨n + m, by rw [runFor_add hn]; exact hm⟩

/-! ### One engine step -/

theorem step_no_host {s : State} (h : s.host = []) : step s = engineTurn s := by
  unfold step turn
  rw [h]

theorem exec_frame (f : Frame) (s : State) : exec f.instr s = sendFrame f s := by
  cases f <;> rfl

theorem effect_seq (l : Line) (s : State) (q : Seq) : effect l { s with seq := q } = { effect l s with seq := q } := by
  cases l <;> rfl

theorem expand_seq (l : Line) (s : State) (q : Seq) : expand l { s with seq := q } = expand l s := by
  cases l <;> rfl

theorem raises_seq (l : Line) (s : State) (q : Seq) : raises l { s with seq := q } = raises l s := by
  cases l <;> rfl

theorem perform_seq (l : Line) (cmd : Word) (rest : List Line) (s : State) (q : Seq) :
    perform l cmd rest { s with seq := q } = perform l cmd rest s := by
  unfold perform
  rw [raises_seq, effect_seq]
  split
  · rfl
  · simp only [expand_seq]

/-- Whatever the line, an engine step performs it. -/
theorem engineTurn_line {s : State} {cmd : Word} {l : Line} {rest : List Line} (h : s.seq = .running cmd (l :: rest)) :
    engineTurn s = .next (perform l cmd rest s) := by
  unfold engineTurn
  rw [h]
  split
  · rename_i heq; cases heq
  · rename_i heq; cases heq
  · rename_i f _ heq
    cases heq
    rw [exec_frame]
    simp only [sendFrame, perform_seq]
  · rename_i heq; cases heq; rfl

theorem engineTurn_finish {s : State} {cmd : Word} (h : s.seq = .running cmd []) :
    engineTurn s = .next (complete .ok s) := by
  unfold engineTurn
  rw [h]

theorem engineTurn_idle {s : State} (h : s.seq = .idle) : engineTurn s = .next s := by
  unfold engineTurn
  rw [h]

/-- A line that does not raise: its effect, then its expansion before the rest. -/
theorem perform_of_not_raises {l : Line} {s : State} (h : raises l s = none) (cmd : Word) (rest : List Line) :
    perform l cmd rest s = (effect l s).atPoint cmd (expand l (effect l s) ++ rest) := by
  unfold perform
  rw [h]
  rfl

theorem perform_of_raises {l : Line} {s : State} {c : Result} (h : raises l s = some c) (cmd : Word) (rest : List Line) :
    perform l cmd rest s = complete c s := by
  unfold perform
  rw [h]

/-- An engine step never changes what the outside will do. -/
theorem effect_host (l : Line) (s : State) : (effect l s).host = s.host := by
  cases l <;> simp only [effect, drive_host, shiftOut_host, emit_host, shiftIn_host, openFrame_host, pushByte_host, pullByte_host]

theorem reaches_line {s : State} (hs : s.host = []) {l : Line} (cmd : Word) (rest : List Line)
    (h : raises l s = none) :
    Reaches (s.atPoint cmd (l :: rest)) ((effect l s).atPoint cmd (expand l (effect l s) ++ rest)) := by
  apply Reaches.one
  rw [step_no_host (by simpa using hs), engineTurn_line (atPoint_seq cmd (l :: rest) s)]
  unfold State.atPoint
  rw [perform_seq, perform_of_not_raises h]
  rfl

theorem reaches_raise {s : State} (hs : s.host = []) {l : Line} (cmd : Word) (rest : List Line) {c : Result}
    (h : raises l s = some c) : Reaches (s.atPoint cmd (l :: rest)) (complete c s) := by
  apply Reaches.one
  rw [step_no_host (by simpa using hs), engineTurn_line (atPoint_seq cmd (l :: rest) s)]
  unfold State.atPoint
  rw [perform_seq, perform_of_raises h]

theorem reaches_finish {s : State} (hs : s.host = []) (cmd : Word) : Reaches (s.atPoint cmd []) (complete .ok s) := by
  apply Reaches.one
  rw [step_no_host (by simpa using hs), engineTurn_finish (atPoint_seq cmd [] s)]
  rfl

/-! ### Straight lines -/

/-- A line that never raises and never puts lines in. -/
def Line.straight : Line → Bool
  | .drive _ _ => true
  | .shiftOut _ _ => true
  | .delay _ => true
  | .shiftIn _ => true
  | .latch _ => true
  | .writeChipId => true
  | .writeRxData => true
  | .writeClock _ => true
  | .clearProgress => true
  | .push => true
  | .countSector => true
  | .beginPoll => true
  | .wire _ => false
  | .beginRead => false
  | .countRead => false
  | .beginProgram => false
  | .beginData => false
  | .pull => false
  | .countSent => false
  | .nextChunk => false
  | .beginErase => false
  | .nextSector => false
  | .polled _ => false
  | .raise _ => false

/-- The effects of straight lines one after the other. -/
def effects (ls : List Line) (s : State) : State := ls.foldl (fun t l => effect l t) s

@[simp] theorem effects_nil (s : State) : effects [] s = s := rfl
@[simp] theorem effects_cons (l : Line) (ls : List Line) (s : State) :
    effects (l :: ls) s = effects ls (effect l s) := rfl
@[simp] theorem effects_append (a b : List Line) (s : State) : effects (a ++ b) s = effects b (effects a s) := by
  simp [effects]

theorem effects_host (ls : List Line) (s : State) : (effects ls s).host = s.host := by
  induction ls generalizing s with
  | nil => rfl
  | cons l ls ih => rw [effects_cons, ih, effect_host]

theorem straight_raises {l : Line} (h : l.straight = true) (s : State) : raises l s = none := by
  cases l <;> first | rfl | cases h

theorem straight_expand {l : Line} (h : l.straight = true) (s : State) : expand l s = [] := by
  cases l <;> first | rfl | cases h

/-- Straight lines are performed one after the other, with no other line between them. -/
theorem reaches_straight {ls : List Line} (hl : ls.all Line.straight = true) {s : State} (hs : s.host = [])
    (cmd : Word) (rest : List Line) :
    Reaches (s.atPoint cmd (ls ++ rest)) ((effects ls s).atPoint cmd rest) := by
  induction ls generalizing s with
  | nil => exact .refl _
  | cons l ls ih =>
    rw [List.all_cons, Bool.and_eq_true] at hl
    refine Reaches.trans (reaches_line hs cmd (ls ++ rest) (straight_raises hl.1 s)) ?_
    rw [straight_expand hl.1, List.nil_append]
    exact ih hl.2 (by rw [effect_host]; exact hs)

end Sys2Proof.Machine
end

