-- ==== Sys2Proof/Laws/Effect.lean ====
section
/-! SUPPORT. What each primitive of the transport does to the state, said once as one record update: delays, the clock pulse, TxByte, RxByte, AssertSelect and DeassertSelect. -/

namespace Sys2Proof.Machine

/-! ### Delays and the clock pulse -/

theorem delayLines_straight (n : BitVec 10) : (delayLines n).all Line.straight = true := by
  unfold delayLines
  split <;> rfl

theorem effects_delayLines (n : BitVec 10) (s : State) :
    effects (delayLines n) s = { s with trace := s.trace ++ delayEvents n } := by
  unfold delayLines delayEvents
  split
  · simp
  · rfl

theorem pulse_straight (t : Timing) : (pulse t).all Line.straight = true := by
  simp only [pulse, List.all_append, List.all_cons, List.all_nil, delayLines_straight, Line.straight, Bool.and_self]

theorem effects_pulse (t : Timing) (s : State) :
    effects (pulse t) s =
      { s with pins := { s.pins with sck := false }, trace := s.trace ++ pulseEvents t } := by
  simp only [pulse, effects_append, effects_delayLines, effects_cons, effects_nil, effect, drive, emit, Pins.set,
    csActiveAfter, pulseEvents, List.append_assoc]

/-! ### TxByte -/

theorem txByteLines_straight (t : Timing) (v : Byte) : (txByteLines t v).all Line.straight = true := by
  simp only [txByteLines, bitOrder, List.flatMap_cons, List.flatMap_nil, List.all_append, List.all_cons, List.all_nil,
    pulse_straight, delayLines_straight, Line.straight, Bool.and_self]

theorem effects_txByte (t : Timing) (v : Byte) (s : State) :
    effects (txByteLines t v) s =
      { s with
        pins := { s.pins with sck := false, mosi := v.getLsbD 0 }
        work := { s.work with shift := v }
        trace := s.trace ++ txEvents t v } := by
  simp only [txByteLines, bitOrder, List.flatMap_cons, List.flatMap_nil, effects_append, effects_cons,
    effects_pulse, effects_delayLines, effect, shiftOut, drive, emit, Pins.set, csActiveAfter, txEvents, bitsOf,
    List.append_assoc, List.cons_append, List.nil_append, List.append_nil]
  rfl

/-! ### RxByte -/

theorem rxByteLines_straight (t : Timing) : (rxByteLines t).all Line.straight = true := by
  simp only [rxByteLines, bitOrder, List.flatMap_cons, List.flatMap_nil, List.all_append, List.all_cons, List.all_nil,
    pulse_straight, delayLines_straight, Line.straight, Bool.and_self]

theorem effects_rxByte (t : Timing) (s : State) :
    effects (rxByteLines t) s =
      { s with
        pins := { s.pins with sck := false }
        device := (s.device.nextBits 8).2
        work := { s.work with shift := byteOfBits (s.device.nextBits 8).1 }
        trace := s.trace ++ rxEvents t (s.device.nextBits 8).1 } := by
  simp only [rxByteLines, bitOrder, List.flatMap_cons, List.flatMap_nil, effects_append, effects_cons,
    effects_pulse, effects_delayLines, effect, shiftIn, emit, rxEvents, Device.nextBits, byteOfBits, List.foldl_cons,
    List.foldl_nil, shiftedIn, List.append_assoc, List.cons_append, List.nil_append, List.append_nil]
  rfl

/-! ### Bytes in a row -/

theorem txBytesLines_straight (t : Timing) (bs : List Byte) : (txBytesLines t bs).all Line.straight = true := by
  induction bs with
  | nil => rfl
  | cons b bs ih =>
    rw [txBytesLines, List.flatMap_cons, List.all_append, txByteLines_straight, Bool.true_and]
    exact ih

/-- The last of a byte and the bytes after it. -/
def lastByte (b : Byte) (bs : List Byte) : Byte := (b :: bs).getLast (List.cons_ne_nil b bs)

theorem effects_txBytes (t : Timing) (b : Byte) (bs : List Byte) (s : State) :
    effects (txBytesLines t (b :: bs)) s =
      { s with
        pins := { s.pins with sck := false, mosi := (lastByte b bs).getLsbD 0 }
        work := { s.work with shift := lastByte b bs }
        trace := s.trace ++ (b :: bs).flatMap (txEvents t) } := by
  induction bs generalizing b s with
  | nil =>
    simp only [txBytesLines, List.flatMap_cons, List.flatMap_nil, List.append_nil, effects_txByte, lastByte,
      List.getLast_singleton]
  | cons c bs ih =>
    have h : txBytesLines t (b :: c :: bs) = txByteLines t b ++ txBytesLines t (c :: bs) := rfl
    rw [h, effects_append, effects_txByte, ih c]
    simp only [lastByte, List.getLast_cons_cons, List.flatMap_cons, List.append_assoc]

/-! ### Select -/

theorem deassertSelect_straight (t : Timing) : (deassertSelect t).all Line.straight = true := by
  simp only [deassertSelect, List.all_cons, delayLines_straight, Line.straight, Bool.and_self]

theorem assertSelect_straight (t : Timing) : (assertSelect t).all Line.straight = true := by
  simp only [assertSelect, List.all_cons, delayLines_straight, Line.straight, Bool.and_self]

theorem effects_deassert (t : Timing) (s : State) :
    effects (deassertSelect t) s =
      { s with
        pins := { s.pins with csN := true }
        csActive := false
        trace := s.trace ++ deassertEvents t } := by
  simp only [deassertSelect, effects_cons, effects_delayLines, effect, drive, emit, Pins.set, csActiveAfter,
    deassertEvents, List.append_assoc, List.cons_append, List.nil_append, Bool.not_true]

theorem effects_assert (t : Timing) (s : State) :
    effects (assertSelect t) s =
      { s with
        pins := { s.pins with csN := false }
        csActive := true
        trace := s.trace ++ assertEvents t } := by
  simp only [assertSelect, effects_cons, effects_delayLines, effect, drive, emit, Pins.set, csActiveAfter,
    assertEvents, List.append_assoc, List.cons_append, List.nil_append, Bool.not_false]

end Sys2Proof.Machine
end

