-- ==== Sys2Proof/Laws/Frame.lean ====
section
/-! SUPPORT. What the engine does with a whole wire frame, from the line that opens it to its DeassertSelect. -/

namespace Sys2Proof.Machine

/-- The last byte of a frame's header: the opcode of a frame without an address, else address bits 7:0. -/
def lastHeaderByte (o : Config.Opcodes) (f : Frame) : Byte :=
  match f.address with
  | some a => a.extractLsb' 0 8
  | none => f.opcode o

theorem lastByte_header (o : Config.Opcodes) (f : Frame) :
    lastByte (f.opcode o) f.addressBytes = lastHeaderByte o f := by
  cases f <;> rfl

/-- AssertSelect and the header of a frame, with `rest` after the header. -/
theorem reaches_header (f : Frame) {s : State} (hs : s.host = []) (cmd : Word) (rest : List Line) :
    Reaches (s.atPoint cmd (.wire f :: rest))
      (State.atPoint cmd (frameBody s.timing f ++ deassertSelect s.timing ++ rest)
        { s with
          pins := { s.pins with sck := false, mosi := (lastHeaderByte s.opcodes f).getLsbD 0, csN := false }
          csActive := true
          work := { s.work with shift := lastHeaderByte s.opcodes f }
          frames := s.frames ++ [f]
          trace := s.trace ++ headerEvents s.opcodes s.timing f }) := by
  refine (reaches_line hs cmd rest rfl).trans ?_
  have hx : expand (.wire f) (effect (.wire f) s) =
      delayLines s.timing.byte ++
        (txBytesLines s.timing (f.header s.opcodes) ++ (frameBody s.timing f ++ deassertSelect s.timing)) := by
    simp only [expand, effect, frameRest, openFrame_timing, openFrame_opcodes, List.append_assoc]
  rw [hx, List.append_assoc, List.append_assoc]
  refine (reaches_straight (delayLines_straight _) (by rw [effect_host]; exact hs) cmd _).trans ?_
  refine (reaches_straight (txBytesLines_straight _ _)
    (by rw [effects_host, effect_host]; exact hs) cmd _).trans ?_
  rw [effects_delayLines, Frame.header, effects_txBytes, lastByte_header]
  simp only [effect, openFrame, drive, emit, Pins.set, csActiveAfter, headerEvents, assertEvents, Frame.header,
    List.append_assoc, List.cons_append, List.nil_append, Bool.not_false]
  exact Reaches.refl _

/-- DeassertSelect with `rest` after it. -/
theorem reaches_deassert {s : State} (hs : s.host = []) (cmd : Word) (rest : List Line) :
    Reaches (s.atPoint cmd (deassertSelect s.timing ++ rest))
      (State.atPoint cmd rest
        { s with
          pins := { s.pins with csN := true }
          csActive := false
          trace := s.trace ++ deassertEvents s.timing }) := by
  refine (reaches_straight (deassertSelect_straight _) hs cmd rest).trans ?_
  rw [effects_deassert]
  exact Reaches.refl _

/-- The state after a frame that sends its header and nothing else and receives nothing. -/
def afterPlainFrame (f : Frame) (s : State) : State :=
  { s with
    pins := { s.pins with sck := false, mosi := (lastHeaderByte s.opcodes f).getLsbD 0, csN := true }
    csActive := false
    work := { s.work with shift := lastHeaderByte s.opcodes f }
    frames := s.frames ++ [f]
    trace := s.trace ++ plainFrameEvents s.opcodes s.timing f }

theorem reaches_plain {f : Frame} (hf : ∀ t, frameBody t f = []) {s : State} (hs : s.host = []) (cmd : Word)
    (rest : List Line) :
    Reaches (s.atPoint cmd (.wire f :: rest)) ((afterPlainFrame f s).atPoint cmd rest) := by
  refine (reaches_header f hs cmd rest).trans ?_
  rw [hf, List.nil_append]
  refine (reaches_deassert (s := _) ?_ cmd rest).trans ?_
  · exact hs
  · simp only [afterPlainFrame, plainFrameEvents, List.append_assoc]
    exact Reaches.refl _

/-- The state after one status read: the status byte stands in SHIFT. -/
def afterStatusRead (s : State) : State :=
  { s with
    pins := { s.pins with sck := false, mosi := s.opcodes.rdsr.getLsbD 0, csN := true }
    csActive := false
    device := (s.device.nextBits 8).2
    work := { s.work with shift := byteOfBits (s.device.nextBits 8).1 }
    frames := s.frames ++ [.rdsr]
    trace := s.trace ++ statusReadEvents s.opcodes s.timing (s.device.nextBits 8).1 }

theorem reaches_rdsr {s : State} (hs : s.host = []) (cmd : Word) (rest : List Line) :
    Reaches (s.atPoint cmd (.wire .rdsr :: rest)) ((afterStatusRead s).atPoint cmd rest) := by
  refine (reaches_header .rdsr hs cmd rest).trans ?_
  rw [frameBody, List.append_assoc]
  refine (reaches_straight (rxByteLines_straight _) ?_ cmd _).trans ?_
  · exact hs
  rw [effects_rxByte]
  refine (reaches_deassert (s := _) ?_ cmd rest).trans ?_
  · exact hs
  · simp only [afterStatusRead, statusReadEvents, List.append_assoc, lastHeaderByte, Frame.address, Frame.opcode]
    exact Reaches.refl _

end Sys2Proof.Machine
end

