-- ==== Sys2Proof/Laws/Loops.lean ====
section
/-! SUPPORT. The engine's loops: the tests of BusyWaitLoop one by one, READ's byte loop and PROGRAM's byte loop by induction. -/

namespace Sys2Proof.Machine

/-! ### BusyWaitLoop's tests (R162) -/

/-- The count that a status read adds. -/
def afterPolled (count : Bool) (s : State) : State :=
  { s with
    work := { s.work with polls := countUp s.work.polls }
    progress := if count then countUp s.work.polls else s.progress }

theorem reaches_polled (count : Bool) {s : State} (hs : s.host = []) (cmd : Word) (rest : List Line) :
    Reaches (s.atPoint cmd (.polled count :: rest))
      ((afterPolled count s).atPoint cmd (pollLoop count (afterPolled count s) ++ rest)) :=
  reaches_line hs (l := .polled count) cmd rest rfl

theorem wip_afterPolled (count : Bool) (s : State) : wip (afterPolled count s) = wip s := rfl

theorem pollLimitReached_afterPolled (count : Bool) (s : State) :
    pollLimitReached (afterPolled count s) = (s.pollLimit != 0 && decide (s.pollLimit ≤ countUp s.work.polls)) := rfl

/-- WIP = 0 in the status byte: READY, and the lines after the loop come next. -/
theorem reaches_polled_ready (count : Bool) {s : State} (hs : s.host = []) (cmd : Word) (rest : List Line)
    (h : wip s = false) : Reaches (s.atPoint cmd (.polled count :: rest)) ((afterPolled count s).atPoint cmd rest) := by
  have r := reaches_polled count hs cmd rest
  have hx : pollLoop count (afterPolled count s) = [] := by
    simp only [pollLoop, wip_afterPolled, h, Bool.not_false, cond_true]
  rwa [hx] at r

/-- WIP = 1 and no cap reached: one status read more. -/
theorem reaches_polled_again (count : Bool) {s : State} (hs : s.host = []) (cmd : Word) (rest : List Line)
    (h : wip s = true) (hl : pollLimitReached (afterPolled count s) = false) :
    Reaches (s.atPoint cmd (.polled count :: rest))
      ((afterPolled count s).atPoint cmd (.wire .rdsr :: .polled count :: rest)) := by
  have r := reaches_polled count hs cmd rest
  have hx : pollLoop count (afterPolled count s) = [.wire .rdsr, .polled count] := by
    simp only [pollLoop, wip_afterPolled, h, hl, Bool.not_true, cond_false]
  rwa [hx] at r

/-- WIP = 1 and POLL_LIMIT reads made: TIMEOUT (R228). -/
theorem reaches_polled_timeout (count : Bool) {s : State} (hs : s.host = []) (cmd : Word) (rest : List Line)
    (h : wip s = true) (hl : pollLimitReached (afterPolled count s) = true) :
    Reaches (s.atPoint cmd (.polled count :: rest)) (complete .timeout (afterPolled count s)) := by
  have r := reaches_polled count hs cmd rest
  have hx : pollLoop count (afterPolled count s) = [.raise .timeout] := by
    simp only [pollLoop, wip_afterPolled, h, hl, Bool.not_true, cond_false, cond_true]
  rw [hx] at r
  exact r.trans (reaches_raise (s := afterPolled count s) hs cmd rest rfl)

/-! ### READ's byte loop (R164) -/

theorem saturated_toNat (n : Nat) : (saturated n).toNat = min n (2 ^ 32 - 1) := by
  rw [saturated, BitVec.toNat_ofNat, Nat.mod_eq_of_lt (by omega)]

/-- Counting up once, as `min(x + 1, 2^32 - 1)` (R42, R162). -/
theorem countUp_eq_saturated (x : BitVec 32) : countUp x = saturated (x.toNat + 1) := by
  have hx := x.isLt
  apply BitVec.eq_of_toNat_eq
  rw [saturated_toNat]
  unfold countUp
  split
  · rename_i h
    rw [h, BitVec.toNat_allOnes]
    omega
  · rename_i h
    have hne : x.toNat ≠ 2 ^ 32 - 1 := by
      intro e
      exact h (BitVec.eq_of_toNat_eq (by rw [e, BitVec.toNat_allOnes]))
    have one : (1 : BitVec 32).toNat = 1 := rfl
    rw [BitVec.toNat_add, one, Nat.mod_eq_of_lt (by omega)]
    omega

theorem saturated_add (n k : Nat) : saturated ((saturated n).toNat + k) = saturated (n + k) := by
  apply BitVec.eq_of_toNat_eq
  rw [saturated_toNat, saturated_toNat, saturated_toNat]
  omega

theorem saturated_countUp (x : BitVec 32) (k : Nat) : saturated ((countUp x).toNat + k) = saturated (x.toNat + (k + 1)) := by
  rw [countUp_eq_saturated, saturated_add]
  congr 1
  omega

theorem saturated_self (x : BitVec 32) : saturated x.toNat = x := by
  have hx := x.isLt
  apply BitVec.eq_of_toNat_eq
  rw [saturated_toNat]
  omega

theorem saturated_of_lt {n : Nat} (h : n < 2 ^ 32) : saturated n = BitVec.ofNat 32 n := by
  rw [saturated, Nat.min_eq_left (by omega)]

/-- The last byte moves on with the bytes after it. -/
theorem lastByte_cons (b c : Byte) (bs : List Byte) : lastByte b (c :: bs) = lastByte c bs := by
  simp only [lastByte, List.getLast_cons_cons]

/-- Counting one and then `k` more in a bit vector is counting `k + 1`. -/
theorem add_one_add_ofNat {n : Nat} (x : BitVec n) (k : Nat) :
    x + 1 + BitVec.ofNat n k = x + BitVec.ofNat n (k + 1) := by
  rw [BitVec.add_assoc, Nat.add_comm k 1, BitVec.ofNat_add]
  rfl

/-- READ's loop from a test on: all the bytes left are received and pushed, in order, and PROGRESS counts them. -/
theorem reaches_readLoop (k : Nat) {s : State} (hs : s.host = []) (cmd : Word) (rest : List Line)
    (hi : s.work.i.toNat + k = s.byteCount.toNat) (hsck : s.pins.sck = false) :
    Reaches (s.atPoint cmd (readLoop s ++ rest))
      (State.atPoint cmd rest
        { s with
          work :=
            { s.work with
              shift := lastByte s.work.shift ((s.device.nextBytes k).1.map byteOfBits)
              i := s.work.i + BitVec.ofNat 29 k }
          progress := saturated (s.progress.toNat + k)
          device := (s.device.nextBytes k).2
          sink := s.sink ++ (s.device.nextBytes k).1.map byteOfBits
          trace := s.trace ++ (s.device.nextBytes k).1.flatMap (readByteEvents s.timing) }) := by
  induction k generalizing s with
  | zero =>
    have hx : readLoop s = [] := by
      have : moreToRead s = false := by
        simp only [moreToRead, BitVec.lt_def, decide_eq_false_iff_not]
        omega
      simp only [readLoop, this, cond_false]
    rw [hx, Nat.add_zero, saturated_self]
    simp only [Device.nextBytes, List.map_nil, List.flatMap_nil, List.append_nil, List.nil_append, lastByte,
      List.getLast_singleton, BitVec.add_zero]
    exact Reaches.refl _
  | succ k ih =>
    have hb := s.byteCount.isLt
    have one : (1 : BitVec 29).toNat = 1 := rfl
    have hx : readLoop s = rxByteLines s.timing ++ [.push, .countRead] := by
      have : moreToRead s = true := by
        simp only [moreToRead, BitVec.lt_def, decide_eq_true_eq]
        omega
      simp only [readLoop, this, cond_true]
    rw [hx, List.append_assoc]
    have r1 := reaches_straight (rxByteLines_straight s.timing) hs cmd ([.push, .countRead] ++ rest)
    rw [effects_rxByte] at r1
    have hpins : ({ s.pins with sck := false } : Pins) = s.pins := by
      rw [← hsck]
    rw [hpins] at r1
    have r3 := ih
      (s := effect .countRead (effect .push
        { s with
          device := (s.device.nextBits 8).2
          work := { s.work with shift := byteOfBits (s.device.nextBits 8).1 }
          trace := s.trace ++ rxEvents s.timing (s.device.nextBits 8).1 }))
      (by simp only [effect, pushByte_host]; exact hs)
      (by
        simp only [effect, pushByte_work, pushByte_byteCount, BitVec.toNat_add, one]
        omega)
      (by simp only [effect, pushByte_pins]; exact hsck)
    refine r1.trans ?_
    refine (reaches_line (l := .push) ?_ cmd _ rfl).trans ?_
    · exact hs
    refine (reaches_line (l := .countRead) ?_ cmd _ rfl).trans ?_
    · simp only [effect, pushByte_host]; exact hs
    refine Reaches.trans ?_ (b := r3.trans ?_)
    · exact Reaches.refl _
    · simp only [effect, pushByte, emit, saturated_countUp, Device.nextBytes, List.map_cons, List.flatMap_cons, readByteEvents,
        lastByte_cons, add_one_add_ofNat, List.append_assoc, List.cons_append, List.nil_append]
      exact Reaches.refl _

/-! ### PROGRAM's byte loop (R165) -/

/-- What PROGRAM's byte loop leaves alone in the working registers: all but N, EXH and SHIFT. -/
def Work.sameRange (v w : Work) : Prop := v.addr = w.addr ∧ v.remain = w.remain ∧ v.chunk = w.chunk

/-- The working registers after PROGRAM's byte loop has sent `data`: SHIFT the last byte sent, N counted up, and EXH when the
source showed its end. -/
def Work.sent (data : List Byte) (exh : Bool) (w : Work) : Work :=
  { w with shift := lastByte w.shift data, n := w.n + BitVec.ofNat 9 data.length, exh := exh }

theorem Work.sent_sameRange (data : List Byte) (exh : Bool) (w : Work) : (w.sent data exh).sameRange w :=
  ⟨rfl, rfl, rfl⟩

theorem Work.sent_nil (exh : Bool) (w : Work) : w.sent [] exh = { w with exh := exh } := by
  simp only [Work.sent, lastByte, List.getLast_singleton, List.length_nil, BitVec.add_zero]

/-- A byte sent, then the others. -/
theorem Work.sent_cons (b : Byte) (data : List Byte) (exh : Bool) (w : Work) :
    Work.sent data exh { w with shift := b, n := w.n + 1 } = w.sent (b :: data) exh := by
  simp only [Work.sent, lastByte_cons, add_one_add_ofNat, List.length_cons]

theorem moreData_of_lt {s : State} (h : s.work.n.toNat < s.work.chunk.toNat) (he : s.work.exh = false) :
    moreData s = true := by
  simp only [moreData, he, BitVec.lt_def, Bool.not_false, Bool.and_true, decide_eq_true_eq]
  exact h

/-- One pass: the byte is pulled, sent and counted, and the test comes again. -/
theorem reaches_sendByte {s : State} (hs : s.host = []) (cmd : Word) (rest : List Line) {b : Byte} {bs : List Byte}
    (hb : s.source.bytes = b :: bs) (hn : s.work.n.toNat < s.work.chunk.toNat) (he : s.work.exh = false)
    (hsck : s.pins.sck = false) :
    let u : State :=
      { s with
        pins := { s.pins with mosi := b.getLsbD 0 }
        source := { s.source with bytes := bs }
        work := { s.work with shift := b, n := s.work.n + 1 }
        progress := countUp s.progress
        trace := s.trace ++ sendByteEvents s.timing b }
    Reaches (s.atPoint cmd (dataLoop s ++ rest)) (u.atPoint cmd (dataLoop u ++ rest)) := by
  intro u
  have hx : dataLoop s = [.pull] := by simp only [dataLoop, moreData_of_lt hn he, cond_true]
  have hsrc : s.source.next = (some b, { s.source with bytes := bs }) := by
    simp only [Source.next, hb]
  have hpins : ({ s.pins with sck := false } : Pins) = s.pins := by rw [← hsck]
  rw [hx]
  have r1 := reaches_line hs (l := .pull) cmd rest rfl
  have hx2 : expand .pull (effect .pull s) = txByteLines s.timing b ++ [.countSent] := by
    simp only [expand, pulledLines, effect, pullByte_work, pullByte_timing, hsrc, Work.pulled, he, cond_false]
  rw [hx2, List.append_assoc] at r1
  refine r1.trans ?_
  refine (reaches_straight (txByteLines_straight _ _) ?_ cmd _).trans ?_
  · simp only [effect, pullByte_host]; exact hs
  refine (reaches_line (l := .countSent) ?_ cmd rest rfl).trans ?_
  · simp only [effects_host, effect, pullByte_host]; exact hs
  have hu : effect .countSent (effects (txByteLines s.timing b) (effect .pull s)) = u := by
    simp only [effects_txByte, effect, pullByte, emit, hsrc, Work.pulled, sendByteEvents, List.append_assoc,
      List.cons_append, List.nil_append, u]
    rw [← hpins]
  rw [hu]
  exact Reaches.refl _

/-- The level MOSI has after these bytes are sent (R134: "pin.MOSI = v[0]"). -/
def mosiAfter (old : Level) : List Byte → Level
  | [] => old
  | b :: bs => mosiAfter (b.getLsbD 0) bs

/-- PROGRAM's byte loop when the source has the rest of the chunk: it is pulled and sent byte by byte, and no more. -/
theorem reaches_dataLoop_full (data more : List Byte) {s : State} (hs : s.host = []) (cmd : Word) (rest : List Line)
    (hb : s.source.bytes = data ++ more) (hn : s.work.n.toNat + data.length = s.work.chunk.toNat)
    (he : s.work.exh = false) (hsck : s.pins.sck = false) :
    Reaches (s.atPoint cmd (dataLoop s ++ rest))
      (State.atPoint cmd rest
        { s with
          pins := { s.pins with mosi := mosiAfter s.pins.mosi data }
          source := { s.source with bytes := more }
          work := s.work.sent data false
          progress := saturated (s.progress.toNat + data.length)
          trace := s.trace ++ data.flatMap (sendByteEvents s.timing) }) := by
  induction data generalizing s with
  | nil =>
    have hx : dataLoop s = [] := by
      have : moreData s = false := by
        simp only [moreData, BitVec.lt_def, he, Bool.not_false, Bool.and_true, decide_eq_false_iff_not]
        simp only [List.length_nil] at hn
        omega
      simp only [dataLoop, this, cond_false]
    have hq : ({ s.source with bytes := more } : Source) = s.source := by
      rw [← show s.source.bytes = more from hb]
    have hz : saturated (s.progress.toNat + ([] : List Byte).length) = s.progress := saturated_self _
    have hw : s.work.sent [] false = s.work := by rw [Work.sent_nil, ← he]
    rw [hx, hq, hz, hw]
    simp only [List.flatMap_nil, List.append_nil, List.nil_append]
    exact Reaches.refl _
  | cons b data ih =>
    have one : (1 : BitVec 9).toNat = 1 := rfl
    have hc := s.work.chunk.isLt
    simp only [List.length_cons] at hn
    have r1 := reaches_sendByte hs cmd rest (b := b) (bs := data ++ more) hb (by omega) he hsck
    have r2 := ih
      (s := { s with
        pins := { s.pins with mosi := b.getLsbD 0 }
        source := { s.source with bytes := data ++ more }
        work := { s.work with shift := b, n := s.work.n + 1 }
        progress := countUp s.progress
        trace := s.trace ++ sendByteEvents s.timing b })
      hs rfl
      (by simp only [BitVec.toNat_add, one]; omega)
      he
      hsck
    refine r1.trans ?_
    rw [saturated_countUp, Work.sent_cons] at r2
    simp only [List.flatMap_cons, List.length_cons, ← List.append_assoc] at r2 ⊢
    exact r2

/-- PROGRAM's byte loop when the source ends inside the chunk: what there is is sent, then one pull gives end-of-input and
no byte follows it. -/
theorem reaches_dataLoop_short (data : List Byte) {s : State} (hs : s.host = []) (cmd : Word) (rest : List Line)
    (hb : s.source.bytes = data) (hend : s.source.ended = true)
    (hn : s.work.n.toNat + data.length < s.work.chunk.toNat)
    (he : s.work.exh = false) (hsck : s.pins.sck = false) :
    Reaches (s.atPoint cmd (dataLoop s ++ rest))
      (State.atPoint cmd rest
        { s with
          pins := { s.pins with mosi := mosiAfter s.pins.mosi data }
          source := { s.source with bytes := [] }
          work := s.work.sent data true
          progress := saturated (s.progress.toNat + data.length)
          trace := s.trace ++ data.flatMap (sendByteEvents s.timing) ++ [.pull none] }) := by
  induction data generalizing s with
  | nil =>
    simp only [List.length_nil, Nat.add_zero] at hn
    have hx : dataLoop s = [.pull] := by simp only [dataLoop, moreData_of_lt hn he, cond_true]
    have hsrc : s.source.next = (none, { s.source with bytes := [] }) := by
      have hq : ({ s.source with bytes := [] } : Source) = s.source := by rw [← hb]
      rw [hq]
      simp only [Source.next, hb, hend, if_true]
    have hz : saturated (s.progress.toNat + ([] : List Byte).length) = s.progress := saturated_self _
    rw [hx, hz, Work.sent_nil]
    have r1 := reaches_line hs (l := .pull) cmd rest rfl
    have hx2 : expand .pull (effect .pull s) = [] := by
      simp only [expand, pulledLines, effect, pullByte_work, hsrc, Work.pulled, cond_true]
    rw [hx2] at r1
    simp only [effect, pullByte, emit, hsrc, Work.pulled] at r1
    simp only [List.flatMap_nil, List.append_nil]
    exact r1
  | cons b data ih =>
    have one : (1 : BitVec 9).toNat = 1 := rfl
    have hc := s.work.chunk.isLt
    simp only [List.length_cons] at hn
    have r1 := reaches_sendByte hs cmd rest (b := b) (bs := data) hb (by omega) he hsck
    have r2 := ih
      (s := { s with
        pins := { s.pins with mosi := b.getLsbD 0 }
        source := { s.source with bytes := data }
        work := { s.work with shift := b, n := s.work.n + 1 }
        progress := countUp s.progress
        trace := s.trace ++ sendByteEvents s.timing b })
      hs rfl hend
      (by simp only [BitVec.toNat_add, one]; omega)
      he
      hsck
    refine r1.trans ?_
    rw [saturated_countUp, Work.sent_cons] at r2
    simp only [List.flatMap_cons, List.length_cons, ← List.append_assoc] at r2 ⊢
    exact r2

/-! ### BusyWaitLoop as a whole (R162) -/

theorem byteOfBits_bitsOf (v : Byte) : byteOfBits (bitsOf v) = v := by
  revert v
  decide

theorem nextBits_answering (b : Byte) (bs : List Byte) (d : Device) :
    (Device.answering (b :: bs) d).nextBits 8 = (bitsOf b, Device.answering bs d) := rfl

/-- The status bits that a byte brings into SHIFT. -/
theorem wip_afterStatusRead {s : State} {b : Byte} {bs : List Byte} {d : Device}
    (h : s.device = d.answering (b :: bs)) : wip (afterStatusRead s) = b.getLsbD 0 := by
  simp only [wip, afterStatusRead, h, nextBits_answering, byteOfBits_bitsOf]

/-- A status read of a Device whose next byte is known. -/
theorem afterStatusRead_answering {s : State} {b : Byte} {bs : List Byte} {d : Device}
    (h : s.device = d.answering (b :: bs)) :
    afterStatusRead s =
      { s with
        pins := { s.pins with sck := false, mosi := s.opcodes.rdsr.getLsbD 0, csN := true }
        csActive := false
        device := d.answering bs
        work := { s.work with shift := b }
        frames := s.frames ++ [.rdsr]
        trace := s.trace ++ statusReadEvents s.opcodes s.timing (bitsOf b) } := by
  simp only [afterStatusRead, h, nextBits_answering, byteOfBits_bitsOf]

/-- What BusyWaitLoop leaves alone in the working registers: all but SHIFT and POLLS. -/
def Work.samePlan (v w : Work) : Prop :=
  v.addr = w.addr ∧ v.endAddr = w.endAddr ∧ v.remain = w.remain ∧ v.chunk = w.chunk ∧ v.exh = w.exh

/-- The status loop on a Device that answers the busy bytes and then a ready one: one RDSR frame for each byte, then the
lines after the loop. A set POLL_LIMIT must not be reached while the Device is busy. -/
theorem reaches_pollLoop (count : Bool) (busy : List Byte) (ready : Byte) {s : State} (hs : s.host = []) (cmd : Word)
    (rest : List Line) {d : Device} (hd : s.device = d.answering (busy ++ [ready]))
    (hbusy : ∀ b ∈ busy, b.getLsbD 0 = true) (hready : ready.getLsbD 0 = false)
    (hlim : s.pollLimit = 0 ∨ s.work.polls.toNat + busy.length < s.pollLimit.toNat) :
    ∃ w, w.samePlan s.work ∧
      Reaches (s.atPoint cmd (.wire .rdsr :: .polled count :: rest))
        (State.atPoint cmd rest
          { s with
            pins := { s.pins with sck := false, mosi := s.opcodes.rdsr.getLsbD 0, csN := true }
            csActive := false
            device := d.answering []
            work := w
            progress := if count then saturated (s.work.polls.toNat + (busy.length + 1)) else s.progress
            frames := s.frames ++ List.replicate (busy.length + 1) .rdsr
            trace := s.trace ++ (busy ++ [ready]).flatMap (fun b => statusReadEvents s.opcodes s.timing (bitsOf b)) }) := by
  induction busy generalizing s with
  | nil =>
    have one32 : (1 : BitVec 32).toNat = 1 := rfl
    simp only [List.length_nil, Nat.add_zero] at hlim
    have r1 := reaches_rdsr hs cmd (.polled count :: rest)
    have r2 := reaches_polled_ready count (s := afterStatusRead s) hs cmd rest
      (by rw [wip_afterStatusRead (bs := []) (b := ready) (d := d) hd, hready])
    refine ⟨(afterPolled count (afterStatusRead s)).work, ⟨rfl, rfl, rfl, rfl, rfl⟩, r1.trans ?_⟩
    rw [afterStatusRead_answering (bs := []) (b := ready) (d := d) hd] at r2 ⊢
    simp only [afterPolled] at r2 ⊢
    rw [countUp_eq_saturated] at r2 ⊢
    simp only [List.length_nil, Nat.zero_add, List.replicate_one, List.nil_append, List.flatMap_cons, List.flatMap_nil,
      List.append_nil]
    exact r2
  | cons b busy ih =>
    have one32 : (1 : BitVec 32).toNat = 1 := rfl
    simp only [List.length_cons] at hlim
    have r1 := reaches_rdsr hs cmd (.polled count :: rest)
    have hw : wip (afterStatusRead s) = true := by
      rw [wip_afterStatusRead (bs := busy ++ [ready]) (b := b) (d := d) hd]
      exact hbusy b List.mem_cons_self
    have hpl : pollLimitReached (afterPolled count (afterStatusRead s)) = false := by
      rw [pollLimitReached_afterPolled]
      show (s.pollLimit != 0 && decide (s.pollLimit ≤ countUp s.work.polls)) = false
      rcases hlim with h | h
      · rw [h]; rfl
      · rw [Bool.and_eq_false_iff]
        right
        rw [decide_eq_false_iff_not, BitVec.le_def, countUp_eq_saturated, saturated_toNat]
        omega
    have r2 := reaches_polled_again count (s := afterStatusRead s) hs cmd rest hw hpl
    rw [afterStatusRead_answering (bs := busy ++ [ready]) (b := b) (d := d) hd] at r1 r2
    simp only [afterPolled] at r2
    obtain ⟨w, hwp, r3⟩ := ih
      (s := { s with
        pins := { s.pins with sck := false, mosi := s.opcodes.rdsr.getLsbD 0, csN := true }
        csActive := false
        device := d.answering (busy ++ [ready])
        work := { s.work with shift := b, polls := countUp s.work.polls }
        progress := if count then countUp s.work.polls else s.progress
        frames := s.frames ++ [.rdsr]
        trace := s.trace ++ statusReadEvents s.opcodes s.timing (bitsOf b) })
      hs rfl (fun x hx => hbusy x (List.mem_cons_of_mem _ hx))
      (by
        rcases hlim with h | h
        · exact .inl h
        · right
          simp only [countUp_eq_saturated, saturated_toNat]
          omega)
    refine ⟨w, hwp, r1.trans (r2.trans ?_)⟩
    have hif : (if count then saturated ((countUp s.work.polls).toNat + (busy.length + 1))
        else (if count then countUp s.work.polls else s.progress)) =
        if count then saturated (s.work.polls.toNat + (busy.length + 1 + 1)) else s.progress := by
      cases count
      · rfl
      · exact saturated_countUp _ _
    rw [hif] at r3
    simp only [List.length_cons, List.cons_append, List.flatMap_cons, List.append_assoc,
      List.replicate_succ (n := busy.length + 1)] at r3 ⊢
    exact r3

end Sys2Proof.Machine
end

