-- ==== Sys2Proof/Laws/Commands.lean ====
section
/-! SUPPORT. The frames with a body (RDID, READ, PP), the busy-wait as a whole with its two ends, and one pass of PROGRAM's and of EraseRange's loop. -/

namespace Sys2Proof.Machine

/-! ### Starting -/

/-- A CMD write while BUSY = 0. -/
theorem startLines_idle {s : State} (h : s.busy = false) (w : Word) (ls : List Line) :
    startLines w ls s = .next (started w ls s) := by
  rw [startLines, h]
  rfl

theorem startLines_busy {s : State} (h : s.busy = true) (w : Word) (ls : List Line) :
    startLines w ls s = .refused .writeWhileBusy := by
  rw [startLines, h]
  rfl

/-- The lines of a command that starts in a ready state lead to its end: BUSY and SEQ come back to where they were. -/
theorem runsTo_of_lines {i : Instr} {s t : State} {w : Word} {ls : List Line} (hr : Ready s)
    (hx : exec i s = startLines w ls s)
    (h : Reaches (State.atPoint w ls { s with busy := true }) t) : RunsTo i s t :=
  ⟨started w ls s, by rw [hx, startLines_idle hr.1], h⟩

theorem stickyAfter_ok (b : Bool) : stickyAfter .ok b = b := by
  cases b <;> rfl

/-! ### Frames with a body -/

theorem rdidBody_straight (t : Timing) : (frameBody t .rdid).all Line.straight = true := by
  simp only [frameBody, List.all_append, rxByteLines_straight, List.all_cons, List.all_nil, Line.straight, Bool.and_self]

/-- The three bytes of the RDID frame, into IDENTIFY's m, t and c. -/
theorem effects_rdidBody (t : Timing) {s : State} {b1 b2 b3 : List Level} {d1 d2 d3 : Device}
    (h1 : s.device.nextBits 8 = (b1, d1)) (h2 : d1.nextBits 8 = (b2, d2)) (h3 : d2.nextBits 8 = (b3, d3)) :
    effects (frameBody t .rdid) s =
      { s with
        pins := { s.pins with sck := false }
        device := d3
        work := { s.work with shift := byteOfBits b3, m := byteOfBits b1, t := byteOfBits b2, c := byteOfBits b3 }
        trace := s.trace ++ rxEvents t b1 ++ rxEvents t b2 ++ rxEvents t b3 } := by
  simp only [frameBody, effects_append, effects_cons, effects_nil, effects_rxByte, effect, Work.latch, h1, h2, h3]

/-- The RDID frame. -/
theorem reaches_rdid {s : State} (hs : s.host = []) (cmd : Word) (rest : List Line) {b1 b2 b3 : List Level}
    {d1 d2 d3 : Device} (h1 : s.device.nextBits 8 = (b1, d1)) (h2 : d1.nextBits 8 = (b2, d2))
    (h3 : d2.nextBits 8 = (b3, d3)) :
    Reaches (s.atPoint cmd (.wire .rdid :: rest))
      (State.atPoint cmd rest
        { s with
          pins := { s.pins with sck := false, mosi := s.opcodes.rdid.getLsbD 0, csN := true }
          csActive := false
          device := d3
          work := { s.work with shift := byteOfBits b3, m := byteOfBits b1, t := byteOfBits b2, c := byteOfBits b3 }
          frames := s.frames ++ [.rdid]
          trace := s.trace ++ headerEvents s.opcodes s.timing .rdid ++ rxEvents s.timing b1 ++
            rxEvents s.timing b2 ++ rxEvents s.timing b3 ++ deassertEvents s.timing }) := by
  have r1 := reaches_header .rdid hs cmd rest
  rw [List.append_assoc] at r1
  simp only [lastHeaderByte, Frame.address, Frame.opcode] at r1
  have r2 := reaches_straight (rdidBody_straight s.timing)
    (s := { s with
      pins := { s.pins with sck := false, mosi := s.opcodes.rdid.getLsbD 0, csN := false }
      csActive := true
      work := { s.work with shift := s.opcodes.rdid }
      frames := s.frames ++ [.rdid]
      trace := s.trace ++ headerEvents s.opcodes s.timing .rdid }) hs cmd (deassertSelect s.timing ++ rest)
  rw [effects_rdidBody (s := { s with
      pins := { s.pins with sck := false, mosi := s.opcodes.rdid.getLsbD 0, csN := false }
      csActive := true
      work := { s.work with shift := s.opcodes.rdid }
      frames := s.frames ++ [.rdid]
      trace := s.trace ++ headerEvents s.opcodes s.timing .rdid }) s.timing h1 h2 h3] at r2
  have r3 := reaches_deassert
    (s := { s with
      pins := { s.pins with sck := false, mosi := s.opcodes.rdid.getLsbD 0, csN := false }
      csActive := true
      device := d3
      work := { s.work with shift := byteOfBits b3, m := byteOfBits b1, t := byteOfBits b2, c := byteOfBits b3 }
      frames := s.frames ++ [.rdid]
      trace := s.trace ++ headerEvents s.opcodes s.timing .rdid ++ rxEvents s.timing b1 ++ rxEvents s.timing b2 ++
        rxEvents s.timing b3 }) hs cmd rest
  exact r1.trans (r2.trans r3)

/-- The READ frame. -/
theorem reaches_readFrame (a : WireAddr) {s : State} (hs : s.host = []) (cmd : Word) (rest : List Line) :
    Reaches (s.atPoint cmd (.wire (.readData a) :: rest))
      (State.atPoint cmd rest
        { s with
          pins := { s.pins with sck := false, mosi := a.getLsbD 0, csN := true }
          csActive := false
          device := (s.device.nextBytes s.byteCount.toNat).2
          work :=
            { s.work with
              shift := lastByte (a.extractLsb' 0 8) ((s.device.nextBytes s.byteCount.toNat).1.map byteOfBits)
              i := s.byteCount }
          sink := s.sink ++ (s.device.nextBytes s.byteCount.toNat).1.map byteOfBits
          progress := saturated (s.progress.toNat + s.byteCount.toNat)
          frames := s.frames ++ [.readData a]
          trace := s.trace ++ headerEvents s.opcodes s.timing (.readData a) ++
            (s.device.nextBytes s.byteCount.toNat).1.flatMap (readByteEvents s.timing) ++ deassertEvents s.timing }) := by
  have hl : (a.extractLsb' 0 8).getLsbD 0 = a.getLsbD 0 := by
    simp only [BitVec.getLsbD_extractLsb', Nat.zero_add]; rfl
  have r1 := reaches_header (.readData a) hs cmd rest
  simp only [frameBody, List.cons_append, List.nil_append, lastHeaderByte, Frame.address, hl] at r1
  have r2 := reaches_line (l := .beginRead)
    (s := { s with
      pins := { s.pins with sck := false, mosi := a.getLsbD 0, csN := false }
      csActive := true
      work := { s.work with shift := a.extractLsb' 0 8 }
      frames := s.frames ++ [.readData a]
      trace := s.trace ++ headerEvents s.opcodes s.timing (.readData a) }) hs cmd
    (deassertSelect s.timing ++ rest) rfl
  have r3 := reaches_readLoop s.byteCount.toNat
    (s := { s with
      pins := { s.pins with sck := false, mosi := a.getLsbD 0, csN := false }
      csActive := true
      work := { s.work with shift := a.extractLsb' 0 8, i := 0 }
      frames := s.frames ++ [.readData a]
      trace := s.trace ++ headerEvents s.opcodes s.timing (.readData a) }) hs cmd
    (deassertSelect s.timing ++ rest) (by simp) rfl
  have hi : (0 : BitVec 29) + BitVec.ofNat 29 s.byteCount.toNat = s.byteCount := by
    rw [BitVec.ofNat_toNat, BitVec.setWidth_eq]
    exact BitVec.zero_add _
  rw [hi] at r3
  refine r1.trans (r2.trans (r3.trans ?_))
  refine (reaches_deassert (s := _) ?_ cmd rest).trans ?_
  · exact hs
  · exact Reaches.refl _

/-- The state after a PP frame that sends `data` and then, if the source ended, shows it. -/
def afterPp (a : WireAddr) (data more : List Byte) (w : Work) (last : List Event) (s : State) : State :=
  { s with
    pins := { s.pins with sck := false, mosi := mosiAfter (a.getLsbD 0) data, csN := true }
    csActive := false
    source := { s.source with bytes := more }
    work := w
    progress := saturated (s.progress.toNat + data.length)
    frames := s.frames ++ [.pp a]
    trace := s.trace ++ headerEvents s.opcodes s.timing (.pp a) ++ data.flatMap (sendByteEvents s.timing) ++ last ++
      deassertEvents s.timing }

/-- The working registers after a PP frame that sent `data`: ADDR, END, REMAIN and CHUNK as they were. -/
def Work.inPp (a : WireAddr) (data : List Byte) (exh : Bool) (w : Work) : Work :=
  { w with shift := lastByte (a.extractLsb' 0 8) data, n := BitVec.ofNat 9 data.length, exh := exh }

theorem Work.inPp_sameRange (a : WireAddr) (data : List Byte) (exh : Bool) (w : Work) :
    (w.inPp a data exh).sameRange w := ⟨rfl, rfl, rfl⟩

theorem Work.sent_inPp (a : WireAddr) (data : List Byte) (exh : Bool) (w : Work) :
    Work.sent data exh { w with shift := a.extractLsb' 0 8, n := 0, exh := false } = w.inPp a data exh := by
  simp only [Work.sent, Work.inPp, BitVec.ofNat_eq_ofNat, BitVec.zero_add]

/-- The PP frame when the source has the chunk. -/
theorem reaches_pp_full (a : WireAddr) (data more : List Byte) {s : State} (hs : s.host = []) (cmd : Word)
    (rest : List Line) (hb : s.source.bytes = data ++ more) (hn : data.length = s.work.chunk.toNat) :
    Reaches (s.atPoint cmd (.wire (.pp a) :: rest))
      ((afterPp a data more (s.work.inPp a data false) [] s).atPoint cmd rest) := by
  have hl : (a.extractLsb' 0 8).getLsbD 0 = a.getLsbD 0 := by
    simp only [BitVec.getLsbD_extractLsb', Nat.zero_add]; rfl
  have r1 := reaches_header (.pp a) hs cmd rest
  simp only [frameBody, List.cons_append, List.nil_append, lastHeaderByte, Frame.address, hl] at r1
  have r2 := reaches_line (l := .beginData)
    (s := { s with
      pins := { s.pins with sck := false, mosi := a.getLsbD 0, csN := false }
      csActive := true
      work := { s.work with shift := a.extractLsb' 0 8 }
      frames := s.frames ++ [.pp a]
      trace := s.trace ++ headerEvents s.opcodes s.timing (.pp a) }) hs cmd
    (deassertSelect s.timing ++ rest) rfl
  have r3 := reaches_dataLoop_full data more
    (s := { s with
      pins := { s.pins with sck := false, mosi := a.getLsbD 0, csN := false }
      csActive := true
      work := { s.work with shift := a.extractLsb' 0 8, n := 0, exh := false }
      frames := s.frames ++ [.pp a]
      trace := s.trace ++ headerEvents s.opcodes s.timing (.pp a) }) hs cmd
    (deassertSelect s.timing ++ rest) hb (by simpa using hn) rfl rfl
  rw [Work.sent_inPp] at r3
  refine r1.trans (r2.trans (r3.trans ?_))
  refine (reaches_deassert (s := _) ?_ cmd rest).trans ?_
  · exact hs
  · simp only [afterPp, List.append_nil]
    exact Reaches.refl _

/-- The PP frame when the source ends inside the chunk. -/
theorem reaches_pp_short (a : WireAddr) (data : List Byte) {s : State} (hs : s.host = []) (cmd : Word)
    (rest : List Line) (hb : s.source.bytes = data) (hend : s.source.ended = true)
    (hn : data.length < s.work.chunk.toNat) :
    Reaches (s.atPoint cmd (.wire (.pp a) :: rest))
      ((afterPp a data [] (s.work.inPp a data true) [.pull none] s).atPoint cmd rest) := by
  have hl : (a.extractLsb' 0 8).getLsbD 0 = a.getLsbD 0 := by
    simp only [BitVec.getLsbD_extractLsb', Nat.zero_add]; rfl
  have r1 := reaches_header (.pp a) hs cmd rest
  simp only [frameBody, List.cons_append, List.nil_append, lastHeaderByte, Frame.address, hl] at r1
  have r2 := reaches_line (l := .beginData)
    (s := { s with
      pins := { s.pins with sck := false, mosi := a.getLsbD 0, csN := false }
      csActive := true
      work := { s.work with shift := a.extractLsb' 0 8 }
      frames := s.frames ++ [.pp a]
      trace := s.trace ++ headerEvents s.opcodes s.timing (.pp a) }) hs cmd
    (deassertSelect s.timing ++ rest) rfl
  have r3 := reaches_dataLoop_short data
    (s := { s with
      pins := { s.pins with sck := false, mosi := a.getLsbD 0, csN := false }
      csActive := true
      work := { s.work with shift := a.extractLsb' 0 8, n := 0, exh := false }
      frames := s.frames ++ [.pp a]
      trace := s.trace ++ headerEvents s.opcodes s.timing (.pp a) }) hs cmd
    (deassertSelect s.timing ++ rest) hb hend (by simpa using hn) rfl rfl
  rw [Work.sent_inPp] at r3
  refine r1.trans (r2.trans (r3.trans ?_))
  refine (reaches_deassert (s := _) ?_ cmd rest).trans ?_
  · exact hs
  · simp only [afterPp, List.append_assoc]
    exact Reaches.refl _

/-! ### The busy-wait as a whole -/

/-- The state after a busy-wait that read `statuses`. -/
def afterPolls (statuses : List Byte) (d : Device) (w : Work) (p : BitVec 32) (s : State) : State :=
  { s with
    pins := { s.pins with sck := false, mosi := s.opcodes.rdsr.getLsbD 0, csN := true }
    csActive := false
    device := d
    work := w
    progress := p
    frames := s.frames ++ List.replicate statuses.length .rdsr
    trace := s.trace ++ pollEvents s.opcodes s.timing statuses }

theorem Work.samePlan_polls (w : Work) (p : BitVec 32) : Work.samePlan { w with polls := p } w :=
  ⟨rfl, rfl, rfl, rfl, rfl⟩

theorem Work.samePlan.trans {a b c : Work} (h : a.samePlan b) (k : b.samePlan c) : a.samePlan c :=
  ⟨h.1.trans k.1, h.2.1.trans k.2.1, h.2.2.1.trans k.2.2.1, h.2.2.2.1.trans k.2.2.2.1, h.2.2.2.2.trans k.2.2.2.2⟩

/-- A busy-wait that ends READY. -/
theorem reaches_busyWait_ready (count : Bool) (busy : List Byte) (ready : Byte) {s : State} (hs : s.host = []) (cmd : Word)
    (rest : List Line) {d : Device} (hd : s.device = d.answering (busy ++ [ready]))
    (hbusy : ∀ b ∈ busy, b.getLsbD 0 = true) (hready : ready.getLsbD 0 = false)
    (hlim : s.pollLimit = 0 ∨ busy.length < s.pollLimit.toNat) :
    ∃ w, w.samePlan s.work ∧
      Reaches (s.atPoint cmd (busyWaitLoopLines count ++ rest))
        ((afterPolls (busy ++ [ready]) d w (if count then saturated (busy.length + 1) else s.progress) s).atPoint cmd
          rest) := by
  have r1 := reaches_line (l := .beginPoll) hs cmd (.wire .rdsr :: .polled count :: rest) rfl
  obtain ⟨w, hw, r2⟩ := reaches_pollLoop count busy ready
    (s := { s with work := { s.work with polls := 0 } }) hs cmd rest hd hbusy hready (by simpa using hlim)
  refine ⟨w, hw.trans (Work.samePlan_polls _ _), r1.trans ?_⟩
  have hz : (0 : BitVec 32).toNat = 0 := rfl
  simp only [hz, Nat.zero_add] at r2
  simp only [afterPolls, pollEvents, List.length_append, List.length_cons, List.length_nil, Nat.zero_add]
  exact r2

/-- The status loop on a Device that stays busy until POLL_LIMIT is reached: TIMEOUT. -/
theorem reaches_pollLoop_timeout (count : Bool) (busy : List Byte) {s : State} (hs : s.host = []) (cmd : Word)
    (rest : List Line) {d : Device} (hd : s.device = d.answering busy) (hbusy : ∀ b ∈ busy, b.getLsbD 0 = true)
    (hne : busy ≠ []) (hlim : s.pollLimit ≠ 0) (hn : s.work.polls.toNat + busy.length = s.pollLimit.toNat) :
    ∃ w, Reaches (s.atPoint cmd (.wire .rdsr :: .polled count :: rest))
      (complete .timeout
        (afterPolls busy d w (if count then s.pollLimit else s.progress) s)) := by
  induction busy generalizing s with
  | nil => exact absurd rfl hne
  | cons b busy ih =>
    have hpl := s.pollLimit.isLt
    have r1 := reaches_rdsr hs cmd (.polled count :: rest)
    have hw : wip (afterStatusRead s) = true := by
      rw [wip_afterStatusRead (bs := busy) (b := b) (d := d) hd]
      exact hbusy b List.mem_cons_self
    have hl0 : (s.pollLimit != 0) = true := bne_iff_ne.mpr hlim
    simp only [List.length_cons] at hn
    cases busy with
    | nil =>
      simp only [List.length_nil] at hn
      have hp : countUp s.work.polls = s.pollLimit := by
        rw [countUp_eq_saturated, hn, saturated_self]
      have hlr : pollLimitReached (afterPolled count (afterStatusRead s)) = true := by
        rw [pollLimitReached_afterPolled]
        show (s.pollLimit != 0 && decide (s.pollLimit ≤ countUp s.work.polls)) = true
        rw [hp, hl0]
        simp
      have r2 := reaches_polled_timeout count (s := afterStatusRead s) hs cmd rest hw hlr
      rw [afterStatusRead_answering (bs := []) (b := b) (d := d) hd] at r1 r2
      simp only [afterPolled, hp] at r2
      refine ⟨{ s.work with shift := b, polls := s.pollLimit }, r1.trans ?_⟩
      simp only [afterPolls, pollEvents, List.flatMap_cons, List.flatMap_nil, List.append_nil, List.length_cons,
        List.length_nil, Nat.zero_add, List.replicate_one]
      exact r2
    | cons b' busy =>
      have hlr : pollLimitReached (afterPolled count (afterStatusRead s)) = false := by
        rw [pollLimitReached_afterPolled]
        show (s.pollLimit != 0 && decide (s.pollLimit ≤ countUp s.work.polls)) = false
        rw [Bool.and_eq_false_iff]
        right
        simp only [List.length_cons] at hn
        rw [decide_eq_false_iff_not, BitVec.le_def, countUp_eq_saturated, saturated_toNat]
        omega
      have r2 := reaches_polled_again count (s := afterStatusRead s) hs cmd rest hw hlr
      rw [afterStatusRead_answering (bs := b' :: busy) (b := b) (d := d) hd] at r1 r2
      simp only [afterPolled] at r2
      obtain ⟨w, r3⟩ := ih
        (s := { s with
          pins := { s.pins with sck := false, mosi := s.opcodes.rdsr.getLsbD 0, csN := true }
          csActive := false
          device := d.answering (b' :: busy)
          work := { s.work with shift := b, polls := countUp s.work.polls }
          progress := if count then countUp s.work.polls else s.progress
          frames := s.frames ++ [.rdsr]
          trace := s.trace ++ statusReadEvents s.opcodes s.timing (bitsOf b) })
        hs rfl (fun x hx => hbusy x (List.mem_cons_of_mem _ hx)) (by simp) hlim
        (by
          simp only [List.length_cons] at hn
          simp only [countUp_eq_saturated, saturated_toNat, List.length_cons]
          omega)
      refine ⟨w, r1.trans (r2.trans ?_)⟩
      have hif : (if count then s.pollLimit else (if count then countUp s.work.polls else s.progress)) =
          if count then s.pollLimit else s.progress := by
        cases count <;> rfl
      simp only [hif] at r3
      simp only [afterPolls, pollEvents, List.flatMap_cons, List.length_cons, List.append_assoc,
        List.replicate_succ (n := busy.length + 1), List.cons_append, List.nil_append] at r3 ⊢
      exact r3

/-- A busy-wait that ends with TIMEOUT. -/
theorem reaches_busyWait_timeout (count : Bool) (busy : List Byte) {s : State} (hs : s.host = []) (cmd : Word)
    (rest : List Line) {d : Device} (hd : s.device = d.answering busy) (hbusy : ∀ b ∈ busy, b.getLsbD 0 = true)
    (hlim : s.pollLimit ≠ 0) (hn : busy.length = s.pollLimit.toNat) :
    ∃ w, Reaches (s.atPoint cmd (busyWaitLoopLines count ++ rest))
      (complete .timeout (afterPolls busy d w (if count then s.pollLimit else s.progress) s)) := by
  have r1 := reaches_line (l := .beginPoll) hs cmd (.wire .rdsr :: .polled count :: rest) rfl
  have hne : busy ≠ [] := by
    rintro rfl
    apply hlim
    apply BitVec.eq_of_toNat_eq
    rw [← hn]
    rfl
  obtain ⟨w, r2⟩ := reaches_pollLoop_timeout count busy
    (s := { s with work := { s.work with polls := 0 } }) hs cmd rest hd hbusy hne hlim (by simpa using hn)
  exact ⟨w, r1.trans r2⟩

theorem EndsReady.split {p : List Byte} {s : State} (h : EndsReady p) (hl : pollsAllowed p.length s) :
    ∃ busy ready, p = busy ++ [ready] ∧ (∀ b ∈ busy, b.getLsbD 0 = true) ∧ ready.getLsbD 0 = false ∧
      (s.pollLimit = 0 ∨ busy.length < s.pollLimit.toNat) := by
  obtain ⟨busy, ready, rfl, h1, h2⟩ := h
  refine ⟨busy, ready, rfl, h1, h2, ?_⟩
  rcases hl with h | h
  · exact .inl h
  · right
    rw [List.length_append, List.length_singleton] at h
    omega

/-- A busy-wait inside PROGRAM or EraseRange that ends READY. -/
theorem reaches_quietWait_ready {p : List Byte} {s : State} (hs : s.host = []) (hp : EndsReady p)
    (hl : pollsAllowed p.length s) (cmd : Word) (rest : List Line) {d : Device} (hd : s.device = d.answering p) :
    ∃ w, w.samePlan s.work ∧
      Reaches (s.atPoint cmd (busyWaitLoopLines false ++ rest)) ((afterPolls p d w s.progress s).atPoint cmd rest) := by
  obtain ⟨busy, ready, rfl, h1, h2, h3⟩ := hp.split hl
  exact reaches_busyWait_ready false busy ready hs cmd rest hd h1 h2 h3

theorem answering_append (p q : List Byte) (d : Device) :
    d.answering (p ++ q) = (d.answering q).answering p := by
  simp only [Device.answering, List.flatMap_append, List.append_assoc]

theorem Device.answering_nil (d : Device) : d.answering [] = d := rfl

/-! ### One pass of PROGRAM's loop (R165) -/

theorem chunkOf_toNat (r : BitVec 29) : (chunkOf r).toNat = min r.toNat 256 := by
  rw [chunkOf, BitVec.toNat_ofNat, Nat.mod_eq_of_lt (by simp only [Config.pageSize]; omega)]

/-- The state after one WREN/PP pair and its busy-wait. -/
def afterChunk (data more : List Byte) (last : List Event) (p : List Byte) (d : Device) (w : Work) (s : State) : State :=
  { s with
    pins := { s.pins with sck := false, mosi := s.opcodes.rdsr.getLsbD 0, csN := true }
    csActive := false
    device := d
    source := { s.source with bytes := more }
    work := w
    progress := saturated (s.progress.toNat + data.length)
    frames := s.frames ++ ([.wren, .pp (wireAddr s.work.addr)] ++ List.replicate p.length .rdsr)
    trace := s.trace ++ chunkEvents s.opcodes s.timing s.work.addr data last p }

theorem afterPolls_eq_afterChunk (data more : List Byte) (last : List Event) (p : List Byte) (d : Device) (v w : Work)
    (s : State) :
    afterPolls p d w (saturated (s.progress.toNat + data.length))
      (afterPp (wireAddr s.work.addr) data more v last (afterPlainFrame .wren s)) =
    afterChunk data more last p d w s := by
  simp only [afterPolls, afterPp, afterPlainFrame, afterChunk, chunkEvents, List.append_assoc, List.cons_append,
    List.nil_append]

/-- The WREN/PP pair with its chunk of data, up to the busy-wait. -/
theorem reaches_pair_full (data more : List Byte) {s : State} (hs : s.host = []) (cmd : Word) (rest : List Line)
    (hb : s.source.bytes = data ++ more) (hn : data.length = s.work.chunk.toNat) :
    ∃ v, v.sameRange s.work ∧ v.exh = false ∧
      Reaches (s.atPoint cmd (chunkLines s.work.addr ++ rest))
        ((afterPp (wireAddr s.work.addr) data more v [] (afterPlainFrame .wren s)).atPoint cmd
          (busyWaitLoopLines false ++ (.nextChunk :: rest))) := by
  have r1 := reaches_plain (f := .wren) (fun _ => rfl) hs cmd
    (.wire (.pp (wireAddr s.work.addr)) :: (busyWaitLoopLines false ++ (.nextChunk :: rest)))
  have r2 := reaches_pp_full (wireAddr s.work.addr) data more (s := afterPlainFrame .wren s) hs cmd
    (busyWaitLoopLines false ++ (.nextChunk :: rest)) hb hn
  exact ⟨_, Work.inPp_sameRange _ _ _ _, rfl, r1.trans r2⟩

/-- The WREN/PP pair in which the source ends, up to the busy-wait. -/
theorem reaches_pair_short (data : List Byte) {s : State} (hs : s.host = []) (cmd : Word) (rest : List Line)
    (hb : s.source.bytes = data) (hend : s.source.ended = true) (hn : data.length < s.work.chunk.toNat) :
    ∃ v, v.sameRange s.work ∧ v.exh = true ∧
      Reaches (s.atPoint cmd (chunkLines s.work.addr ++ rest))
        ((afterPp (wireAddr s.work.addr) data [] v [.pull none] (afterPlainFrame .wren s)).atPoint cmd
          (busyWaitLoopLines false ++ (.nextChunk :: rest))) := by
  have r1 := reaches_plain (f := .wren) (fun _ => rfl) hs cmd
    (.wire (.pp (wireAddr s.work.addr)) :: (busyWaitLoopLines false ++ (.nextChunk :: rest)))
  have r2 := reaches_pp_short (wireAddr s.work.addr) data (s := afterPlainFrame .wren s) hs cmd
    (busyWaitLoopLines false ++ (.nextChunk :: rest)) hb hend hn
  exact ⟨_, Work.inPp_sameRange _ _ _ _, rfl, r1.trans r2⟩

/-- A chunk whose data and READY come: the loop's next test. -/
theorem reaches_chunk_ready (data more p : List Byte) {s : State} (hs : s.host = []) (cmd : Word) (rest : List Line)
    (hb : s.source.bytes = data ++ more) (hn : data.length = s.work.chunk.toNat)
    (hr : data.length ≤ s.work.remain.toNat) (hp : EndsReady p) (hl : pollsAllowed p.length s) {d : Device}
    (hd : s.device = d.answering p) :
    ∃ w : Work, w.addr = s.work.addr + s.work.chunk.setWidth 33 ∧ w.remain.toNat = s.work.remain.toNat - data.length ∧
      (w.remain ≠ 0 → w.chunk = chunkOf w.remain) ∧
      Reaches (s.atPoint cmd (chunkLines s.work.addr ++ rest))
        (State.atPoint cmd (chunkLoop (afterChunk data more [] p d w s) ++ rest) (afterChunk data more [] p d w s)) := by
  obtain ⟨v, hv, he, r1⟩ := reaches_pair_full data more hs cmd rest hb hn
  obtain ⟨x, hx, r2⟩ := reaches_quietWait_ready (p := p)
    (s := afterPp (wireAddr s.work.addr) data more v [] (afterPlainFrame .wren s)) hs hp hl cmd (.nextChunk :: rest) hd
  have hxe : x.exh = false := hx.2.2.2.2.trans he
  have hpr : (afterPp (wireAddr s.work.addr) data more v [] (afterPlainFrame .wren s)).progress =
    saturated (s.progress.toNat + data.length) := rfl
  rw [hpr, afterPolls_eq_afterChunk] at r2
  have r3 := reaches_line (l := .nextChunk) (s := afterChunk data more [] p d x s) hs cmd rest
    (by simp only [raises, afterChunk, hxe]; rfl)
  have ha : x.addr = s.work.addr := hx.1.trans hv.1
  have hrem : x.remain = s.work.remain := hx.2.2.1.trans hv.2.1
  have hch : x.chunk = s.work.chunk := hx.2.2.2.1.trans hv.2.2
  refine ⟨Work.enterChunk
    { x with
      addr := x.addr + x.chunk.setWidth 33
      remain := x.remain - x.chunk.setWidth 29 }, ?_, ?_, ?_, r1.trans (r2.trans r3)⟩
  · unfold Work.enterChunk
    split <;> simp only [ha, hch]
  · have hc9 := s.work.chunk.isLt
    have hr29 := s.work.remain.isLt
    have hsw : (s.work.chunk.setWidth 29).toNat = s.work.chunk.toNat := by
      rw [BitVec.toNat_setWidth, Nat.mod_eq_of_lt]; omega
    have : (x.remain - x.chunk.setWidth 29).toNat = s.work.remain.toNat - data.length := by
      rw [hrem, hch, BitVec.toNat_sub, hsw, hn]
      omega
    unfold Work.enterChunk
    split <;> exact this
  · unfold Work.enterChunk
    split
    · rename_i h
      intro h'
      exact absurd h h'
    · intro _
      rfl

/-! ### One pass of EraseRange's loop (R170) -/

/-- The state after one WREN/SE pair and its busy-wait. -/
def afterSector (p : List Byte) (d : Device) (w : Work) (s : State) : State :=
  { s with
    pins := { s.pins with sck := false, mosi := s.opcodes.rdsr.getLsbD 0, csN := true }
    csActive := false
    device := d
    work := w
    progress := countUp s.progress
    frames := s.frames ++ ([.wren, .se (wireAddr s.work.addr)] ++ List.replicate p.length .rdsr)
    trace := s.trace ++ sectorEvents s.opcodes s.timing s.work.addr p }

/-- The WREN/SE pair and its count, up to the busy-wait. -/
theorem reaches_sectorPair {s : State} (hs : s.host = []) (cmd : Word) (rest : List Line) :
    ∃ v, v.samePlan s.work ∧
      Reaches (s.atPoint cmd (sectorLines s.work.addr ++ rest))
        (State.atPoint cmd (busyWaitLoopLines false ++ (.nextSector :: rest))
          { s with
            pins := { s.pins with sck := false, mosi := (lastHeaderByte s.opcodes (.se (wireAddr s.work.addr))).getLsbD 0,
                                  csN := true }
            csActive := false
            work := v
            progress := countUp s.progress
            frames := s.frames ++ [.wren, .se (wireAddr s.work.addr)]
            trace := s.trace ++ plainFrameEvents s.opcodes s.timing .wren ++
              plainFrameEvents s.opcodes s.timing (.se (wireAddr s.work.addr)) }) := by
  have r1 := reaches_plain (f := .wren) (fun _ => rfl) hs cmd
    (.wire (.se (wireAddr s.work.addr)) :: .countSector :: (busyWaitLoopLines false ++ (.nextSector :: rest)))
  have r2 := reaches_plain (f := .se (wireAddr s.work.addr)) (fun _ => rfl) (s := afterPlainFrame .wren s) hs cmd
    (.countSector :: (busyWaitLoopLines false ++ (.nextSector :: rest)))
  have r3 := reaches_line (l := .countSector)
    (s := afterPlainFrame (.se (wireAddr s.work.addr)) (afterPlainFrame .wren s)) hs cmd
    (busyWaitLoopLines false ++ (.nextSector :: rest)) rfl
  refine ⟨{ s.work with shift := lastHeaderByte s.opcodes (.se (wireAddr s.work.addr)) }, ⟨rfl, rfl, rfl, rfl, rfl⟩,
    r1.trans (r2.trans (r3.trans ?_))⟩
  simp only [effect, expand, afterPlainFrame, List.append_assoc, List.cons_append, List.nil_append]
  exact Reaches.refl _

/-- A sector whose READY comes: the loop's next test. -/
theorem reaches_sector_ready (p : List Byte) {s : State} (hs : s.host = []) (cmd : Word) (rest : List Line)
    (hp : EndsReady p) (hl : pollsAllowed p.length s) {d : Device} (hd : s.device = d.answering p) :
    ∃ w : Work, w.addr = s.work.addr + BitVec.ofNat 33 Config.sectorSize ∧ w.endAddr = s.work.endAddr ∧
      Reaches (s.atPoint cmd (sectorLines s.work.addr ++ rest))
        (State.atPoint cmd (sectorLoop (afterSector p d w s) ++ rest) (afterSector p d w s)) := by
  obtain ⟨v, hv, r1⟩ := reaches_sectorPair hs cmd rest
  obtain ⟨x, hx, r2⟩ := reaches_quietWait_ready (p := p)
    (s := { s with
      pins := { s.pins with sck := false, mosi := (lastHeaderByte s.opcodes (.se (wireAddr s.work.addr))).getLsbD 0,
                            csN := true }
      csActive := false
      work := v
      progress := countUp s.progress
      frames := s.frames ++ [.wren, .se (wireAddr s.work.addr)]
      trace := s.trace ++ plainFrameEvents s.opcodes s.timing .wren ++
        plainFrameEvents s.opcodes s.timing (.se (wireAddr s.work.addr)) }) hs hp hl cmd (.nextSector :: rest) hd
  have r3 := reaches_line (l := .nextSector) (s := afterSector p d x s) hs cmd rest rfl
  refine ⟨{ x with addr := x.addr + BitVec.ofNat 33 Config.sectorSize }, ?_, ?_, r1.trans (r2.trans ?_)⟩
  · simp only [hx.1, hv.1]
  · exact hx.2.1.trans hv.2.1
  · simp only [afterPolls, List.append_assoc]
    simp only [afterSector, sectorEvents, List.append_assoc] at r3
    simp only [afterSector, sectorEvents, List.append_assoc]
    exact r3

end Sys2Proof.Machine
end

