-- ==== Sys2Proof/Laws/PerInstr.lean ====
section
/-! SUPPORT. The family `Codec`, constructor by constructor: an encoded instruction decodes to itself, with every operand at every value. -/

namespace Sys2Proof.Laws.Codec

open Sys2Proof

/-- Decoding an encoded instruction gives it back, whatever eight distinct values the opcode parameters have. -/
def Statement (i : Instr) : Prop := ∀ o, opcodesDistinct o → decode o (encode o i) = .ok i

/-! ### The fields of a command word -/

theorem codeOf_append (arg : BitVec 24) (code : Byte) : codeOf (arg ++ code : Word) = code := by
  apply BitVec.eq_of_getLsbD_eq
  intro i hi
  rw [codeOf, BitVec.getLsbD_extractLsb', BitVec.getLsbD_append]
  simp only [hi, decide_true, Nat.zero_add, Bool.true_and, if_true]

theorem kOf_append (k : BitVec 16) (code : Byte) : kOf (((0#8 ++ k : BitVec 24) ++ code : Word)) = k := by
  apply BitVec.eq_of_getLsbD_eq
  intro i hi
  have h8 : ¬ 8 + i < 8 := by omega
  have hs : 8 + i - 8 = i := by omega
  simp only [kOf, BitVec.getLsbD_extractLsb', BitVec.getLsbD_append, hi, h8, hs, decide_true, Bool.true_and,
    if_true, if_false]

theorem pOf_append (p : Bool) (code : Byte) : pOf (((0#23 ++ BitVec.ofBool p : BitVec 24) ++ code : Word)) = p := by
  have h8 : ¬ 8 < 8 := by omega
  simp only [pOf, BitVec.getLsbD_append, h8, if_false]
  cases p <;> rfl

theorem dataOf_append (d : Byte) (code : Byte) : dataOf (((0#16 ++ d : BitVec 24) ++ code : Word)) = d := by
  apply BitVec.eq_of_getLsbD_eq
  intro i hi
  have h8 : ¬ 8 + i < 8 := by omega
  have hs : 8 + i - 8 = i := by omega
  simp only [dataOf, BitVec.getLsbD_extractLsb', BitVec.getLsbD_append, hi, h8, hs, decide_true, Bool.true_and,
    if_true, if_false]

/-! ### The masks -/

theorem setClock_match (k : BitVec 16) : encodeCommand (.setClock k) &&& 0xFF0000FF#32 = 0x00000002#32 := by
  apply BitVec.eq_of_getLsbD_eq
  intro i hi
  simp only [encodeCommand, BitVec.getLsbD_and, BitVec.getLsbD_append]
  by_cases h8 : i < 8
  · simp only [h8, if_true]
    have : i = 0 ∨ i = 1 ∨ i = 2 ∨ i = 3 ∨ i = 4 ∨ i = 5 ∨ i = 6 ∨ i = 7 := by omega
    rcases this with h | h | h | h | h | h | h | h <;> subst h <;> rfl
  · by_cases h24 : i < 24
    · have hm : (0xFF0000FF#32).getLsbD i = false ∧ (0x00000002#32).getLsbD i = false := by
        have : i = 8 ∨ i = 9 ∨ i = 10 ∨ i = 11 ∨ i = 12 ∨ i = 13 ∨ i = 14 ∨ i = 15 ∨ i = 16 ∨ i = 17 ∨ i = 18 ∨
          i = 19 ∨ i = 20 ∨ i = 21 ∨ i = 22 ∨ i = 23 := by omega
        rcases this with h | h | h | h | h | h | h | h | h | h | h | h | h | h | h | h <;> subst h <;> exact ⟨rfl, rfl⟩
      rw [hm.1, hm.2, Bool.and_false]
    · have hk : ¬ i - 8 < 16 := by omega
      have hm : (0x00000002#32).getLsbD i = false := by
        have : i = 24 ∨ i = 25 ∨ i = 26 ∨ i = 27 ∨ i = 28 ∨ i = 29 ∨ i = 30 ∨ i = 31 := by omega
        rcases this with h | h | h | h | h | h | h | h <;> subst h <;> rfl
      simp only [h8, hk, if_false, hm, BitVec.getLsbD_zero, Bool.false_and]

theorem txByte_match : ∀ d : Byte, encodeCommand (.txByte d) &&& 0xFFFF00FF#32 = 0x00000012#32 := by decide

theorem decodeCommand_setClock (k : BitVec 16) : decodeCommand (encodeCommand (.setClock k)) = .command (.setClock k) := by
  have hc : codeOf (encodeCommand (.setClock k)) = 0x02#8 := codeOf_append _ _
  have hf : commandRows.find? (fun r => r.code == 0x02#8) = some ⟨0x02, 0x00000002, 0xFF0000FF⟩ := by decide
  have hm : commandOfCode (encodeCommand (.setClock k)) = some (.setClock k) := by
    rw [commandOfCode, hc]
    show some (Command.setClock (kOf (encodeCommand (.setClock k)))) = _
    rw [encodeCommand, kOf_append]
  simp only [decodeCommand, hc, hf, hm]
  exact if_pos (setClock_match k)

theorem decodeCommand_txByte (d : Byte) : decodeCommand (encodeCommand (.txByte d)) = .command (.txByte d) := by
  have hc : codeOf (encodeCommand (.txByte d)) = 0x12#8 := codeOf_append _ _
  have hf : commandRows.find? (fun r => r.code == 0x12#8) = some ⟨0x12, 0x00000012, 0xFFFF00FF⟩ := by decide
  have hm : commandOfCode (encodeCommand (.txByte d)) = some (.txByte d) := by
    rw [commandOfCode, hc]
    show some (Command.txByte (dataOf (encodeCommand (.txByte d)))) = _
    rw [encodeCommand, dataOf_append]
  simp only [decodeCommand, hc, hf, hm]
  exact if_pos (txByte_match d)

/-- The command decoder on an encoded command. -/
theorem decodeCommand_encodeCommand (c : Command) : decodeCommand (encodeCommand c) = .command c := by
  cases c with
  | setClock k => exact decodeCommand_setClock k
  | txByte d => exact decodeCommand_txByte d
  | setWp p => cases p <;> decide
  | nop => decide
  | init => decide
  | csAssert => decide
  | csDeassert => decide
  | rxByte => decide
  | identify => decide
  | read => decide
  | program => decide
  | erase => decide
  | busyWait => decide

theorem of_command {i : Instr} (c : Command) (he : ∀ o, encode o i = .command (encodeCommand c)) (hi : c.instr = i) :
    Statement i := by
  intro o _
  rw [he, decode, decodeCommand_encodeCommand, ← hi]

/-! ### The frame header -/

theorem addrBytes_join (a : WireAddr) : (a.extractLsb' 16 8 ++ a.extractLsb' 8 8 ++ a.extractLsb' 0 8 : WireAddr) = a := by
  apply BitVec.eq_of_getLsbD_eq
  intro i hi
  simp only [BitVec.getLsbD_append, BitVec.getLsbD_extractLsb']
  by_cases h8 : i < 8
  · simp only [h8, if_true, decide_true, Bool.true_and, Nat.zero_add]
  · by_cases h16 : i < 16
    · have h : i - 8 < 8 := by omega
      have e : 8 + (i - 8) = i := by omega
      simp only [h8, h, e, if_true, if_false, decide_true, Bool.true_and]
    · have h : ¬ i - 8 < 8 := by omega
      have h' : i - 8 - 8 < 8 := by omega
      have e : 16 + (i - 8 - 8) = i := by omega
      simp only [h8, h, h', e, if_false, decide_true, Bool.true_and]

theorem decodeFrame_header (f : Frame) {o : Config.Opcodes} (h : opcodesDistinct o) :
    decodeFrame o (f.header o) = .ok f := by
  simp only [opcodesDistinct, List.nodup_cons, List.mem_cons, List.not_mem_nil, or_false, not_or] at h
  obtain ⟨⟨h1, h2, h3, h4, h5, h6, h7⟩, ⟨h8, h9, h10, h11, h12, h13⟩, ⟨h14, h15, h16, h17, h18⟩, ⟨h19, h20, h21, h22⟩,
    ⟨h23, h24, h25⟩, ⟨h26, h27⟩, h28, -, -⟩ := h
  cases f <;>
    simp only [Frame.header, Frame.opcode, Frame.addressBytes, Frame.address, addrBytes, decodeFrame, decodeFrame.plain,
      decodeFrame.addressed, addrBytes_join, if_true, Ne.symm h1, Ne.symm h2, Ne.symm h3, Ne.symm h4, Ne.symm h5,
      Ne.symm h6, Ne.symm h7, Ne.symm h8, Ne.symm h9, Ne.symm h10, Ne.symm h11, Ne.symm h12, Ne.symm h13, Ne.symm h14,
      Ne.symm h15, Ne.symm h16, Ne.symm h17, Ne.symm h18, Ne.symm h19, Ne.symm h20, Ne.symm h21, Ne.symm h22,
      Ne.symm h23, Ne.symm h24, h25, Ne.symm h26, h27, h28, if_false]
  all_goals simp only [Ne.symm h25, if_false]

theorem of_frame {i : Instr} (f : Frame) (he : ∀ o, encode o i = .frame (f.header o)) (hi : f.instr = i) :
    Statement i := by
  intro o ho
  rw [he, decode, decodeFrame_header f ho, ← hi]

/-! ### The descriptor -/

theorem rd_join (a : Byte) : (0#1 ++ a : BitVec 9).extractLsb' 0 8 = a ∧ (0#1 ++ a : BitVec 9).getLsbD 8 = false := by
  revert a
  decide

theorem wr_join (a : Byte) : (1#1 ++ a : BitVec 9).extractLsb' 0 8 = a ∧ (1#1 ++ a : BitVec 9).getLsbD 8 = true := by
  revert a
  decide

/-! ### The family -/

theorem nop : Statement .nop := of_command .nop (fun _ => rfl) rfl
theorem init : Statement .init := of_command .init (fun _ => rfl) rfl
theorem setClock (k : BitVec 16) : Statement (.setClock k) := of_command (.setClock k) (fun _ => rfl) rfl
theorem setWp (p : Bool) : Statement (.setWp p) := of_command (.setWp p) (fun _ => rfl) rfl
theorem csAssert : Statement .csAssert := of_command .csAssert (fun _ => rfl) rfl
theorem csDeassert : Statement .csDeassert := of_command .csDeassert (fun _ => rfl) rfl
theorem txByte (d : Byte) : Statement (.txByte d) := of_command (.txByte d) (fun _ => rfl) rfl
theorem rxByte : Statement .rxByte := of_command .rxByte (fun _ => rfl) rfl
theorem identify : Statement .identify := of_command .identify (fun _ => rfl) rfl
theorem read : Statement .read := of_command .read (fun _ => rfl) rfl
theorem program : Statement .program := of_command .program (fun _ => rfl) rfl
theorem erase : Statement .erase := of_command .erase (fun _ => rfl) rfl
theorem busyWait : Statement .busyWait := of_command .busyWait (fun _ => rfl) rfl

theorem rd (a : Byte) : Statement (.rd a) := by
  intro o _
  simp only [encode, decode, decodeAccess, rd_join, Bool.false_eq_true, if_false]

theorem wr (a : Byte) (v : Word) : Statement (.wr a v) := by
  intro o _
  simp only [encode, decode, decodeAccess, wr_join, if_true]

theorem rdid : Statement .rdid := of_frame .rdid (fun _ => rfl) rfl
theorem readData (a : WireAddr) : Statement (.readData a) := of_frame (.readData a) (fun _ => rfl) rfl
theorem wren : Statement .wren := of_frame .wren (fun _ => rfl) rfl
theorem pp (a : WireAddr) : Statement (.pp a) := of_frame (.pp a) (fun _ => rfl) rfl
theorem se (a : WireAddr) : Statement (.se a) := of_frame (.se a) (fun _ => rfl) rfl
theorem be (a : WireAddr) : Statement (.be a) := of_frame (.be a) (fun _ => rfl) rfl
theorem ce : Statement .ce := of_frame .ce (fun _ => rfl) rfl
theorem rdsr : Statement .rdsr := of_frame .rdsr (fun _ => rfl) rfl

end Sys2Proof.Laws.Codec
end

