-- ==== Sys2Proof/Tests/Slice0.lean ====
section
/-! SUPPORT. The model's own tests. Expected results come from spec/95_test_vectors.md and the encoding tables of spec/30_encoding.md, never from the model. Then, for each obligation that has hypotheses, a witness that meets them together. -/

namespace Sys2Proof.Tests

open Sys2Proof.Machine

/-! ## Helpers -/

/-- What a next state shows under `f`; nothing for a fault or a refusal. -/
def seen {α : Type} (o : Out) (f : State → α) : Option α :=
  match o with
  | .next t => some (f t)
  | .fault _ => none
  | .refused _ => none

/-- The lines a running sequencer still has. -/
def point (s : State) : List Line :=
  match s.seq with
  | .idle => []
  | .running _ ls => ls

/-- The level a line shifts out on MOSI, if it is such a line. -/
def bitOut : Line → Option Level
  | .shiftOut v i => some (v.getLsbD i.val)
  | _ => none

/-- The levels a running sequencer has still to shift out. -/
def bitsOut (s : State) : List Level := (point s).filterMap bitOut

/-- A command running at these lines, all else as after reset. -/
def running (ls : List Line) : State := { State.reset with busy := true, seq := .running 0 ls }

/-- A move of the outside that is due now. -/
def due (a : HostAct) : HostMove := { wait := 0, act := a }

/-- A Device that answers these bytes and then 1 for ever. -/
def answers (bytes : List Byte) : Device := Device.answering bytes { answers := [], held := some true, drawn := 0 }

/-- A source of these bytes, then end-of-input. -/
def endingSource (bytes : List Byte) : Source := { bytes := bytes, ended := true, drawn := 0 }

/-! ## Well-formedness: a term each check refuses (R77, R201, R205, R114) -/

theorem test_rd_misaligned_refused : (Instr.rd 0x06).wellFormed = false := by decide
theorem test_rd_above_window_refused : (Instr.rd 0x30).wellFormed = false := by decide
theorem test_rd_last_register_accepted : (Instr.rd 0x2C).wellFormed = true := by decide
theorem test_wr_misaligned_refused : (Instr.wr 0x0E 0).wellFormed = false := by decide
theorem test_wr_above_window_refused : (Instr.wr 0x30 0).wellFormed = false := by decide
theorem test_wr_read_only_refused : (Instr.wr 0x04 1).wellFormed = false := by decide
theorem test_wr_poll_limit_accepted : (Instr.wr 0x2C 2).wellFormed = true := by decide
theorem test_se_misaligned_refused : (Instr.se 0x123456).wellFormed = false := by decide
theorem test_se_aligned_accepted : (Instr.se 0x123000).wellFormed = true := by decide

/-! ## Decoding: words written out from R101 to R103, R108 and R109 to R119 -/

theorem test_decode_nop : decodeCommand 0b00000000000000000000000000000000#32 = .command .nop := by decide
theorem test_decode_init : decodeCommand 0b00000000000000000000000000000001#32 = .command .init := by decide
theorem test_decode_setClock :
    decodeCommand 0b00000000000000000110010000000010#32 = .command (.setClock 100) := by decide
theorem test_decode_setWp : decodeCommand 0b00000000000000000000000100000011#32 = .command (.setWp true) := by decide
theorem test_decode_csAssert : decodeCommand 0b00000000000000000000000000010000#32 = .command .csAssert := by decide
theorem test_decode_csDeassert : decodeCommand 0b00000000000000000000000000010001#32 = .command .csDeassert := by decide
theorem test_decode_txByte :
    decodeCommand 0b00000000000000001010010100010010#32 = .command (.txByte 0xA5) := by decide
theorem test_decode_rxByte : decodeCommand 0b00000000000000000000000000010011#32 = .command .rxByte := by decide
theorem test_decode_identify : decodeCommand 0b00000000000000000000000000100000#32 = .command .identify := by decide
theorem test_decode_read : decodeCommand 0b00000000000000000000000000100001#32 = .command .read := by decide
theorem test_decode_program : decodeCommand 0b00000000000000000000000000100010#32 = .command .program := by decide
theorem test_decode_erase : decodeCommand 0b00000000000000000000000000100011#32 = .command .erase := by decide
theorem test_decode_busyWait : decodeCommand 0b00000000000000000000000000100100#32 = .command .busyWait := by decide
theorem test_decode_rd : decodeAccess 0b000000100#9 0 = .rd 0x04 := by decide
theorem test_decode_wr : decodeAccess 0b100001100#9 0x12345678 = .wr 0x0C 0x12345678 := by decide
theorem test_decode_rdid : decode Config.defaultOpcodes (.frame [0x9F]) = .ok .rdid := rfl
theorem test_decode_readData :
    decode Config.defaultOpcodes (.frame [0x03, 0xAB, 0xCD, 0xEF]) = .ok (.readData 0xABCDEF) := rfl
theorem test_decode_wren : decode Config.defaultOpcodes (.frame [0x06]) = .ok .wren := rfl
theorem test_decode_pp :
    decode Config.defaultOpcodes (.frame [0x02, 0x00, 0x01, 0x00]) = .ok (.pp 0x000100) := rfl
theorem test_decode_se :
    decode Config.defaultOpcodes (.frame [0x20, 0x00, 0x10, 0x00]) = .ok (.se 0x001000) := rfl
theorem test_decode_be :
    decode Config.defaultOpcodes (.frame [0xD8, 0x01, 0x00, 0x00]) = .ok (.be 0x010000) := rfl
theorem test_decode_ce : decode Config.defaultOpcodes (.frame [0xC7]) = .ok .ce := rfl
theorem test_decode_rdsr : decode Config.defaultOpcodes (.frame [0x05]) = .ok .rdsr := rfl

/-- L2.10: the unassigned codes at the edges of R105's ranges. -/
theorem test_decode_illegal :
    decodeCommand 0x00000004 = .illegal ∧ decodeCommand 0x0000000F = .illegal ∧ decodeCommand 0x00000014 = .illegal ∧
      decodeCommand 0x0000001F = .illegal ∧ decodeCommand 0x00000025 = .illegal ∧ decodeCommand 0x000000FF = .illegal ∧
      decodeCommand 0x00000105 = .illegal := by decide

/-- L2.1, L2.3, L2.4, L2.10: reserved ARG bits. -/
theorem test_decode_reserved :
    decodeCommand 0x00000100 = .reserved ∧ decodeCommand 0x01000002 = .reserved ∧ decodeCommand 0x00000203 = .reserved ∧
      decodeCommand 0x01009F12 = .reserved ∧ decodeCommand 0x01000012 = .reserved := by decide

/-! ## One step of each instruction -/

/-- L2.3 row 1: NOP has no event of its own: nothing but `finish(OK)` is left. -/
theorem test_nop_has_no_line : seen (exec .nop State.reset) point = some [] := by decide

/-- L2.3 row 6: INIT's four pin writes. -/
theorem test_init_lines :
    seen (exec .init State.reset) point =
      some [.drive .sck false, .drive .mosi false, .drive .csN true, .drive .wpN false] := by decide

/-- L2.1: the TIMING words of K = 0, 1, 3, 7, 100, 500, 1000. -/
theorem test_setClock_timing :
    [0, 1, 3, 7, 100, 500, 1000].map (fun k => timingWord { State.reset with timing := configureTiming k }) =
      [0x00000000, 0x1F47D1F4, 0x0A6298A6, 0x04711C47, 0x00501405, 0x00100401, 0x00100401] := by decide

/-- L2.1: K = 1001 is BAD_ARG. -/
theorem test_setClock_limit : seen (exec (.setClock 1001) State.reset) point = some [.raise .badArg] := by decide

/-- L2.3 rows 3 and 4: SET_WP 0 drives WP_N to 1, SET_WP 1 to 0. -/
theorem test_setWp_polarity :
    seen (exec (.setWp false) State.reset) point = some [.drive .wpN true] ∧
      seen (exec (.setWp true) State.reset) point = some [.drive .wpN false] := by decide

/-- L2.4 row 1: CS_ASSERT's pin write sets CS_ACTIVE, STATUS bit 9. -/
theorem test_csAssert_status :
    seen (step (running [.drive .csN false])) (fun t => (statusWord t, t.pins.csN)) = some (0x00000201, false) := by
  decide

/-- L2.4 row 8: CONFIG = 0x100 does not stop CS_ASSERT. -/
theorem test_csAssert_ignores_proto :
    seen (exec .csAssert { State.reset with proto := .series24 }) point = some [.drive .csN false] := by decide

/-- L2.4 row 7: CS_DEASSERT on a dual-lane CONFIG is UNSUPPORTED. -/
theorem test_csDeassert_checks_iface :
    seen (exec .csDeassert { State.reset with iface := .dualLane }) point = some [.raise .unsupported] := by decide

/-- L2.4 row 2: the pin write of CS_DEASSERT. -/
theorem test_csDeassert_lines : seen (exec .csDeassert State.reset) point = some [.drive .csN true] := by decide

/-- L2.4 row 3: TX_BYTE 0xA5 writes MOSI 1,0,1,0,0,1,0,1, in 24 pin writes. -/
theorem test_txByte_bits :
    seen (exec (.txByte 0xA5) State.reset) (fun t => (bitsOut t, (point t).length)) =
      some ([true, false, true, false, false, true, false, true], 24) := by decide

/-- L2.4 row 4: at h = 500, 49 events. -/
theorem test_txByte_delays :
    seen (exec (.txByte 0xA5) { State.reset with timing := configureTiming 1 }) (fun t => (point t).length) = some 49 := by
  decide

/-- L2.4 row 5: samples 1,1,1,0,1,1,1,1 make 0xEF; the last one shifts in at bit 0. -/
theorem test_rxByte_last_bit :
    seen
      (step
        { running [.shiftIn 0] with
          work := { Work.reset with shift := 0x77 }, device := { answers := [true], held := none, drawn := 0 } })
      (fun t => (t.work.shift, t.device.answers)) = some (0xEF, []) := by decide

/-- L2.4 row 5: RX_BYTE stores the byte in RXDATA. -/
theorem test_rxByte_rxdata :
    seen (step { running [.writeRxData] with work := { Work.reset with shift := 0xEF } }) (readReg .rxData) =
      some 0x000000EF := by decide

/-- L1.6: the triple EF 40 18 makes CHIPID 0x801840EF. -/
theorem test_identify_chipid :
    seen (step { running [.writeChipId] with work := { Work.reset with m := 0xEF, t := 0x40, c := 0x18 } })
      (readReg .chipId) = some 0x801840EF := by decide

/-- L2.5 row 3: IDENTIFY checks PROTO. -/
theorem test_identify_checks_proto :
    seen (exec .identify { State.reset with proto := .series24 }) point = some [.raise .unsupported] := by decide

/-- L2.6 row 3: bit 24 of OFFSET is not sent. -/
theorem test_read_frame :
    seen (exec .read { State.reset with offset := 0x01ABCDEF, byteCount := 1, streamMode := .write }) point =
      some [.clearProgress, .wire (.readData 0xABCDEF)] := by decide

/-- L2.6 rows 5 and 6: BAD_ARG before the stream check, UNSUPPORTED before both. -/
theorem test_read_check_order :
    seen (exec .read { State.reset with byteCount := 0x10000001 }) point = some [.raise .badArg] ∧
      seen (exec .read { State.reset with iface := .dualLane, byteCount := 0x10000001 }) point =
        some [.raise .unsupported] := by decide

/-- L2.7 row 13: PROGRAM without a source. -/
theorem test_program_stream_mode : seen (exec .program State.reset) point = some [.raise .wrongStreamMode] := by decide

/-- L1.3: after the second chunk of 600 bytes the third goes to 0x200 with 88 bytes. -/
theorem test_program_third_chunk :
    seen (step { running [.nextChunk] with work := { Work.reset with addr := 256, remain := 344, chunk := 256 } })
      (fun t => (t.work.chunk, point t)) =
        some (88, [.wire .wren, .wire (.pp 0x000200), .beginPoll, .wire .rdsr, .polled false, .nextChunk]) := by decide

/-- L2.8 row 1: BYTECOUNT = 0 is the whole-device erase. -/
theorem test_erase_whole_device :
    seen (exec .erase State.reset) point = some [.clearProgress, .wire .wren, .wire .ce] := by decide

/-- L2.8 row 8: OFFSET 0x1234 rounds down to the sector at 0x1000, and END is 0x3234. -/
theorem test_erase_first_sector :
    seen (step { running [.beginErase] with offset := 0x1234, byteCount := 0x2000 })
      (fun t => (t.work.endAddr, (point t).take 2)) = some (0x3234, [.wire .wren, .wire (.se 0x001000)]) := by decide

/-- L2.9 row 5: status 0xFE is ready, and the read is counted. -/
theorem test_busyWait_ready :
    seen (step { running [.polled true] with work := { Work.reset with shift := 0xFE } })
      (fun t => (t.progress, point t)) = some (1, []) := by decide

/-- L2.9 row 1: the second busy status read under POLL_LIMIT = 2 times out. -/
theorem test_busyWait_timeout :
    seen (step { running [.polled true] with work := { Work.reset with shift := 0x01, polls := 1 }, pollLimit := 2 })
      (fun t => (t.progress, point t)) = some (2, [.raise .timeout]) := by decide

/-- L2.2: RD STATUS after reset reads 0. -/
theorem test_rd_status : seen (exec (.rd 0x04) State.reset) (fun t => t.reads) = some [(0x04, 0x00000000)] := by decide

/-- L2.2: RD at offset 0x30 and at 0x06 is refused. -/
theorem test_rd_refused :
    exec (.rd 0x30) State.reset = .refused .badOffset ∧ exec (.rd 0x06) State.reset = .refused .badOffset :=
  ⟨rfl, rfl⟩

/-- L2.2: WR CONFIG and WR BYTECOUNT of 0xFFFFFFFF keep 0x103 and 0x1FFFFFFF. -/
theorem test_wr_masks :
    seen (exec (.wr 0x08 0xFFFFFFFF) State.reset) (readReg .config) = some 0x00000103 ∧
      seen (exec (.wr 0x10 0xFFFFFFFF) State.reset) (readReg .byteCount) = some 0x1FFFFFFF := by decide

/-- L2.2: WR STATUS is refused, and so is any WR while BUSY = 1. -/
theorem test_wr_refused :
    exec (.wr 0x04 1) State.reset = .refused .readOnlyRegister ∧
      exec (.wr 0x0C 1) (running []) = .refused .writeWhileBusy := ⟨rfl, rfl⟩

/-- R110 and L1.6: RDID drives CS_N low and then sends 0x9F. -/
theorem test_rdid_opens :
    seen (exec .rdid (running [])) (fun t => (t.pins.csN, t.trace, bitsOut t)) =
      some (false, [.reset, .write .csN false], [true, false, false, true, true, true, true, true]) := by decide

/-- R111 and L2.6 row 1: READ sends 03 00 00 10. -/
theorem test_readData_header :
    seen (exec (.readData 0x000010) (running [])) (fun t => (bitsOut t).length) = some 32 ∧
      seen (exec (.readData 0x000010) (running [])) (fun t => (bitsOut t).drop 24) =
        some [false, false, false, true, false, false, false, false] := by decide

/-- R112, R169: WREN is 24 pin writes and DeassertSelect after its opening write, and the lines after it stay. -/
theorem test_wren_lines :
    seen (exec .wren (running [.wire .ce])) (fun t => ((point t).length, (point t).drop 24)) =
      some (26, [.drive .csN true, .wire .ce]) := by decide

/-- R113: PP sends 02 and the three address bytes before the data loop. -/
theorem test_pp_header :
    seen (exec (.pp 0x000180) (running [])) (fun t => (bitsOut t).take 8) =
        some [false, false, false, false, false, false, true, false] ∧
      seen (exec (.pp 0x000180) (running [])) (fun t => (point t).drop 96) = some [.beginData, .drive .csN true] := by
  decide

/-- R114 and L1.4: SE sends 20 00 10 00. -/
theorem test_se_header :
    seen (exec (.se 0x001000) (running [])) (fun t => ((bitsOut t).length, (bitsOut t).drop 16)) =
      some (32, [false, false, false, true, false, false, false, false, false, false, false, false, false, false, false,
        false]) := by decide

/-- R119 and R10: BE sends D8 and three address bytes. -/
theorem test_be_header :
    seen (exec (.be 0x010000) (running [])) (fun t => ((bitsOut t).length, (bitsOut t).take 8)) =
      some (32, [true, true, false, true, true, false, false, false]) := by decide

/-- R115: CE sends C7. -/
theorem test_ce_opcode :
    seen (exec .ce (running [])) bitsOut = some [true, true, false, false, false, true, true, true] := by decide

/-- R116: RDSR sends 05 and receives one byte. -/
theorem test_rdsr_lines :
    seen (exec .rdsr (running [])) (fun t => (bitsOut t, (point t).length)) =
      some ([false, false, false, false, false, true, false, true], 49) := by decide

/-- A table row of each width, decoded and placed for the next step. -/
theorem test_table_words :
    decodeTableWord 32 0x00000022 = some .program ∧ decodeTableWord 16 0x100 = some (.wr 0x00 0) ∧
      decodeTableWord 8 0x20 = some (.se 0) ∧
      seen (step (State.reset.withFetchWord 32 0x00000003)) point = some [.drive .wpN true] ∧
      seen (step (State.reset.withFetchWord 16 0x000)) (fun t => t.reads) = some [(0x00, 0)] ∧
      seen (step (State.reset.withFetchWord 8 0x06)) (fun t => t.frames) = some [.wren] := by decide

/-! ## Witnesses: states and operands that meet an obligation's hypotheses together -/

/-- DecodeEncodeRoundTrip, PlacedInstructionRunsNext: distinct opcodes; and a running sequencer for the frames. -/
theorem witness_opcodes :
    opcodesDistinct Config.defaultOpcodes ∧ opcodesDistinct (running []).opcodes ∧ (running []).seq = .running 0 [] := by
  decide

/-- `Ready`, which most statements about a command start from. -/
theorem witness_ready : Ready State.reset := by decide

/-- UnassignedCodeIsIllegalCommand, ReservedArgBitsAreBadArg and BadArgTouchesNothing: the first and last word of each range. -/
theorem witness_bad_words :
    Ready State.reset ∧ decodeCommand 0x00000004 = .illegal ∧ decodeCommand 0xFFFFFFFF = .illegal ∧
      decodeCommand 0x0000000F = .illegal ∧ decodeCommand 0x00000014 = .illegal ∧ decodeCommand 0x0000001F = .illegal ∧
      decodeCommand 0x00000025 = .illegal ∧ decodeCommand 0x00000100 = .reserved ∧ decodeCommand 0x00000124 = .reserved ∧
      decodeCommand 0x01000002 = .reserved ∧ decodeCommand 0x00000203 = .reserved ∧ decodeCommand 0x00010012 = .reserved ∧
      decodeCommand 0xFFFFFF13 = .reserved := by decide

/-- The words just inside the same ranges are commands. -/
theorem witness_good_words :
    decodeCommand 0x00FFFF02 = .command (.setClock 65535) ∧ decodeCommand 0x00000103 = .command (.setWp true) ∧
      decodeCommand 0x0000FF12 = .command (.txByte 255) := by decide

/-- HostWriteStoresOrStartsOrRefuses: an offset for each branch, at the edges; no offset is in two. -/
theorem witness_write_branches :
    (((0x01 : Byte).toNat % 4 ≠ 0 ∨ (0x01 : Byte).toNat > 0x2C) ∧ ((0x2D : Byte).toNat > 0x2C) ∧
        (0x30 : Byte).toNat > 0x2C ∧ (0xFF : Byte).toNat > 0x2C) ∧
      (running []).busy = true ∧ State.reset.busy = false ∧
      (∀ a ∈ ([0x00, 0x08, 0x0C, 0x10, 0x2C, 0x04, 0x28] : List Byte), ¬ (a.toNat % 4 ≠ 0 ∨ a.toNat > 0x2C)) := by decide

/-- NoWriteWhileACommandRuns. -/
theorem witness_busy : (running [.wire .rdsr]).busy = true := by decide

/-- HostReadReturnsTheRegister and IllegalAccessesAreRefused: each clause at an edge. -/
theorem witness_illegal_accesses :
    ((0x2D : Byte).toNat > 0x2C ∨ (0x2D : Byte).toNat % 4 ≠ 0) ∧ ((0x30 : Byte).toNat > 0x2C ∨ (0x30 : Byte).toNat % 4 ≠ 0) ∧
      ((0x03 : Byte).toNat > 0x2C ∨ (0x03 : Byte).toNat % 4 ≠ 0) ∧
      (⟨0x004, 2, 0⟩ : HostAccess).size ≠ 4 ∧ (⟨0x004, 8, 0⟩ : HostAccess).size ≠ 4 ∧
      Reg.progress ∈ ([.status, .clkKhz, .timing, .chipId, .rxData, .pins, .progress] : List Reg) ∧
      State.reset.busy = false := by decide

/-- CmdWriteStartsTheCommand: an idle block, a word of either verdict, and no move of the outside left. -/
theorem witness_cmd_write :
    State.reset.busy = false ∧ State.reset.host = [] ∧
      (decodeCommand 0x000000FF = .illegal ∧ Result.illegalCmd = .illegalCmd) ∧
      (decodeCommand 0x00000100 = .reserved ∧ Result.badArg = .badArg) := by decide

/-- HostReadsDisturbNothing: a read in the middle of a command, and the engine's next step. -/
theorem witness_read_while_running :
    ∃ t u, exec (.rd 0x04) (running [.drive .sck true]) = .next t ∧ engineTurn (running [.drive .sck true]) = .next u :=
  ⟨_, _, rfl, rfl⟩

/-- StepRunsTheDecodedInstruction, clauses 1 and 2: a due access of full width and a due CMD write. -/
theorem witness_due_accesses :
    ({ State.reset with host := [due (.access ⟨0x004, 4, 0⟩)] } : State).host =
        { wait := 0, act := .access ⟨0x004, 4, 0⟩ } :: [] ∧
      (⟨0x004, 4, 0⟩ : HostAccess).size = 4 ∧
      ({ State.reset with host := [due (.access (cmdWrite 0x20))] } : State).host =
        { wait := 0, act := .access (cmdWrite 0x20) } :: [] ∧
      decodeCommand 0x20 = .command .identify := by decide

/-- StepRunsTheDecodedInstruction, clauses 3 to 5, and the frame statements: a frame line with and without a later move of the
outside, and another line. -/
theorem witness_frame_lines :
    (running [.wire .wren, .wire .ce]).seq = .running 0 (.wire .wren :: [.wire .ce]) ∧
      (running [.wire .wren, .wire .ce]).host = [] ∧
      ({ running [.wire .rdsr] with host := [{ wait := 1, act := .reset }] } : State).host =
        { wait := 0 + 1, act := .reset } :: [] ∧
      (running [.delay 5]).seq = .running 0 (.delay 5 :: []) := by decide

/-- EveryChangeOfPinsAndStreamsIsAnEvent: one step of each kind, none of them a reset. -/
theorem witness_event_steps :
    resetDue State.reset = false ∧ (∃ t, step State.reset = .next t) ∧
      (∃ t, step (running [.drive .mosi true]) = .next t ∧ t.trace = [.reset, .write .mosi true]) ∧
      (∃ t, step (running [.delay 5]) = .next t ∧ t.trace = [.reset, .delay 5]) ∧
      (∃ t, step { running [.shiftIn 7] with device := answers [0x80] } = .next t ∧ t.trace = [.reset, .sample true]) ∧
      (∃ t, step (running [.push]) = .next t ∧ t.trace = [.reset, .push 0]) ∧
      (∃ t, step { running [.pull] with source := endingSource [7] } = .next t ∧ t.trace = [.reset, .pull (some 7)]) ∧
      ∃ t, step { running [.pull] with source := endingSource [] } = .next t ∧ t.trace = [.reset, .pull none] :=
  ⟨rfl, ⟨_, rfl⟩, ⟨_, rfl, rfl⟩, ⟨_, rfl, rfl⟩, ⟨_, rfl, rfl⟩, ⟨_, rfl, rfl⟩, ⟨_, rfl, rfl⟩, ⟨_, rfl, rfl⟩⟩

/-- ResetPutsEveryRegisterAtItsResetValue: a reset due in the middle of a command. -/
theorem witness_reset_due :
    ({ running [.wire .rdsr] with host := [due .reset] } : State).host = { wait := 0, act := .reset } :: [] := by decide

/-- IdleBlockWaits. -/
theorem witness_idle : State.reset.seq = .idle ∧ State.reset.host = [] := by decide

/-- TimingFollowsTheTargetClock and SetClockRecomputesTiming: the edges of K's range and the value above it. -/
theorem witness_clock :
    (0 : BitVec 16).toNat ≤ 1000 ∧ (1000 : BitVec 16).toNat ≤ 1000 ∧ (1001 : BitVec 16).toNat > 1000 ∧
      (65535 : BitVec 16).toNat > 1000 := by decide

/-- SelectCommands, TxByte, RxByte and UnsupportedConfiguration: either side of each check of CONFIG. -/
theorem witness_config :
    Ready State.reset ∧ State.reset.iface = .singleLane ∧ configSupported State.reset ∧
      Ready { State.reset with iface := .dualLane } ∧ ({ State.reset with iface := .dualLane } : State).iface ≠ .singleLane ∧
      ¬ configSupported { State.reset with proto := .series24 } ∧ ¬ configSupported { State.reset with iface := .twoWire } := by
  decide

/-- BadArgTouchesNothing and ReadCopiesByteCountBytes: BYTECOUNT at 2^28 and just above it. -/
theorem witness_byte_count :
    ({ State.reset with byteCount := 0x10000001 } : State).byteCount.toNat > 2 ^ 28 ∧
      ({ State.reset with byteCount := 0x10000000 } : State).byteCount.toNat ≤ 2 ^ 28 ∧
      configSupported { State.reset with byteCount := 0x10000001 } ∧ Ready { State.reset with byteCount := 0x10000001 } := by
  decide

/-- WrongStreamModeTouchesNothing and ReadCopiesByteCountBytes: a stream mode on each side of each check. -/
theorem witness_stream_mode :
    State.reset.streamMode ≠ .read ∧ State.reset.streamMode ≠ .write ∧
      ({ State.reset with streamMode := .write, byteCount := 0x10000000 } : State).streamMode = .write ∧
      Ready { State.reset with streamMode := .write, byteCount := 0x10000000 } ∧
      configSupported { State.reset with streamMode := .write, byteCount := 0x10000000 } := by decide

/-- The invariant of the block at a state in the middle of a command. -/
theorem witness_inv {s : State} (h1 : s.seq ≠ .idle) (h2 : s.busy = true) (h3 : s.csActive = !s.pins.csN)
    (h4 : s.timing = configureTiming s.clkKhz) (h5 : s.clkKhz.toNat ≤ Config.clkMaxKhz)
    (h6 : s.result ≠ .ok → s.errSticky = true) (h7 : busSound s = true) : Inv s where
  idle_iff := ⟨fun h => absurd h h1, fun h => by rw [h2] at h; cases h⟩
  cs := h3
  timing := h4
  clk := h5
  sticky := h6
  bus := h7

/-- MosiChangesOnlyWhileSckIsLow: the first bit of 0x80 goes out. -/
theorem witness_mosi_change :
    Inv (running [.shiftOut 0x80 7]) ∧
      ∃ t, step (running [.shiftOut 0x80 7]) = .next t ∧ resetDue (running [.shiftOut 0x80 7]) = false ∧
        t.pins.mosi ≠ (running [.shiftOut 0x80 7]).pins.mosi :=
  ⟨witness_inv (by decide) (by decide) (by decide) (by decide) (by decide) (by decide) (by decide),
    _, rfl, by decide, by decide⟩

/-- DelayTable: the invariant at an idle block and inside a command, at the longest delays; the source, the Device and the
ranges are those of `witness_program`, `witness_ranged_erase` and `witness_busy_wait`. -/
theorem witness_delays :
    (let s := { State.reset with clkKhz := 1, timing := configureTiming 1, streamMode := .write }
     Inv s ∧ Ready s ∧ configSupported s ∧ s.iface = .singleLane ∧ s.byteCount = 0 ∧ s.timing.half.toNat = 500) ∧
    (let s := { running [] with clkKhz := 1, timing := configureTiming 1 }
     Inv s ∧ s.host = [] ∧ s.seq = .running 0 []) :=
  ⟨⟨⟨by decide, by decide, by decide, by decide, by decide, by decide⟩, by decide, by decide, by decide, by decide,
      by decide⟩,
    witness_inv (by decide) (by decide) (by decide) (by decide) (by decide) (by decide) (by decide), by decide,
    by decide⟩

/-- A state ready for PROGRAM of `n` bytes from this source, with these status bytes to come. -/
def programming (n : BitVec 29) (src : Source) (statuses : List Byte) : State :=
  { State.reset with byteCount := n, streamMode := .read, source := src, device := answers statuses }

/-- A busy-wait that sees 0x03 and then 0x00 (program P2). -/
theorem witness_ends_ready : EndsReady [0x03, 0x00] := ⟨[0x03], 0x00, rfl, by decide, by decide⟩

/-- A busy-wait that sees 0x00 at once. -/
theorem witness_ends_ready_at_once : EndsReady [0x00] := ⟨[], 0x00, rfl, by decide, by decide⟩

/-- ProgramWritesTheSourceByPages: 257 bytes, two pairs, POLL_LIMIT off; and no byte at all. -/
theorem witness_program :
    let s := programming 257 (endingSource (List.replicate 257 0x5A)) [0x03, 0x00, 0x00]
    (Ready s ∧ configSupported s ∧ s.streamMode = .read ∧ s.byteCount.toNat ≤ 2 ^ 28 ∧
      (List.replicate 257 (0x5A : Byte)).length = s.byteCount.toNat ∧
      s.source.bytes = List.replicate 257 0x5A ++ [] ∧
      [[(0x03 : Byte), 0x00], [0x00]].length = (s.byteCount.toNat + 255) / 256 ∧
      (∀ p ∈ [[(0x03 : Byte), 0x00], [0x00]], EndsReady p ∧ pollsAllowed p.length s) ∧
      s.device = (answers []).answering [[(0x03 : Byte), 0x00], [0x00]].flatten) ∧
    (Ready (programming 0 (endingSource []) []) ∧
      ([] : List (List Byte)).length = ((programming 0 (endingSource []) []).byteCount.toNat + 255) / 256 ∧
      (programming 0 (endingSource []) []).source.bytes = ([] : List Byte) ++ []) := by
  refine ⟨⟨by decide, by decide, rfl, by decide, List.length_replicate, (List.append_nil _).symm, by decide,
    ?_, by decide⟩, by decide, by decide, by decide⟩
  intro p hp
  simp only [List.mem_cons, List.not_mem_nil, or_false] at hp
  rcases hp with rfl | rfl
  · exact ⟨witness_ends_ready, .inl rfl⟩
  · exact ⟨witness_ends_ready_at_once, .inl rfl⟩

/-- DelayTable's states for PROGRAM, ranged ERASE and BUSY_WAIT meet the invariant. -/
theorem witness_delays_busy_waits :
    Inv (programming 257 (endingSource (List.replicate 257 0x5A)) [0x03, 0x00, 0x00]) ∧
      Inv { State.reset with offset := 0x1000, byteCount := 1, device := answers [0x00] } ∧
      Inv { State.reset with pollLimit := 3, device := answers [0x01, 0x01, 0x00] } :=
  ⟨⟨by decide, by decide, by decide, by decide, by decide, by decide⟩,
    ⟨by decide, by decide, by decide, by decide, by decide, by decide⟩,
    ⟨by decide, by decide, by decide, by decide, by decide, by decide⟩⟩

/-- ProgramReportsAShortSource, SOURCE_SHORT: L2.7 row 7, a source with no byte. -/
theorem witness_program_short :
    let s := programming 600 (endingSource []) [0x00]
    Ready s ∧ configSupported s ∧ s.streamMode = .read ∧ s.byteCount.toNat ≤ 2 ^ 28 ∧
      ([] : List Byte).length < s.byteCount.toNat ∧ s.source.bytes = [] ∧ s.source.ended = true ∧
      ([] : List (List Byte)).length = ([] : List Byte).length / 256 ∧
      (EndsReady [0x00] ∧ pollsAllowed [(0x00 : Byte)].length s ∧ Result.sourceShort = .sourceShort) ∧
      s.device = (answers []).answering (([] : List (List Byte)).flatten ++ [0x00]) :=
  ⟨by decide, by decide, rfl, by decide, by decide, rfl, rfl, rfl, ⟨witness_ends_ready_at_once, .inl rfl, rfl⟩, by decide⟩

/-- ProgramReportsAShortSource, TIMEOUT: the same source with POLL_LIMIT = 1 and a busy Device (as L2.7 row 12). -/
theorem witness_program_short_timeout :
    let s := { programming 600 (endingSource []) [0x01] with pollLimit := 1 }
    Ready s ∧ configSupported s ∧ s.streamMode = .read ∧ ([] : List Byte).length < s.byteCount.toNat ∧
      s.source.bytes = [] ∧ s.source.ended = true ∧
      (s.pollLimit ≠ 0 ∧ [(0x01 : Byte)].length = s.pollLimit.toNat ∧ (∀ b ∈ [(0x01 : Byte)], b.getLsbD 0 = true) ∧
        Result.timeout = .timeout) ∧
      s.device = (answers []).answering (([] : List (List Byte)).flatten ++ [0x01]) := by decide

/-- WholeDeviceErase. -/
theorem witness_whole_device :
    Ready State.reset ∧ configSupported State.reset ∧ State.reset.byteCount = 0 := by decide

/-- RangedEraseCoversTheRange: L2.8 row 7, one byte at 0x1000; and the sector count at the largest range. -/
theorem witness_ranged_erase :
    let s := { State.reset with offset := 0x1000, byteCount := 1, device := answers [0x00] }
    (Ready s ∧ configSupported s ∧ 1 ≤ s.byteCount.toNat ∧ s.byteCount.toNat ≤ 2 ^ 28 ∧
      [[(0x00 : Byte)]].length =
        (s.offset.toNat + s.byteCount.toNat - (s.offset.toNat - s.offset.toNat % 4096) + 4095) / 4096 ∧
      (∀ p ∈ [[(0x00 : Byte)]], EndsReady p ∧ pollsAllowed p.length s) ∧
      s.device = (answers []).answering [[(0x00 : Byte)]].flatten) ∧
    (0xFFFFFFFF + 2 ^ 28 - (0xFFFFFFFF - 0xFFFFFFFF % 4096) + 4095) / 4096 = 65537 := by
  refine ⟨⟨by decide, by decide, by decide, by decide, by decide, ?_, by decide⟩, by decide⟩
  intro p hp
  simp only [List.mem_cons, List.not_mem_nil, or_false] at hp
  subst hp
  exact ⟨witness_ends_ready_at_once, .inl rfl⟩

/-- BusyWaitCountsItsStatusReads: no busy read with POLL_LIMIT = 0, and L2.9 row 3, the ready read being the L-th. -/
theorem witness_busy_wait :
    let s := { State.reset with pollLimit := 3, device := answers [0x01, 0x01, 0x00] }
    (Ready s ∧ configSupported s ∧ (∀ b ∈ [(0x01 : Byte), 0x01], b.getLsbD 0 = true) ∧ (0x00 : Byte).getLsbD 0 = false ∧
      (s.pollLimit = 0 ∨ [(0x01 : Byte), 0x01].length < s.pollLimit.toNat) ∧
      s.device = (answers []).answering ([0x01, 0x01] ++ [0x00])) ∧
    (State.reset.pollLimit = 0 ∧ (0xFE : Byte).getLsbD 0 = false) := by decide

/-- PollLimitEndsABusyWait, BUSY_WAIT: L2.9 row 2. -/
theorem witness_timeout_busy_wait :
    let s := { State.reset with pollLimit := 1, device := answers [0x01] }
    Ready s ∧ configSupported s ∧ s.pollLimit ≠ 0 ∧ [(0x01 : Byte)].length = s.pollLimit.toNat ∧
      (∀ b ∈ [(0x01 : Byte)], b.getLsbD 0 = true) ∧ s.device = (answers []).answering [0x01] := by decide

/-- PollLimitEndsABusyWait, ERASE: two sectors, the second busy. -/
theorem witness_timeout_erase :
    let s := { State.reset with byteCount := 4097, pollLimit := 1, device := answers [0x00, 0x01] }
    Ready s ∧ configSupported s ∧ 1 ≤ s.byteCount.toNat ∧ s.byteCount.toNat ≤ 2 ^ 28 ∧
      s.offset.toNat - s.offset.toNat % 4096 + 4096 * [[(0x00 : Byte)]].length < s.offset.toNat + s.byteCount.toNat ∧
      (∀ p ∈ [[(0x00 : Byte)]], EndsReady p ∧ pollsAllowed p.length s) ∧
      s.device = (answers []).answering ([[(0x00 : Byte)]].flatten ++ [0x01]) := by
  refine ⟨by decide, by decide, by decide, by decide, by decide, ?_, by decide⟩
  intro p hp
  simp only [List.mem_cons, List.not_mem_nil, or_false] at hp
  subst hp
  exact ⟨witness_ends_ready_at_once, .inr (by decide)⟩

/-- PollLimitEndsABusyWait, PROGRAM: the first and only chunk busy. -/
theorem witness_timeout_program :
    let s := { programming 2 (endingSource [1, 2, 3]) [0x01] with pollLimit := 1 }
    Ready s ∧ configSupported s ∧ s.streamMode = .read ∧ s.byteCount.toNat ≤ 2 ^ 28 ∧
      256 * ([] : List (List Byte)).length < s.byteCount.toNat ∧
      [(1 : Byte), 2].length = min s.byteCount.toNat (256 * (([] : List (List Byte)).length + 1)) ∧
      s.source.bytes = [1, 2] ++ [3] ∧ s.device = (answers []).answering (([] : List (List Byte)).flatten ++ [0x01]) := by
  decide

/-- OnePassOfTheBusyWaitLoop: each of its three cases, with POLL_LIMIT just reached and just not. -/
theorem witness_polled :
    let at_ (shift : Byte) (limit : BitVec 32) : State :=
      { running [.polled true] with work := { Work.reset with shift := shift, polls := 1 }, pollLimit := limit }
    (∀ b l, (at_ b l).seq = .running 0 (.polled true :: []) ∧ (at_ b l).host = []) ∧
      (at_ 0xFE 2).work.shift.getLsbD 0 = false ∧
      ((at_ 0x01 2).work.shift.getLsbD 0 = true ∧ (at_ 0x01 2).pollLimit ≠ 0 ∧
        (at_ 0x01 2).pollLimit.toNat ≤ (saturated ((at_ 0x01 2).work.polls.toNat + 1)).toNat) ∧
      ((at_ 0x01 3).work.shift.getLsbD 0 = true ∧
        (saturated ((at_ 0x01 3).work.polls.toNat + 1)).toNat < (at_ 0x01 3).pollLimit.toNat) ∧
      ((at_ 0x01 0).work.shift.getLsbD 0 = true ∧ (at_ 0x01 0).pollLimit = 0) :=
  ⟨fun _ _ => ⟨rfl, rfl⟩, by decide, by decide, by decide, by decide⟩

/-- A Device that answers 1 for ever answers bytes with bit 0 set. -/
theorem stuck_nextBytes (n : Nat) : ∀ bits ∈ ((answers []).nextBytes n).1, (byteOfBits bits).getLsbD 0 = true := by
  induction n with
  | zero => intro bits h; cases h
  | succ n ih =>
    intro bits h
    have hn : ((answers []).nextBytes (n + 1)).1 = List.replicate 8 true :: ((answers []).nextBytes n).1 := rfl
    rw [hn, List.mem_cons] at h
    rcases h with rfl | h
    · decide
    · exact ih bits h

/-- StuckDeviceHangsTheEngine: a Device whose status reads all show WIP = 1, met idle and in the loop. -/
theorem witness_stuck :
    (answers []).alwaysBusy ∧ Ready { State.reset with device := answers [] } ∧
      configSupported { State.reset with device := answers [] } ∧
      ({ State.reset with device := answers [] } : State).pollLimit = 0 ∧
      (let s := { running [.wire .rdsr, .polled false, .nextChunk] with device := answers [] }
       s.host = [] ∧ s.pollLimit = 0 ∧ s.busy = true ∧
         s.seq = .running 0 (.wire .rdsr :: .polled false :: [.nextChunk])) :=
  ⟨stuck_nextBytes, by decide, by decide, rfl, rfl, rfl, rfl, rfl⟩

/-- EveryCommandEndsUnderAPollLimit. -/
theorem witness_poll_limit :
    Ready { State.reset with pollLimit := 1 } ∧ ({ State.reset with pollLimit := 1 } : State).pollLimit ≠ 0 := by decide

/-- EngineCommandsWriteNothingElse: IDENTIFY started, and a state its run reaches. -/
theorem witness_engine_run :
    Command.identify ∈ [Command.identify, .read, .program, .erase, .busyWait] ∧ Ready State.reset ∧
      ∃ u t, exec Command.identify.instr State.reset = .next u ∧ Reaches u t :=
  ⟨by decide, by decide, _, _, rfl, 1, rfl⟩

/-- PageProgramFrameSendsTheChunk: a whole chunk, and a source that ends in it. -/
theorem witness_pp :
    let s := { running [] with source := endingSource [0xAA, 0xBB], work := { Work.reset with chunk := 2 } }
    let t := { running [] with source := endingSource [0xAA], work := { Work.reset with chunk := 256 } }
    (s.host = [] ∧ s.seq = .running 0 [] ∧ s.source.bytes = [0xAA, 0xBB] ++ [] ∧
      [(0xAA : Byte), 0xBB].length = s.work.chunk.toNat) ∧
    (t.host = [] ∧ t.seq = .running 0 [] ∧ t.source.bytes = [0xAA] ++ [] ∧
      [(0xAA : Byte)].length < t.work.chunk.toNat ∧ t.source.ended = true) := by decide

/-- PlainFramesSendTheirHeader: each of its frames. -/
theorem witness_plain_frames :
    (Frame.wren = .wren ∨ Frame.wren = .ce) ∧ (Frame.ce = .wren ∨ Frame.ce = .ce) ∧ (∃ a, Frame.se 0xFFF000 = .se a) ∧
      (running [.wire .ce]).host = [] ∧ (running [.wire .ce]).seq = .running 0 [.wire .ce] :=
  ⟨.inl rfl, .inr rfl, ⟨_, rfl⟩, rfl, rfl⟩

/-- CompletionWritesStatusOnly and ResultAndStickyChangeOnlyAtCompletion: a command's last step. -/
theorem witness_completion :
    Inv (running []) ∧
      ∃ t, step (running []) = .next t ∧ resetDue (running []) = false ∧ (running []).seq ≠ .idle ∧ t.seq = .idle ∧
        (running []).busy = true ∧ t.busy = false :=
  ⟨witness_inv (by decide) (by decide) (by decide) (by decide) (by decide) (by decide) (by decide),
    _, rfl, by decide, by decide, rfl, rfl, rfl⟩

/-- LateErrorsLeaveTheBusDeselected: a command that ends with TIMEOUT, and one that ends with SOURCE_SHORT. -/
theorem witness_late_errors :
    (Inv (running [.raise .timeout]) ∧
      ∃ t, step (running [.raise .timeout]) = .next t ∧ t.busy = false ∧ t.result = .timeout) ∧
    (Inv { running [.nextChunk] with work := { Work.reset with exh := true } } ∧
      ∃ t, step { running [.nextChunk] with work := { Work.reset with exh := true } } = .next t ∧ t.busy = false ∧
        t.result = .sourceShort) :=
  ⟨⟨witness_inv (by decide) (by decide) (by decide) (by decide) (by decide) (by decide) (by decide), _, rfl, rfl, rfl⟩,
    witness_inv (by decide) (by decide) (by decide) (by decide) (by decide) (by decide) (by decide), _, rfl, rfl, rfl⟩

/-- EndOfInputIsSticky: a source at its end, met by a pull. -/
theorem witness_end_of_input :
    (endingSource []).next.1 = none ∧ (endingSource []).next = (none, endingSource []) ∧
      ∃ t, step { running [.pull] with source := endingSource [] } = .next t := ⟨rfl, rfl, _, rfl⟩

/-- EveryStepKeepsTheInvariant: from the start of a frame. -/
theorem witness_inv_step :
    Inv (running [.wire .rdsr, .polled false]) ∧ ∃ t, step (running [.wire .rdsr, .polled false]) = .next t :=
  ⟨witness_inv (by decide) (by decide) (by decide) (by decide) (by decide) (by decide) (by decide), _, rfl⟩

/-- EveryStepKeepsTheWriteEnableDiscipline: WREN sent, PP next. -/
theorem witness_wren_step :
    WrenInv { running [.wire (.pp 0)] with frames := [.wren] } ∧
      ∃ t, step { running [.wire (.pp 0)] with frames := [.wren] } = .next t := by
  refine ⟨⟨by decide, ?_⟩, _, rfl⟩
  intro cmd pt h
  simp only [running, Seq.running.injEq] at h
  rw [← h.2]
  decide

/-- PseudoInstructionsExpand: WAITIDLE due, with the block idle and with a command running. -/
theorem witness_wait_idle :
    ({ State.reset with host := [due (.waitIdle 3)] } : State).host = { wait := 0, act := .waitIdle 3 } :: [] ∧
      ({ State.reset with host := [due (.waitIdle 3)] } : State).busy = false ∧
      ({ running [] with host := [due (.waitIdle 3)] } : State).busy = true := by decide

/-- StreamModeChangesOnlyWhileIdle: a change due with the block idle, and with a command running. -/
theorem witness_stream_mode_change :
    ({ State.reset with host := [due (.streamMode .write)] } : State).host =
        { wait := 0, act := .streamMode .write } :: [] ∧
      ({ State.reset with host := [due (.streamMode .write)] } : State).busy = false ∧
      ({ running [] with host := [due (.streamMode .read)] } : State).busy = true := by decide

/-- AddressBytesAreBigEndian: the first and the last of its frames. -/
theorem witness_addressed :
    Frame.readData ∈ [Frame.readData, .pp, .se, .be] ∧ Frame.be ∈ [Frame.readData, .pp, .se, .be] :=
  ⟨.head _, .tail _ (.tail _ (.tail _ (.head _)))⟩

end Sys2Proof.Tests
end

/-! # What one step can do to the pins, the streams and the Device (R14, R15, R83)

First what each turn of a step can answer (inversion lemmas, with the whole next state), then what that means for the part
of the state that events are about. -/

namespace Sys2Proof.Machine

/-! ### What a step can answer -/

/-- Only the engine's turn and a due move of the outside make a step, each with the host's queue moved on first. -/
theorem step_next_cases {s t : State} (h : step s = .next t) :
    (∃ q, engineTurn { s with host := q } = .next t) ∨
      ∃ m q, s.host = m :: q ∧ m.wait = 0 ∧ hostTurn m.act { s with host := q } = .next t := by
  unfold step turn at h
  split at h
  · exact .inl ⟨s.host, h⟩
  · rename_i m q hq
    split at h
    · rename_i hw
      exact .inr ⟨m, q, hq, hw, h⟩
    · exact .inl ⟨_, h⟩

/-- An engine step waits, finishes the command or performs the first line. -/
theorem engineTurn_next_cases {s t : State} (h : engineTurn s = .next t) :
    t = s ∨ t = complete .ok s ∨ ∃ l cmd rest, t = perform l cmd rest s := by
  cases hs : s.seq with
  | idle =>
    rw [engineTurn_idle hs] at h
    exact .inl (Host.Outcome.next.inj h).symm
  | running cmd point =>
    cases point with
    | nil =>
      rw [engineTurn_finish hs] at h
      exact .inr (.inl (Host.Outcome.next.inj h).symm)
    | cons l rest =>
      rw [engineTurn_line hs] at h
      exact .inr (.inr ⟨l, cmd, rest, (Host.Outcome.next.inj h).symm⟩)

/-- Whatever the word, StartCommand starts a command with some lines (R202). -/
theorem startCommand_eq_startLines (v : Word) (s : State) : ∃ w ls, startCommand v s = startLines w ls s := by
  unfold startCommand
  split
  · exact ⟨_, _, rfl⟩
  · exact ⟨_, _, rfl⟩
  · rename_i c _
    cases c <;> exact ⟨_, _, rfl⟩

theorem startLines_next {w : Word} {ls : List Line} {s t : State} (h : startLines w ls s = .next t) :
    t = started w ls s := by
  unfold startLines at h
  split at h
  · cases h
  · exact (Host.Outcome.next.inj h).symm

theorem startCommand_next {v : Word} {s t : State} (h : startCommand v s = .next t) : ∃ w ls, t = started w ls s := by
  obtain ⟨w, ls, hw⟩ := startCommand_eq_startLines v s
  exact ⟨w, ls, startLines_next (hw ▸ h)⟩

/-- RD adds to what the host has read, and does nothing else (R200). -/
theorem execRd_next {a : Byte} {s t : State} (h : execRd a s = .next t) : ∃ rs, t = { s with reads := rs } := by
  unfold execRd at h
  split at h
  · cases h
  · exact ⟨_, (Host.Outcome.next.inj h).symm⟩

/-- WR starts a command or writes one of the four writable registers (R201). -/
theorem execWr_next_cases {a : Byte} {v : Word} {s t : State} (h : execWr a v s = .next t) :
    (∃ w ls, t = started w ls s) ∨ t = writeConfig v s ∨ t = writeOffset v s ∨ t = writeByteCount v s ∨
      t = writePollLimit v s := by
  unfold execWr at h
  split at h
  · cases h
  · rename_i r _
    split at h
    · cases h
    · cases r with
      | cmd => exact .inl (startCommand_next h)
      | config => exact .inr (.inl (Host.Outcome.next.inj h).symm)
      | offset => exact .inr (.inr (.inl (Host.Outcome.next.inj h).symm))
      | byteCount => exact .inr (.inr (.inr (.inl (Host.Outcome.next.inj h).symm)))
      | pollLimit => exact .inr (.inr (.inr (.inr (Host.Outcome.next.inj h).symm)))
      | _ => cases h

/-- A host access that is not refused is a whole-word RD or WR (R77, R108). -/
theorem accessTurn_next_cases {a : HostAccess} {s t : State} (h : accessTurn a s = .next t) :
    (∃ x, execRd x s = .next t) ∨ ∃ x v, execWr x v s = .next t := by
  unfold accessTurn decodeAccess at h
  split at h
  · split at h
    · exact .inr ⟨_, _, h⟩
    · exact .inl ⟨_, h⟩
  · cases h

/-! ### The part of the state that events are about -/

/-- The pins, the sink, the source, the Device, and the trace. -/
structure Outward where
  pins   : Pins
  sink   : List Byte
  source : Source
  device : Device
  trace  : List Event

def State.outward (s : State) : Outward :=
  { pins := s.pins, sink := s.sink, source := s.source, device := s.device, trace := s.trace }

/-- Nothing moves, or one event joins the trace and only what that event says moves (R14, R84 to R86). RESET is no case. -/
inductive Outward.Move (o : Outward) : Outward → Prop where
  | silent : Move o o
  | write (p : Pin) (v : Level) : Move o { o with pins := o.pins.set p v, trace := o.trace ++ [.write p v] }
  | delay (n : Nat) : Move o { o with trace := o.trace ++ [.delay n] }
  | sample : Move o { o with device := o.device.next.2, trace := o.trace ++ [.sample o.device.next.1] }
  | push (b : Byte) : Move o { o with sink := o.sink ++ [b], trace := o.trace ++ [.push b] }
  | pull : Move o { o with source := o.source.next.2, trace := o.trace ++ [.pull o.source.next.1] }

theorem Outward.Move.of_eq {o o' : Outward} (h : o' = o) : o.Move o' := h ▸ .silent

/-! ### The engine's step -/

/-- Seven kinds of lines make an event; the others assign registers or raise. -/
theorem effect_move (l : Line) (s : State) : s.outward.Move (effect l s).outward := by
  cases l with
  | drive p v => exact .write p v
  | shiftOut v i => exact .write .mosi (v.getLsbD i.val)
  | wire f => exact .write .csN false
  | delay n => exact .delay n
  | shiftIn i => exact .sample
  | push => exact .push s.work.shift
  | pull => exact .pull
  | _ => exact .of_eq (by simp only [State.outward, effect])

theorem perform_move (l : Line) (cmd : Word) (rest : List Line) (s : State) :
    s.outward.Move (perform l cmd rest s).outward := by
  cases hr : raises l s with
  | some c =>
    rw [perform_of_raises hr]
    exact .silent
  | none =>
    rw [perform_of_not_raises hr]
    exact effect_move l s

theorem engineTurn_move {s t : State} (h : engineTurn s = .next t) : s.outward.Move t.outward := by
  rcases engineTurn_next_cases h with rfl | rfl | ⟨l, cmd, rest, rfl⟩
  · exact .silent
  · exact .silent
  · exact perform_move l cmd rest s

/-! ### The moves of the outside -/

theorem execRd_outward {a : Byte} {s t : State} (h : execRd a s = .next t) : t.outward = s.outward := by
  obtain ⟨rs, rfl⟩ := execRd_next h
  rfl

theorem execWr_outward {a : Byte} {v : Word} {s t : State} (h : execWr a v s = .next t) : t.outward = s.outward := by
  rcases execWr_next_cases h with ⟨w, ls, rfl⟩ | rfl | rfl | rfl | rfl <;> rfl

theorem accessTurn_outward {a : HostAccess} {s t : State} (h : accessTurn a s = .next t) : t.outward = s.outward := by
  rcases accessTurn_next_cases h with ⟨x, hx⟩ | ⟨x, v, hx⟩
  · exact execRd_outward hx
  · exact execWr_outward hx

theorem pollAgain_outward (gap : Nat) (s : State) : (pollAgain gap s).outward = s.outward := by
  unfold pollAgain
  split <;> rfl

/-- No move of the outside but a reset is an event (R83; log 16). -/
theorem hostTurn_outward {act : HostAct} (hact : act ≠ .reset) {s t : State} (h : hostTurn act s = .next t) :
    t.outward = s.outward := by
  cases act with
  | access a => exact accessTurn_outward h
  | waitIdle gap =>
    simp only [hostTurn] at h
    split at h
    · rename_i u hu
      cases h
      exact (pollAgain_outward gap u).trans (execRd_outward (a := Reg.status.offsetOf) hu)
    · cases h
    · cases h
  | streamMode m =>
    simp only [hostTurn] at h
    split at h
    · cases h
    · cases h
      rfl
  | reset => exact absurd rfl hact

/-! ### The step -/

theorem act_ne_reset_of_not_resetDue {s : State} {m : HostMove} {q : List HostMove} (hr : resetDue s = false)
    (hq : s.host = m :: q) (hw : m.wait = 0) : m.act ≠ .reset := by
  simpa [resetDue, hq, hw] using hr

theorem step_move {s t : State} (h : step s = .next t) (hr : resetDue s = false) : s.outward.Move t.outward := by
  rcases step_next_cases h with ⟨q, he⟩ | ⟨m, q, hq, hw, hh⟩
  · exact engineTurn_move (s := { s with host := q }) he
  · exact .of_eq (hostTurn_outward (s := { s with host := q }) (act_ne_reset_of_not_resetDue hr hq hw) hh)

/-- Settles O16: each way of `Outward.Move` is one of the statement's six cases. -/
theorem everyChangeOfPinsAndStreamsIsAnEvent : Obligations.EveryChangeOfPinsAndStreamsIsAnEvent := by
  intro s t h hr
  have hm := step_move h hr
  generalize ho : t.outward = o at hm
  cases hm <;> simp only [State.outward, Outward.mk.injEq] at ho <;>
    obtain ⟨hpins, hsink, hsource, hdevice, htrace⟩ := ho
  case silent => exact .inl ⟨htrace, hpins, hsink, hsource, hdevice⟩
  case write p v => exact .inr (.inl ⟨p, v, htrace, hpins, hsink, hsource, hdevice⟩)
  case delay n => exact .inr (.inr (.inl ⟨n, htrace, hpins, hsink, hsource, hdevice⟩))
  case sample => exact .inr (.inr (.inr (.inl ⟨_, htrace, by rw [hdevice], hpins, hsink, hsource⟩)))
  case push b => exact .inr (.inr (.inr (.inr (.inl ⟨b, htrace, hsink, hpins, hsource, hdevice⟩))))
  case pull => exact .inr (.inr (.inr (.inr (.inr ⟨_, htrace, by rw [hsource], hpins, hsink, hdevice⟩))))

end Sys2Proof.Machine

/-! # What every step keeps (R23, R30, R31, R36, R37, R146, R177)

The invariant's bus part speaks of the lines still to be performed: first what the lines that the engine puts in do to it,
then what a command starts with, then the fields one by one, then the turns. -/

namespace Sys2Proof.Machine

/-! ### Lines in front of a sound point -/

@[simp] theorem pointSound_delayLines (sck csN : Level) (n : BitVec 10) (rest : List Line) :
    pointSound sck csN (delayLines n ++ rest) = pointSound sck csN rest := by
  unfold delayLines
  split <;> rfl

@[simp] theorem pointSound_pulse (sck csN : Level) (t : Timing) (rest : List Line) :
    pointSound sck csN (pulse t ++ rest) = pointSound false csN rest := by
  simp [pulse, pointSound]

@[simp] theorem pointSound_txByteLines (csN : Level) (t : Timing) (v : Byte) (rest : List Line) :
    pointSound false csN (txByteLines t v ++ rest) = pointSound false csN rest := by
  simp [txByteLines, bitOrder, pointSound]

@[simp] theorem pointSound_rxByteLines (csN : Level) (t : Timing) (rest : List Line) :
    pointSound false csN (rxByteLines t ++ rest) = pointSound false csN rest := by
  simp [rxByteLines, bitOrder, pointSound]

@[simp] theorem pointSound_txBytesLines (csN : Level) (t : Timing) (bs : List Byte) (rest : List Line) :
    pointSound false csN (txBytesLines t bs ++ rest) = pointSound false csN rest := by
  induction bs with
  | nil => rfl
  | cons b bs ih => simpa [txBytesLines] using ih

@[simp] theorem pointSound_assertSelect (csN : Level) (t : Timing) (rest : List Line) :
    pointSound false csN (assertSelect t ++ rest) = pointSound false false rest := by
  simp [assertSelect, pointSound]

@[simp] theorem pointSound_deassertSelect (csN : Level) (t : Timing) (rest : List Line) :
    pointSound false csN (deassertSelect t ++ rest) = pointSound false true rest := by
  simp [deassertSelect, pointSound]

@[simp] theorem pointSound_frameBody (csN : Level) (t : Timing) (f : Frame) (rest : List Line) :
    pointSound false csN (frameBody t f ++ rest) = pointSound false csN rest := by
  cases f <;> simp [frameBody, pointSound]

@[simp] theorem pointSound_frameRest (csN : Level) (s : State) (f : Frame) (rest : List Line) :
    pointSound false csN (frameRest s f ++ rest) = pointSound false true rest := by
  simp [frameRest]

theorem bool_and_imp_right {a b c : Bool} (h : b = true → c = true) (hab : (a && b) = true) : (a && c) = true := by
  obtain ⟨ha, hb⟩ := Bool.and_eq_true_iff.mp hab
  exact Bool.and_eq_true_iff.mpr ⟨ha, h hb⟩

/-- What is sound with the chip selected is sound with it deselected. -/
theorem pointSound_deselected {sck csN : Level} {point : List Line} (h : pointSound sck csN point = true) :
    pointSound sck true point = true := by
  induction point generalizing sck csN with
  | nil => exact h
  | cons l rest ih =>
    cases l with
    | drive p v =>
      cases p with
      | sck | wpN => exact ih h
      | mosi => exact bool_and_imp_right ih h
      | csN => exact h
    | shiftOut | shiftIn | beginRead | countRead | beginProgram | beginData | pull | countSent | beginErase |
        nextSector =>
      exact bool_and_imp_right ih h
    | nextChunk | polled =>
      obtain ⟨hlow, hrest⟩ := Bool.and_eq_true_iff.mp h
      exact Bool.and_eq_true_iff.mpr ⟨by simpa using (Bool.and_eq_true_iff.mp hlow).1, ih hrest⟩
    | wire f => exact h
    | raise c => simpa [pointSound] using (Bool.and_eq_true_iff.mp h).1
    | _ => exact ih h

/-! ### Points that write no illegal clock -/

@[simp] theorem pointClockLegal_append (a b : List Line) :
    pointClockLegal (a ++ b) = (pointClockLegal a && pointClockLegal b) := by
  induction a with
  | nil => rfl
  | cons l a ih => cases l <;> simp [pointClockLegal, ih, Bool.and_assoc]

@[simp] theorem pointClockLegal_delayLines (n : BitVec 10) : pointClockLegal (delayLines n) = true := by
  unfold delayLines
  split <;> rfl

@[simp] theorem pointClockLegal_pulse (t : Timing) : pointClockLegal (pulse t) = true := by
  simp [pulse, pointClockLegal]

@[simp] theorem pointClockLegal_txByteLines (t : Timing) (v : Byte) : pointClockLegal (txByteLines t v) = true := by
  simp [txByteLines, bitOrder, pointClockLegal]

@[simp] theorem pointClockLegal_rxByteLines (t : Timing) : pointClockLegal (rxByteLines t) = true := by
  simp [rxByteLines, bitOrder, pointClockLegal]

@[simp] theorem pointClockLegal_txBytesLines (t : Timing) (bs : List Byte) :
    pointClockLegal (txBytesLines t bs) = true := by
  induction bs with
  | nil => rfl
  | cons b bs ih => simpa [txBytesLines] using ih

@[simp] theorem pointClockLegal_frameRest (s : State) (f : Frame) : pointClockLegal (frameRest s f) = true := by
  cases f <;> simp [frameRest, frameBody, deassertSelect, pointClockLegal]

/-- No loop test and no branch puts a clock write in. -/
theorem pointClockLegal_expand (l : Line) (s : State) : pointClockLegal (expand l s) = true := by
  cases l with
  | wire f => exact pointClockLegal_frameRest s f
  | beginRead | countRead => cases h : moreToRead s <;> simp [expand, readLoop, h, pointClockLegal]
  | beginProgram | nextChunk =>
    cases h : moreChunks s <;> simp [expand, chunkLoop, chunkLines, busyWaitLoopLines, h, pointClockLegal]
  | beginData | countSent => cases h : moreData s <;> simp [expand, dataLoop, h, pointClockLegal]
  | pull => cases h : s.work.exh <;> simp [expand, pulledLines, h, pointClockLegal]
  | beginErase | nextSector =>
    cases h : moreSectors s <;> simp [expand, sectorLoop, sectorLines, busyWaitLoopLines, h, pointClockLegal]
  | polled count =>
    cases h : wip s <;> cases h' : pollLimitReached s <;> simp [expand, pollLoop, h, h', pointClockLegal]
  | _ => rfl

theorem pointClockLegal_of_cons {l : Line} {rest : List Line} (h : pointClockLegal (l :: rest) = true) :
    pointClockLegal rest = true := by
  rw [← List.singleton_append, pointClockLegal_append, Bool.and_eq_true] at h
  exact h.2

/-! ### A sound point stays sound

Each loop's hypothesis is what `pointSound` asks of the line that makes the loop's test. -/

theorem pointSound_readLoop {sck csN : Level} {rest : List Line} (s : State)
    (h : (!sck && pointSound sck csN rest) = true) : pointSound sck csN (readLoop s ++ rest) = true := by
  obtain ⟨rfl, hp⟩ : sck = false ∧ pointSound sck csN rest = true := by simpa using h
  cases hm : moreToRead s <;> simp [readLoop, hm, pointSound, hp]

theorem pointSound_dataLoop {sck csN : Level} {rest : List Line} (s : State)
    (h : (!sck && pointSound sck csN rest) = true) : pointSound sck csN (dataLoop s ++ rest) = true := by
  obtain ⟨rfl, hp⟩ : sck = false ∧ pointSound sck csN rest = true := by simpa using h
  cases hm : moreData s <;> simp [dataLoop, hm, pointSound, hp]

theorem pointSound_pulledLines {sck csN : Level} {rest : List Line} (s : State)
    (h : (!sck && pointSound sck csN rest) = true) : pointSound sck csN (pulledLines s ++ rest) = true := by
  obtain ⟨rfl, hp⟩ : sck = false ∧ pointSound sck csN rest = true := by simpa using h
  cases hm : s.work.exh <;> simp [pulledLines, hm, pointSound, hp]

theorem pointSound_chunkLoop {sck csN : Level} {rest : List Line} (s : State)
    (h : (!sck && pointSound sck csN rest) = true) : pointSound sck csN (chunkLoop s ++ rest) = true := by
  obtain ⟨rfl, hp⟩ : sck = false ∧ pointSound sck csN rest = true := by simpa using h
  have hd := pointSound_deselected hp
  cases hm : moreChunks s <;> simp [chunkLoop, chunkLines, busyWaitLoopLines, hm, pointSound, hp, hd]

theorem pointSound_sectorLoop {sck csN : Level} {rest : List Line} (s : State)
    (h : (!sck && pointSound sck csN rest) = true) : pointSound sck csN (sectorLoop s ++ rest) = true := by
  obtain ⟨rfl, hp⟩ : sck = false ∧ pointSound sck csN rest = true := by simpa using h
  have hd := pointSound_deselected hp
  cases hm : moreSectors s <;> simp [sectorLoop, sectorLines, busyWaitLoopLines, hm, pointSound, hp, hd]

theorem pointSound_pollLoop {sck csN : Level} {rest : List Line} (count : Bool) (s : State)
    (h : (!sck && csN && pointSound sck csN rest) = true) :
    pointSound sck csN (pollLoop count s ++ rest) = true := by
  obtain ⟨⟨rfl, rfl⟩, hp⟩ : (sck = false ∧ csN = true) ∧ pointSound sck csN rest = true := by simpa using h
  cases hw : wip s <;> cases hl : pollLimitReached s <;> simp [pollLoop, hw, hl, pointSound, hp]

/-- The point after a line that does not raise is sound for the levels that line leaves: only `drive` and `wire` move SCK
or CS_N, and only the loop tests, `pull` and `wire` put lines in. -/
theorem pointSound_perform {l : Line} {rest : List Line} {s : State}
    (h : pointSound s.pins.sck s.pins.csN (l :: rest) = true) (hr : raises l s = none) :
    pointSound (effect l s).pins.sck (effect l s).pins.csN (expand l (effect l s) ++ rest) = true := by
  cases l with
  | drive p v =>
    cases p with
    | sck | wpN => exact h
    | mosi | csN => exact (Bool.and_eq_true_iff.mp h).2
  | shiftOut v i | shiftIn i => exact (Bool.and_eq_true_iff.mp h).2
  | wire f =>
    obtain ⟨hsck, hrest⟩ : s.pins.sck = false ∧ pointSound false true rest = true := by simpa [pointSound] using h
    simpa [effect, expand, openFrame, Pins.set, hsck] using hrest
  | beginRead | countRead => exact pointSound_readLoop _ h
  | beginProgram => exact pointSound_chunkLoop _ h
  | nextChunk =>
    obtain ⟨hlow, hrest⟩ := Bool.and_eq_true_iff.mp h
    exact pointSound_chunkLoop _ (Bool.and_eq_true_iff.mpr ⟨(Bool.and_eq_true_iff.mp hlow).1, hrest⟩)
  | beginData | countSent => exact pointSound_dataLoop _ h
  | pull => exact pointSound_pulledLines _ h
  | beginErase | nextSector => exact pointSound_sectorLoop _ h
  | polled count => exact pointSound_pollLoop _ _ h
  | raise c => cases hr
  | _ => exact h

/-- A line that raises stands where SCK is low. -/
theorem sck_low_of_raises {l : Line} {rest : List Line} {s : State} {c : Result}
    (h : pointSound s.pins.sck s.pins.csN (l :: rest) = true) (hr : raises l s = some c) : s.pins.sck = false := by
  cases l with
  | raise c =>
    obtain ⟨hlow, _⟩ := Bool.and_eq_true_iff.mp h
    simpa using hlow
  | nextChunk =>
    obtain ⟨hlow, _⟩ := Bool.and_eq_true_iff.mp h
    simpa using (Bool.and_eq_true_iff.mp hlow).1
  | _ => cases hr

/-! ### What a command starts with -/

/-- The errors of EngineCheck are none of the two that a running command raises (R160, R227, R228). -/
theorem engineCheck_ne_late {ranged : Bool} {needs : Option StreamMode} {s : State} {c : Result}
    (h : engineCheck ranged needs s = some c) : c ≠ .timeout ∧ c ≠ .sourceShort := by
  unfold engineCheck at h
  split at h
  · cases h; decide
  split at h
  · cases h; decide
  split at h
  · cases h
  split at h
  · cases h
  · cases h; decide

/-- A CMD write starts every command at a point that is sound for SCK low and any CS_N, and writes no illegal clock. -/
structure StartsSound (point : List Line) : Prop where
  bus : ∀ csN, pointSound false csN point = true
  clock : pointClockLegal point = true

theorem startsSound_raise {c : Result} (h : c ≠ .timeout ∧ c ≠ .sourceShort) : StartsSound [.raise c] :=
  ⟨by simp [pointSound, h], rfl⟩

theorem startsSound_checked {ranged : Bool} {needs : Option StreamMode} {s : State} {lines : List Line}
    (h : StartsSound lines) : StartsSound (checked (engineCheck ranged needs s) lines) := by
  cases hc : engineCheck ranged needs s with
  | none => exact h
  | some c => exact startsSound_raise (engineCheck_ne_late hc)

theorem startsSound_rawChecked {s : State} {lines : List Line} (h : StartsSound lines) :
    StartsSound (rawChecked s lines) := by
  unfold rawChecked
  split
  · exact h
  · exact startsSound_raise (by decide)

theorem startsSound_setClockLines (k : BitVec 16) : StartsSound (setClockLines k) := by
  unfold setClockLines
  split
  · exact startsSound_raise (by decide)
  · rename_i hk
    exact ⟨fun _ => rfl, by simpa [pointClockLegal] using hk⟩

theorem startsSound_assertSelect (t : Timing) : StartsSound (assertSelect t) :=
  ⟨fun csN => by rw [← List.append_nil (assertSelect t), pointSound_assertSelect]; rfl,
    by simp [assertSelect, pointClockLegal]⟩

theorem startsSound_deassertSelect (t : Timing) : StartsSound (deassertSelect t) :=
  ⟨fun csN => by rw [← List.append_nil (deassertSelect t), pointSound_deassertSelect]; rfl,
    by simp [deassertSelect, pointClockLegal]⟩

theorem startsSound_txByteLines (t : Timing) (v : Byte) : StartsSound (txByteLines t v) :=
  ⟨fun csN => by rw [← List.append_nil (txByteLines t v), pointSound_txByteLines]; rfl,
    pointClockLegal_txByteLines t v⟩

theorem startsSound_rxByteLines (t : Timing) : StartsSound (rxByteLines t ++ [.writeRxData]) :=
  ⟨fun csN => pointSound_rxByteLines csN t _, by simp [pointClockLegal]⟩

/-- The lines a command starts with, its checks performed. -/
def commandLines (c : Command) (s : State) : List Line :=
  match c with
  | .nop => nopLines
  | .init => initLines
  | .setClock k => setClockLines k
  | .setWp p => setWpLines p
  | .csAssert => csAssertLines s
  | .csDeassert => csDeassertLines s
  | .txByte d => txByteCmdLines d s
  | .rxByte => rxByteCmdLines s
  | .identify => identifyLines s
  | .read => readLines s
  | .program => programLines s
  | .erase => eraseLines s
  | .busyWait => busyWaitLines s

theorem exec_command_eq_startLines (c : Command) (s : State) :
    exec c.instr s = startLines (encodeCommand c) (commandLines c s) s := by
  cases c <;> rfl

theorem startDecoded_eq_startLines (c : Command) (s : State) :
    startDecoded c s = startLines (encodeCommand c) (commandLines c s) s := by
  cases c <;> rfl

theorem startsSound_commandLines (c : Command) (s : State) : StartsSound (commandLines c s) := by
  cases c with
  | nop | init | setWp => exact ⟨fun _ => rfl, rfl⟩
  | setClock k => exact startsSound_setClockLines k
  | csAssert => exact startsSound_rawChecked (startsSound_assertSelect _)
  | csDeassert => exact startsSound_rawChecked (startsSound_deassertSelect _)
  | txByte d => exact startsSound_rawChecked (startsSound_txByteLines _ d)
  | rxByte => exact startsSound_rawChecked (startsSound_rxByteLines _)
  | identify | read | program | busyWait => exact startsSound_checked ⟨fun _ => rfl, rfl⟩
  | erase =>
    refine startsSound_checked ?_
    split <;> exact ⟨fun _ => rfl, rfl⟩

/-- StartCommand starts a command, or the raise that an illegal or a reserved word stands for, at a sound point
(R202). -/
theorem startCommand_next_sound {v : Word} {s t : State} (h : startCommand v s = .next t) :
    ∃ w point, StartsSound point ∧ t = started w point s := by
  unfold startCommand at h
  split at h
  · exact ⟨_, _, startsSound_raise (by decide), startLines_next h⟩
  · exact ⟨_, _, startsSound_raise (by decide), startLines_next h⟩
  · rename_i c _
    rw [startDecoded_eq_startLines] at h
    exact ⟨_, _, startsSound_commandLines c s, startLines_next h⟩

/-! ### The fields the invariant speaks of -/

/-- STATUS, the pins, the clock and SEQ. -/
structure Guarded where
  seq       : Seq
  busy      : Bool
  csActive  : Bool
  pins      : Pins
  timing    : Timing
  clkKhz    : BitVec 16
  result    : Result
  errSticky : Bool

def State.guarded (s : State) : Guarded :=
  { seq := s.seq, busy := s.busy, csActive := s.csActive, pins := s.pins, timing := s.timing, clkKhz := s.clkKhz,
    result := s.result, errSticky := s.errSticky }

/-- The invariant reads no field but the guarded ones. -/
theorem Inv.of_guarded_eq {s t : State} (h : Inv s) (e : t.guarded = s.guarded) : Inv t := by
  simp only [State.guarded, Guarded.mk.injEq] at e
  obtain ⟨hseq, hbusy, hcs, hpins, htiming, hclk, hresult, hsticky⟩ := e
  exact
    { idle_iff := by rw [hseq, hbusy]; exact h.idle_iff
      cs := by rw [hcs, hpins]; exact h.cs
      timing := by rw [htiming, hclk]; exact h.timing
      clk := by rw [hclk]; exact h.clk
      sticky := by rw [hresult, hsticky]; exact h.sticky
      bus := by simpa only [busSound, hseq, hpins] using h.bus }

theorem execRd_guarded {a : Byte} {s t : State} (h : execRd a s = .next t) : t.guarded = s.guarded := by
  obtain ⟨rs, rfl⟩ := execRd_next h
  rfl

/-- A WR that answers a next state came while BUSY = 0, and is StartCommand or stores a register the invariant does not read
(R201, R204). -/
theorem execWr_next_idle_cases {a : Byte} {v : Word} {s t : State} (h : execWr a v s = .next t) :
    s.busy = false ∧ (startCommand v s = .next t ∨ t.guarded = s.guarded) := by
  unfold execWr at h
  split at h
  · cases h
  · rename_i r _
    split at h
    · cases h
    · rename_i hb
      refine ⟨by simpa using hb, ?_⟩
      cases r with
      | cmd => exact .inl h
      | config | offset | byteCount | pollLimit =>
        cases h
        exact .inr rfl
      | _ => cases h

theorem pollAgain_guarded (gap : Nat) (s : State) : (pollAgain gap s).guarded = s.guarded := by
  unfold pollAgain
  split <;> rfl

/-! ### The invariant, field by field -/

theorem Inv.seq_idle {s : State} (hi : Inv s) (hb : s.busy = false) : s.seq = .idle := hi.idle_iff.mpr hb

theorem Inv.busy_of_running {s : State} (hi : Inv s) {cmd : Word} {point : List Line} (h : s.seq = .running cmd point) :
    s.busy = true := by
  have hs : s.seq ≠ .idle := by simp [h]
  simpa [hi.idle_iff] using hs

theorem busSound_running {s : State} {cmd : Word} {point : List Line} (h : s.seq = .running cmd point) :
    busSound s = (pointSound s.pins.sck s.pins.csN point && pointClockLegal point) := by
  unfold busSound
  rw [h]

theorem busSound_idle {s : State} (h : s.seq = .idle) : busSound s = !s.pins.sck := by
  unfold busSound
  rw [h]

theorem complete_keeps_inv {s : State} (hi : Inv s) (hsck : s.pins.sck = false) (c : Result) : Inv (complete c s) where
  idle_iff := by simp
  cs := hi.cs
  timing := hi.timing
  clk := hi.clk
  sticky := fun hc => by simpa [stickyAfter] using Or.inr hc
  bus := by simp [busSound, hsck]

@[simp] theorem effect_busy (l : Line) (s : State) : (effect l s).busy = s.busy := by
  cases l <;> simp [effect]

@[simp] theorem effect_result (l : Line) (s : State) : (effect l s).result = s.result := by
  cases l <;> simp [effect]

@[simp] theorem effect_errSticky (l : Line) (s : State) : (effect l s).errSticky = s.errSticky := by
  cases l <;> simp [effect]

/-- CS_ACTIVE follows CS_N whatever the line (R31). -/
theorem effect_csActive {s : State} (h : s.csActive = !s.pins.csN) (l : Line) :
    (effect l s).csActive = !(effect l s).pins.csN := by
  cases l with
  | drive p v => cases p <;> simp [effect, csActiveAfter, Pins.set, h]
  | wire f => rfl
  | _ => simpa [effect, Pins.set] using h

theorem effect_timing {s : State} (h : s.timing = configureTiming s.clkKhz) (l : Line) :
    (effect l s).timing = configureTiming (effect l s).clkKhz := by
  cases l with
  | writeClock k => rfl
  | _ => simpa [effect] using h

theorem effect_clkKhz_legal {l : Line} {rest : List Line} {s : State} (h : s.clkKhz.toNat ≤ Config.clkMaxKhz)
    (hp : pointClockLegal (l :: rest) = true) : (effect l s).clkKhz.toNat ≤ Config.clkMaxKhz := by
  cases l with
  | writeClock k => exact of_decide_eq_true (Bool.and_eq_true_iff.mp hp).1
  | _ => simpa [effect] using h

theorem perform_keeps_inv {s : State} (hi : Inv s) {l : Line} {cmd : Word} {rest : List Line}
    (hs : s.seq = .running cmd (l :: rest)) : Inv (perform l cmd rest s) := by
  have hbus := hi.bus
  rw [busSound_running hs, Bool.and_eq_true] at hbus
  obtain ⟨hpoint, hclock⟩ := hbus
  cases hr : raises l s with
  | some c =>
    rw [perform_of_raises hr]
    exact complete_keeps_inv hi (sck_low_of_raises hpoint hr) c
  | none =>
    rw [perform_of_not_raises hr]
    exact
      { idle_iff := by simp [hi.busy_of_running hs]
        cs := effect_csActive hi.cs l
        timing := effect_timing hi.timing l
        clk := effect_clkKhz_legal hi.clk hclock
        sticky := by simpa using hi.sticky
        bus := by
          rw [busSound_running (atPoint_seq _ _ _)]
          simp [pointSound_perform hpoint hr, pointClockLegal_expand, pointClockLegal_of_cons hclock] }

theorem started_keeps_inv {s : State} (hi : Inv s) (hb : s.busy = false) {point : List Line} (hp : StartsSound point)
    (w : Word) : Inv (started w point s) where
  idle_iff := by simp
  cs := hi.cs
  timing := hi.timing
  clk := hi.clk
  sticky := hi.sticky
  bus := by
    have hsck : s.pins.sck = false := by simpa [busSound_idle (hi.seq_idle hb)] using hi.bus
    simp [busSound, hsck, hp.bus, hp.clock]

theorem resetBlock_meets_inv (s : State) : Inv (resetBlock s) where
  idle_iff := ⟨fun _ => rfl, fun _ => rfl⟩
  cs := rfl
  timing := rfl
  clk := by simp [resetBlock]
  sticky := by simp [resetBlock]
  bus := rfl

/-! ### The turns -/

/-- An engine step waits while SEQ is idle, finishes at an empty point, or performs the point's first line. -/
theorem engineTurn_next_point_cases {s t : State} (h : engineTurn s = .next t) :
    t = s ∨ (∃ cmd, s.seq = .running cmd [] ∧ t = complete .ok s) ∨
      ∃ l cmd rest, s.seq = .running cmd (l :: rest) ∧ t = perform l cmd rest s := by
  cases hs : s.seq with
  | idle =>
    rw [engineTurn_idle hs] at h
    exact .inl (Host.Outcome.next.inj h).symm
  | running cmd point =>
    cases point with
    | nil =>
      rw [engineTurn_finish hs] at h
      exact .inr (.inl ⟨cmd, rfl, (Host.Outcome.next.inj h).symm⟩)
    | cons l rest =>
      rw [engineTurn_line hs] at h
      exact .inr (.inr ⟨l, cmd, rest, rfl, (Host.Outcome.next.inj h).symm⟩)

/-- A move of the outside is a WR, a reset, or leaves every guarded field alone. -/
theorem hostTurn_next_cases {act : HostAct} {s t : State} (h : hostTurn act s = .next t) :
    (∃ a v, execWr a v s = .next t) ∨ (act = .reset ∧ t = resetBlock s) ∨ t.guarded = s.guarded := by
  cases act with
  | access a =>
    rcases accessTurn_next_cases h with ⟨x, hx⟩ | hw
    · exact .inr (.inr (execRd_guarded hx))
    · exact .inl hw
  | waitIdle gap =>
    simp only [hostTurn] at h
    split at h
    · rename_i u hu
      cases h
      exact .inr (.inr ((pollAgain_guarded gap u).trans (execRd_guarded (a := Reg.status.offsetOf) hu)))
    · cases h
    · cases h
  | streamMode m =>
    simp only [hostTurn] at h
    split at h
    · cases h
    · cases h
      exact .inr (.inr rfl)
  | reset => exact .inr (.inl ⟨rfl, (Host.Outcome.next.inj h).symm⟩)

theorem engineTurn_keeps_inv {s t : State} (hi : Inv s) (h : engineTurn s = .next t) : Inv t := by
  rcases engineTurn_next_point_cases h with rfl | ⟨cmd, hs, rfl⟩ | ⟨l, cmd, rest, hs, rfl⟩
  · exact hi
  · have hbus := hi.bus
    rw [busSound_running hs, Bool.and_eq_true] at hbus
    exact complete_keeps_inv hi (by simpa [pointSound] using hbus.1) .ok
  · exact perform_keeps_inv hi hs

theorem execWr_keeps_inv {a : Byte} {v : Word} {s t : State} (hi : Inv s) (h : execWr a v s = .next t) : Inv t := by
  obtain ⟨hb, hc⟩ := execWr_next_idle_cases h
  rcases hc with hc | he
  · obtain ⟨w, point, hp, rfl⟩ := startCommand_next_sound hc
    exact started_keeps_inv hi hb hp w
  · exact hi.of_guarded_eq he

theorem hostTurn_keeps_inv {act : HostAct} {s t : State} (hi : Inv s) (h : hostTurn act s = .next t) : Inv t := by
  rcases hostTurn_next_cases h with ⟨a, v, hw⟩ | ⟨-, rfl⟩ | he
  · exact execWr_keeps_inv hi hw
  · exact resetBlock_meets_inv s
  · exact hi.of_guarded_eq he

/-- Settles O56: by the agent whose turn it is, the host's queue moved on first. -/
theorem everyStepKeepsTheInvariant : Obligations.EveryStepKeepsTheInvariant := by
  intro s t hi h
  have hq (q : List HostMove) : Inv { s with host := q } := hi.of_guarded_eq rfl
  rcases step_next_cases h with ⟨q, he⟩ | ⟨m, q, -, -, hh⟩
  · exact engineTurn_keeps_inv (hq q) he
  · exact hostTurn_keeps_inv (hq q) hh

/-- Settles O55: reset leaves SCK low and SEQ idle, and no frame has been sent. -/
theorem resetMeetsTheInvariants : Obligations.ResetMeetsTheInvariants := by
  refine ⟨?_, ⟨rfl, ?_⟩⟩
  · exact
      { idle_iff := ⟨fun _ => rfl, fun _ => rfl⟩
        cs := rfl
        timing := rfl
        clk := Nat.zero_le _
        sticky := fun h => absurd rfl h
        bus := rfl }
  · intro cmd point h
    cases h

end Sys2Proof.Machine

/-! # RESULT and ERR_STICKY (R28, R29, R30) -/

namespace Sys2Proof.Machine

/-- RESULT and ERR_STICKY as they were, and no command has ended. -/
structure StatusKept (s t : State) : Prop where
  result : t.result = s.result
  sticky : t.errSticky = s.errSticky
  busy : s.busy = true → t.busy = true

theorem StatusKept.of_guarded_eq {s t : State} (e : t.guarded = s.guarded) : StatusKept s t where
  result := congrArg Guarded.result e
  sticky := congrArg Guarded.errSticky e
  busy := fun h => (congrArg Guarded.busy e).trans h

theorem execWr_keeps_status {a : Byte} {v : Word} {s t : State} (h : execWr a v s = .next t) : StatusKept s t := by
  rcases (execWr_next_idle_cases h).2 with hc | he
  · obtain ⟨w, point, rfl⟩ := startCommand_next hc
    exact ⟨rfl, rfl, fun _ => rfl⟩
  · exact .of_guarded_eq he

theorem hostTurn_keeps_status {act : HostAct} (hact : act ≠ .reset) {s t : State} (h : hostTurn act s = .next t) :
    StatusKept s t := by
  rcases hostTurn_next_cases h with ⟨a, v, hw⟩ | ⟨hr, -⟩ | he
  · exact execWr_keeps_status hw
  · exact absurd hr hact
  · exact .of_guarded_eq he

/-- An engine step keeps the status or completes the running command. -/
theorem engineTurn_keeps_status_or_completes {s t : State} (h : engineTurn s = .next t) :
    StatusKept s t ∨ s.seq ≠ .idle ∧ ∃ c, t = complete c s := by
  rcases engineTurn_next_point_cases h with rfl | ⟨cmd, hs, rfl⟩ | ⟨l, cmd, rest, hs, rfl⟩
  · exact .inl (.of_guarded_eq rfl)
  · exact .inr ⟨by simp [hs], _, rfl⟩
  · cases hr : raises l s with
    | some c => exact .inr ⟨by simp [hs], c, perform_of_raises hr cmd rest⟩
    | none =>
      rw [perform_of_not_raises hr]
      exact .inl ⟨by simp, by simp, by simp⟩

theorem step_keeps_status_or_completes {s t : State} (h : step s = .next t) (hr : resetDue s = false) :
    StatusKept s t ∨ s.seq ≠ .idle ∧ ∃ c q, t = complete c { s with host := q } := by
  rcases step_next_cases h with ⟨q, he⟩ | ⟨m, q, hq, hw, hh⟩
  · rcases engineTurn_keeps_status_or_completes he with hk | ⟨hs, c, hc⟩
    · exact .inl ⟨hk.result, hk.sticky, hk.busy⟩
    · exact .inr ⟨hs, c, q, hc⟩
  · have hk := hostTurn_keeps_status (act_ne_reset_of_not_resetDue hr hq hw) hh
    exact .inl ⟨hk.result, hk.sticky, hk.busy⟩

/-- Settles O52: a step that is no reset keeps the status or completes a command, which the invariant says was busy. -/
theorem resultAndStickyChangeOnlyAtCompletion : Obligations.ResultAndStickyChangeOnlyAtCompletion := by
  intro s t hi h hr
  rcases step_keeps_status_or_completes h hr with hk | ⟨hs, c, q, rfl⟩
  · refine ⟨fun hc => ?_, ?_⟩
    · rcases hc with hc | ⟨hb, hc⟩
      · exact absurd hk.result hc
      · simp [hk.busy hb] at hc
    · rw [hk.sticky]
      refine ⟨.inl, fun hc => hc.resolve_right ?_⟩
      rintro ⟨hb, hc, -⟩
      simp [hk.busy hb] at hc
  · have hb : s.busy = true := by simpa [hi.idle_iff] using hs
    exact ⟨fun _ => ⟨hb, rfl, rfl⟩, by simp [stickyAfter, hb]⟩

end Sys2Proof.Machine

/-! # What a step runs (R23, R108, R122, R202) -/

namespace Sys2Proof.Machine

theorem step_engineNext {s : State} {k : Nat} {act : HostAct} {q : List HostMove}
    (h : s.host = { wait := k + 1, act := act } :: q) :
    step s = engineTurn { s with host := { wait := k, act := act } :: q } := by
  unfold step turn
  rw [h]

theorem step_hostDue {s : State} {act : HostAct} {q : List HostMove} (h : s.host = { wait := 0, act := act } :: q) :
    step s = hostTurn act { s with host := q } := by
  unfold step turn
  rw [h]

theorem step_access {s : State} {a : HostAccess} {q : List HostMove} (h : s.host = { wait := 0, act := .access a } :: q)
    (ha : a.size = 4) : step s = exec (decodeAccess a.descriptor a.data) { s with host := q } :=
  (step_hostDue h).trans (if_pos ha)

/-- Writing a command's word to CMD is running the command, refused while BUSY = 1 either way (R202, R204). -/
theorem exec_cmdWrite {w : Word} {c : Command} (h : decodeCommand w = .command c) (s : State) :
    exec (.wr 0x00 w) s = exec c.instr s := by
  have hw : exec (.wr 0x00 w) s = if s.busy then .refused .writeWhileBusy else startCommand w s := rfl
  have hc : startCommand w s = startLines (encodeCommand c) (commandLines c s) s := by
    unfold startCommand
    rw [h]
    exact startDecoded_eq_startLines c s
  rw [hw, hc, exec_command_eq_startLines]
  cases hb : s.busy with
  | false => rfl
  | true => exact (startLines_busy hb _ _).symm

theorem decodeAccess_rd (a : Byte) (v : Word) : decodeAccess (0#1 ++ a) v = .rd a := by
  simp only [decodeAccess, Laws.Codec.rd_join, Bool.false_eq_true, if_false]

theorem decodeAccess_wr (a : Byte) (v : Word) : decodeAccess (1#1 ++ a) v = .wr a v := by
  simp only [decodeAccess, Laws.Codec.wr_join, if_true]

theorem decodeAccess_cmdWrite (w : Word) : decodeAccess (cmdWrite w).descriptor (cmdWrite w).data = .wr 0x00 w :=
  decodeAccess_wr 0x00 w

theorem step_cmdWrite {s : State} {w : Word} {c : Command} {q : List HostMove}
    (h : s.host = { wait := 0, act := .access (cmdWrite w) } :: q) (hw : decodeCommand w = .command c) :
    step s = exec c.instr { s with host := q } :=
  (step_access h rfl).trans (by rw [decodeAccess_cmdWrite, exec_cmdWrite hw])

theorem engineTurn_wire {s : State} {cmd : Word} {f : Frame} {rest : List Line}
    (h : s.seq = .running cmd (.wire f :: rest)) :
    engineTurn s = exec f.instr { s with seq := .running cmd rest } := by
  unfold engineTurn
  rw [h]

/-- Settles O14: the agent whose turn it is, then what that agent's turn runs. -/
theorem stepRunsTheDecodedInstruction : Obligations.StepRunsTheDecodedInstruction := by
  refine ⟨?_, ?_, ?_, ?_, ?_⟩
  · intro s a q h ha
    exact step_access h ha
  · intro s w c q h hw
    exact step_cmdWrite h hw
  · intro s cmd f rest hs h
    rw [step_no_host h, engineTurn_wire hs]
  · intro s cmd f rest k act q hs h
    rw [step_engineNext h, engineTurn_wire (by exact hs)]
  · intro s cmd l rest hs h
    rw [step_no_host h, engineTurn_line hs]

end Sys2Proof.Machine

/-! # Where a placed instruction runs -/

namespace Sys2Proof.Machine

theorem encode_command (o : Config.Opcodes) (c : Command) : encode o c.instr = .command (encodeCommand c) := by
  cases c <;> rfl

theorem encode_frame (o : Config.Opcodes) (f : Frame) : encode o f.instr = .frame (f.header o) := by
  cases f <;> rfl

theorem step_placed_command (c : Command) (s : State) :
    step (placeEncoded (.command (encodeCommand c)) s) = exec c.instr s :=
  step_cmdWrite rfl (Laws.Codec.decodeCommand_encodeCommand c)

theorem step_placed_access (d : BitVec 9) (v : Word) (s : State) :
    step (placeEncoded (.access d v) s) = exec (decodeAccess d v) s :=
  step_access (a := { descriptor := d, size := 4, data := v }) (q := s.host) rfl rfl

/-- With the outside's first move waiting one engine step more, the step is the engine's. -/
theorem step_deferHost (s : State) : step { s with host := deferHost s.host } = engineTurn s := by
  cases hq : s.host with
  | nil => rw [deferHost, step_no_host rfl, ← hq]
  | cons m q => rw [deferHost, step_engineNext rfl, ← hq]

theorem step_placeFrame {s : State} {cmd : Word} {rest : List Line} (hs : s.seq = .running cmd rest) (f : Frame) :
    step (placeFrame f s) = exec f.instr { s with busy := true } := by
  have hp : placeFrame f s =
      { s with host := deferHost s.host, busy := true, seq := .running cmd (.wire f :: rest) } := by
    simp only [placeFrame, hs]
  calc step (placeFrame f s)
      = engineTurn { s with busy := true, seq := .running cmd (.wire f :: rest) } := by
        rw [hp]
        exact step_deferHost { s with busy := true, seq := .running cmd (.wire f :: rest) }
    _ = exec f.instr { s with busy := true } := by
        rw [engineTurn_wire rfl, ← hs]

/-- Settles O15: encoded, then placed as the outside's first move or as the engine's first line. -/
theorem placedInstructionRunsNext : Obligations.PlacedInstructionRunsNext := by
  intro s ho
  refine ⟨?_, ?_, ?_, ?_⟩
  · intro c
    rw [encode_command, step_placed_command]
  · intro a
    rw [encode, step_placed_access, decodeAccess_rd]
  · intro a v
    rw [encode, step_placed_access, decodeAccess_wr]
  · intro f cmd rest hs
    rw [encode_frame, placeEncoded, Laws.Codec.decodeFrame_header f ho]
    exact step_placeFrame hs f

end Sys2Proof.Machine

/-! # The register words -/

namespace Sys2Proof.Machine

/-- Two bit fields side by side, as a sum. -/
theorem toNat_append_eq_add {m n : Nat} (x : BitVec m) (y : BitVec n) :
    (x ++ y).toNat = 2 ^ n * x.toNat + y.toNat := by
  rw [BitVec.toNat_append, ← Nat.shiftLeft_add_eq_or_of_lt y.isLt, Nat.shiftLeft_eq, Nat.mul_comm]

theorem statusWord_toNat (s : State) :
    (statusWord s).toNat =
      s.busy.toNat + 16 * s.result.code.toNat + 256 * s.errSticky.toNat + 512 * s.csActive.toNat := by
  rw [statusWord]
  simp only [toNat_append_eq_add, BitVec.toNat_ofBool, BitVec.toNat_ofNat]
  omega

theorem configWord_toNat (s : State) : (configWord s).toNat = s.iface.code.toNat + 256 * s.proto.code.toNat := by
  rw [configWord]
  simp only [toNat_append_eq_add, BitVec.toNat_ofBool, BitVec.toNat_ofNat]
  omega

theorem timingWord_toNat (s : State) :
    (timingWord s).toNat = s.timing.half.toNat + 1024 * s.timing.bit.toNat + 1048576 * s.timing.byte.toNat := by
  rw [timingWord]
  simp only [toNat_append_eq_add, BitVec.toNat_ofNat]
  omega

theorem chipIdWord_toNat (s : State) :
    (chipIdWord s).toNat =
      s.chipId.mfr.toNat + 256 * s.chipId.typ.toNat + 65536 * s.chipId.cap.toNat +
        2147483648 * s.chipId.valid.toNat := by
  rw [chipIdWord]
  simp only [toNat_append_eq_add, BitVec.toNat_ofBool, BitVec.toNat_ofNat]
  omega

theorem pinsWord_toNat (s : State) :
    (pinsWord s).toNat =
      s.pins.sck.toNat + 2 * s.pins.mosi.toNat + 4 * s.pins.csN.toNat + 8 * s.pins.wpN.toNat +
        16 * (Config.freePinMiso s.reads.length).toNat := by
  rw [pinsWord]
  simp only [toNat_append_eq_add, BitVec.toNat_ofBool, BitVec.toNat_ofNat]
  omega

/-- A field with zeros above it. -/
theorem toNat_zero_append {n : Nat} (m : Nat) (x : BitVec n) : (0#m ++ x).toNat = x.toNat := by
  rw [toNat_append_eq_add, BitVec.toNat_ofNat, Nat.zero_mod, Nat.mul_zero, Nat.zero_add]

/-- Settles O7: each word as the sum of its fields, with the codes of R32 and R221. -/
theorem registerWordsHoldTheirFields : Obligations.RegisterWordsHoldTheirFields := by
  intro s
  refine ⟨rfl, ?_, ?_, rfl, toNat_zero_append 3 _, toNat_zero_append 16 _, timingWord_toNat s, chipIdWord_toNat s,
    toNat_zero_append 24 _, pinsWord_toNat s, rfl, rfl⟩
  · rw [readReg, statusWord_toNat]
    cases s.result <;> rfl
  · rw [readReg, configWord_toNat]
    cases s.iface <;> cases s.proto <;> rfl

end Sys2Proof.Machine

/-! # The stream source at its end (R84) -/

namespace Sys2Proof.Machine

/-! ### What a pull does to the source -/

theorem Source.next_of_ended {q : Source} (hb : q.bytes = []) (he : q.ended = true) : q.next = (none, q) := by
  simp only [Source.next, hb, he, if_true]

/-- End-of-input comes only with the script used up, and the source is then marked ended. -/
theorem Source.ended_of_next_none {q : Source} (h : q.next.1 = none) : q.next.2.bytes = [] ∧ q.next.2.ended = true := by
  cases hb : q.bytes with
  | cons b bs => simp [Source.next, hb] at h
  | nil =>
    cases he : q.ended with
    | true => simp only [Source.next_of_ended hb he, hb, he, and_self]
    | false =>
      cases hd : Config.freePull q.drawn with
      | some b => simp [Source.next, hb, he, hd] at h
      | none => simp [Source.next, hb, he, hd]

/-! ### What a step does to the source -/

theorem Outward.Move.source_cases {o o' : Outward} (h : o.Move o') :
    o'.source = o.source ∨ o'.source = o.source.next.2 := by
  cases h with
  | pull => exact .inr rfl
  | silent | write | delay | sample | push => exact .inl rfl

@[simp] theorem resetBlock_source (s : State) : (resetBlock s).source = s.source := rfl

/-- No move of the outside touches the source; a reset neither, since the agents around the block are not reset (R250). -/
theorem hostTurn_source {act : HostAct} {s t : State} (h : hostTurn act s = .next t) : t.source = s.source := by
  by_cases hact : act = .reset
  · subst hact
    cases h
    exact resetBlock_source s
  · exact congrArg Outward.source (hostTurn_outward hact h)

/-- A step leaves the source as it is or pulls from it once. -/
theorem step_source_cases {s t : State} (h : step s = .next t) :
    t.source = s.source ∨ t.source = s.source.next.2 := by
  rcases step_next_cases h with ⟨q, he⟩ | ⟨m, q, -, -, hh⟩
  · exact (engineTurn_move (s := { s with host := q }) he).source_cases
  · exact .inl (hostTurn_source (s := { s with host := q }) hh)

/-- Settles O54: a pull marks the source ended when it gives end-of-input, and a step can at most pull. -/
theorem endOfInputIsSticky : Obligations.EndOfInputIsSticky := by
  refine ⟨fun q h => ?_, fun s t h hend => ?_⟩
  · obtain ⟨hb, he⟩ := Source.ended_of_next_none h
    exact Source.next_of_ended hb he
  · rcases step_source_cases h with hs | hs
    · exact hs
    · rw [hs, hend]

end Sys2Proof.Machine

/-! # The command decoder against its encoder (R101 to R105, R122) -/

namespace Sys2Proof.Machine

/-! ### One row of the command map -/

/-- How many ARG bits a CODE of R103 uses (R102). -/
def argWidth (code : Nat) : Nat :=
  match code with
  | 0x02 => 16
  | 0x03 => 1
  | 0x12 => 8
  | _ => 0

/-- CODE's bits and the bits from `n` on. -/
def rowMask (n : Nat) : Word := (BitVec.allOnes 32 <<< n) ||| (BitVec.allOnes 8).setWidth 32

/-- A row covers CODE and every bit above its ARG field, and matches its CODE with those bits 0 (R103). -/
theorem commandRow_spec : ∀ r ∈ commandRows,
    r.mask = rowMask (8 + argWidth r.code.toNat) ∧ r.matched = r.code.setWidth 32 := by
  decide

theorem find_commandRow : ∀ r ∈ commandRows, commandRows.find? (fun q => q.code == r.code) = some r := by
  decide

theorem codeOf_toNat (w : Word) : (codeOf w).toNat = w.toNat % 256 := by
  rw [codeOf, BitVec.extractLsb'_toNat, Nat.shiftRight_zero]

theorem getLsbD_rowMask {n i : Nat} (hi : i < 32) :
    (rowMask n).getLsbD i = (decide (n ≤ i) || decide (i < 8)) := by
  have h : i - n < 32 := by omega
  simp only [rowMask, BitVec.getLsbD_or, BitVec.getLsbD_shiftLeft, BitVec.getLsbD_setWidth, BitVec.getLsbD_allOnes, hi, h,
    decide_true, Bool.true_and, Bool.and_true, ← decide_not, Nat.not_lt]

/-- Masking CODE and the bits from `n` on leaves CODE alone exactly when those bits are 0. -/
theorem and_rowMask_eq_iff {n : Nat} (hn : 8 ≤ n) (w : Word) :
    w &&& rowMask n = (codeOf w).setWidth 32 ↔ w.toNat < 2 ^ n := by
  have hcode : ∀ i < 32, ((codeOf w).setWidth 32).getLsbD i = (decide (i < 8) && w.getLsbD i) := by
    intro i hi
    simp only [codeOf, BitVec.getLsbD_setWidth, BitVec.getLsbD_extractLsb', hi, decide_true, Bool.true_and,
      Nat.zero_add]
  constructor
  · intro h
    refine Nat.lt_pow_two_of_testBit _ fun i hi => ?_
    by_cases h32 : i < 32
    · have h8 : ¬ i < 8 := by omega
      have hb := congrArg (fun v => v.getLsbD i) h
      simp only [BitVec.getLsbD_and, getLsbD_rowMask h32, hcode i h32, hi, h8, decide_true, decide_false, Bool.true_or,
        Bool.and_true, Bool.false_and] at hb
      exact hb
    · exact BitVec.getLsbD_of_ge w i (Nat.le_of_not_lt h32)
  · intro h
    refine BitVec.eq_of_getLsbD_eq fun i h32 => ?_
    rw [BitVec.getLsbD_and, getLsbD_rowMask h32, hcode i h32]
    by_cases hi : n ≤ i
    · have hw : w.getLsbD i = false := Nat.testBit_lt_two_pow (h.trans_le (Nat.pow_le_pow_right Nat.two_pos hi))
      rw [hw, Bool.false_and, Bool.and_false]
    · rw [decide_eq_false hi, Bool.false_or, Bool.and_comm]

theorem matches_commandRow_iff {r : CommandRow} (hr : r ∈ commandRows) {w : Word} (hc : r.code = codeOf w) :
    w &&& r.mask = r.matched ↔ w.toNat < 2 ^ (8 + argWidth r.code.toNat) := by
  obtain ⟨hmask, hmatched⟩ := commandRow_spec r hr
  rw [hmask, hmatched, hc]
  exact and_rowMask_eq_iff (Nat.le_add_right 8 _) w

/-! ### The three verdicts -/

theorem commandOfCode_of_row {r : CommandRow} (hr : r ∈ commandRows) {w : Word} (hc : r.code = codeOf w) :
    ∃ c, commandOfCode w = some c := by
  unfold commandOfCode
  rw [← hc]
  fin_cases hr <;> exact ⟨_, rfl⟩

/-- A word whose CODE has no row is illegal; one whose CODE has a row is its command if no bit above the ARG field is
set, and else reserved (R104, R105, R122). -/
theorem decodeCommand_cases (w : Word) :
    ((∀ r ∈ commandRows, r.code ≠ codeOf w) ∧ decodeCommand w = .illegal) ∨
      ∃ r ∈ commandRows, r.code = codeOf w ∧ ∃ c, commandOfCode w = some c ∧
        decodeCommand w = if w.toNat < 2 ^ (8 + argWidth r.code.toNat) then .command c else .reserved := by
  by_cases h : ∃ r ∈ commandRows, r.code = codeOf w
  · right
    obtain ⟨r, hr, hc⟩ := h
    obtain ⟨c, hcmd⟩ := commandOfCode_of_row hr hc
    refine ⟨r, hr, hc, c, hcmd, ?_⟩
    have hfind : commandRows.find? (fun q => q.code == codeOf w) = some r := hc ▸ find_commandRow r hr
    simp only [decodeCommand, hfind, hcmd, matches_commandRow_iff hr hc]
  · left
    push Not at h
    have hfind : commandRows.find? (fun q => q.code == codeOf w) = none :=
      List.find?_eq_none.mpr fun r hr => by rw [beq_iff_eq]; exact h r hr
    refine ⟨h, ?_⟩
    simp only [decodeCommand, hfind]

theorem decodeCommand_eq_illegal_iff (w : Word) :
    decodeCommand w = .illegal ↔ ∀ r ∈ commandRows, r.code ≠ codeOf w := by
  rcases decodeCommand_cases w with ⟨hno, hd⟩ | ⟨r, hr, hc, c, -, hd⟩
  · exact iff_of_true hd hno
  · refine iff_of_false ?_ fun hno => hno r hr hc
    rw [hd]
    split <;> exact nofun

theorem decodeCommand_eq_reserved_iff (w : Word) :
    decodeCommand w = .reserved ↔
      ∃ r ∈ commandRows, r.code.toNat = w.toNat % 256 ∧ 2 ^ (8 + argWidth r.code.toNat) ≤ w.toNat := by
  simp only [← codeOf_toNat]
  rcases decodeCommand_cases w with ⟨hno, hd⟩ | ⟨r, hr, hc, c, -, hd⟩
  · refine iff_of_false (hd ▸ nofun) ?_
    rintro ⟨r, hr, hc, -⟩
    exact hno r hr (BitVec.eq_of_toNat_eq hc)
  · rw [hd]
    constructor
    · intro h
      split at h
      · cases h
      · exact ⟨r, hr, congrArg _ hc, Nat.le_of_not_lt ‹_›⟩
    · rintro ⟨q, hq, hqc, hle⟩
      have hsame : q.code = r.code := (BitVec.eq_of_toNat_eq hqc).trans hc.symm
      exact if_neg (Nat.not_lt.mpr (hsame ▸ hle))

theorem decodeCommand_eq_command {w : Word} {c : Command} (h : decodeCommand w = .command c) :
    commandOfCode w = some c ∧ w.toNat < 2 ^ (8 + argWidth (codeOf w).toNat) := by
  rcases decodeCommand_cases w with ⟨-, hd⟩ | ⟨r, -, hc, c', hcmd, hd⟩
  · rw [hd] at h; cases h
  · rw [hd] at h
    split at h
    · cases h
      exact ⟨hcmd, hc ▸ ‹_›⟩
    · cases h

/-! ### Each command's word (R101, R102) -/

theorem kOf_toNat (w : Word) : (kOf w).toNat = w.toNat / 256 % 65536 := by
  rw [kOf, BitVec.extractLsb'_toNat, Nat.shiftRight_eq_div_pow]

theorem dataOf_toNat (w : Word) : (dataOf w).toNat = w.toNat / 256 % 256 := by
  rw [dataOf, BitVec.extractLsb'_toNat, Nat.shiftRight_eq_div_pow]

theorem pOf_toNat (w : Word) : (pOf w).toNat = w.toNat / 256 % 2 :=
  Nat.toNat_testBit w.toNat 8

theorem encodeCommand_setClock_toNat (k : BitVec 16) : (encodeCommand (.setClock k)).toNat = 256 * k.toNat + 0x02 := by
  rw [encodeCommand, toNat_append_eq_add, toNat_zero_append]
  rfl

theorem encodeCommand_txByte_toNat (d : Byte) : (encodeCommand (.txByte d)).toNat = 256 * d.toNat + 0x12 := by
  rw [encodeCommand, toNat_append_eq_add, toNat_zero_append]
  rfl

theorem encodeCommand_setWp_toNat (p : Bool) : (encodeCommand (.setWp p)).toNat = 256 * p.toNat + 0x03 := by
  rw [encodeCommand, toNat_append_eq_add, toNat_zero_append, BitVec.toNat_ofBool]
  rfl

/-- A word that uses no bit above its ARG field is the encoder's word of the command its CODE and ARG name: the three
commands with an ARG field by that field, the others by CODE alone. -/
theorem encodeCommand_of_commandOfCode {w : Word} {c : Command} (h : commandOfCode w = some c)
    (hw : w.toNat < 2 ^ (8 + argWidth (codeOf w).toNat)) : encodeCommand c = w := by
  have hn := codeOf_toNat w
  apply BitVec.eq_of_toNat_eq
  unfold commandOfCode at h
  split at h <;> rename_i hcode <;> cases h <;> rw [hcode] at hw hn <;> simp only [argWidth] at hw
  case h_3 => rw [encodeCommand_setClock_toNat, kOf_toNat]; omega
  case h_4 => rw [encodeCommand_setWp_toNat, pOf_toNat]; omega
  case h_7 => rw [encodeCommand_txByte_toNat, dataOf_toNat]; omega
  all_goals
    simp only [encodeCommand, BitVec.ofNat_eq_ofNat, BitVec.toNat_ofNat]
    omega

/-- Settles O2: CODE and ARG of a decoded word are those of its command, and no bit of the word is left over. -/
theorem commandHasExactlyOneWord : Obligations.CommandHasExactlyOneWord := by
  intro w c
  constructor
  · intro h
    obtain ⟨hc, hw⟩ := decodeCommand_eq_command h
    exact (encodeCommand_of_commandOfCode hc hw).symm
  · rintro rfl
    exact Laws.Codec.decodeCommand_encodeCommand c

/-- Settles O1: the instruction's own lemma of the codec family. -/
theorem decodeEncodeRoundTrip : Obligations.DecodeEncodeRoundTrip := by
  intro o i ho
  cases i with
  | nop => exact Laws.Codec.nop o ho
  | init => exact Laws.Codec.init o ho
  | setClock k => exact Laws.Codec.setClock k o ho
  | setWp p => exact Laws.Codec.setWp p o ho
  | csAssert => exact Laws.Codec.csAssert o ho
  | csDeassert => exact Laws.Codec.csDeassert o ho
  | txByte d => exact Laws.Codec.txByte d o ho
  | rxByte => exact Laws.Codec.rxByte o ho
  | identify => exact Laws.Codec.identify o ho
  | read => exact Laws.Codec.read o ho
  | program => exact Laws.Codec.program o ho
  | erase => exact Laws.Codec.erase o ho
  | busyWait => exact Laws.Codec.busyWait o ho
  | rd a => exact Laws.Codec.rd a o ho
  | wr a v => exact Laws.Codec.wr a v o ho
  | rdid => exact Laws.Codec.rdid o ho
  | readData a => exact Laws.Codec.readData a o ho
  | wren => exact Laws.Codec.wren o ho
  | pp a => exact Laws.Codec.pp a o ho
  | se a => exact Laws.Codec.se a o ho
  | be a => exact Laws.Codec.be a o ho
  | ce => exact Laws.Codec.ce o ho
  | rdsr => exact Laws.Codec.rdsr o ho

/-- Settles O5: each word is evaluated by the decoder. -/
theorem specWordsDecode : Obligations.SpecWordsDecode :=
  ⟨rfl, rfl, rfl, rfl, rfl, rfl, rfl⟩

/-! ### A CMD word that names no command (R104, R105, R225, R226) -/

/-- A command whose pseudocode is one raise ends with that result, and nothing but STATUS has changed (R222). -/
theorem runsTo_failed {i : Instr} {s : State} {w : Word} {c : Result} (hr : Ready s) (hc : c ≠ .ok)
    (hx : exec i s = startLines w [.raise c] s) : RunsTo i s (failed c s) := by
  refine runsTo_of_lines hr hx ?_
  obtain ⟨hb, hseq, hh⟩ := hr
  have hend : complete c { s with busy := true } = failed c s := by
    simp only [complete, stickyAfter, bne_iff_ne.mpr hc, Bool.or_true, ← hb, ← hseq]
  rw [← hend]
  exact reaches_raise (s := { s with busy := true }) hh w [] rfl

theorem exec_wr_cmd {s : State} (hb : s.busy = false) (w : Word) : exec (.wr 0x00 w) s = startCommand w s := by
  show execWr 0x00 w s = startCommand w s
  rw [execWr, hb]
  rfl

theorem runsTo_illegal {w : Word} (h : decodeCommand w = .illegal) {s : State} (hr : Ready s) :
    RunsTo (.wr 0x00 w) s (failed .illegalCmd s) :=
  runsTo_failed hr nofun (by rw [exec_wr_cmd hr.1, startCommand, h])

theorem runsTo_reserved {w : Word} (h : decodeCommand w = .reserved) {s : State} (hr : Ready s) :
    RunsTo (.wr 0x00 w) s (failed .badArg s) :=
  runsTo_failed hr nofun (by rw [exec_wr_cmd hr.1, startCommand, h])

theorem unassigned_code_iff : ∀ code : Byte, (∀ r ∈ commandRows, r.code ≠ code) ↔
    (0x04 ≤ code.toNat ∧ code.toNat ≤ 0x0F) ∨ (0x14 ≤ code.toNat ∧ code.toNat ≤ 0x1F) ∨ 0x25 ≤ code.toNat := by
  decide

/-- Settles O3: the CODEs without a row in R103's table, and the raise such a word runs as. -/
theorem unassignedCodeIsIllegalCommand : Obligations.UnassignedCodeIsIllegalCommand := by
  intro w
  refine ⟨?_, fun s hr h => runsTo_illegal h hr⟩
  rw [decodeCommand_eq_illegal_iff, ← codeOf_toNat]
  exact unassigned_code_iff (codeOf w)

/-- Settles O4: row by row, the bits above the ARG field that R102 gives the CODE, and the raise such a word runs as. -/
theorem reservedArgBitsAreBadArg : Obligations.ReservedArgBitsAreBadArg := by
  intro w code arg
  refine ⟨?_, fun s hr h => runsTo_reserved h hr⟩
  rw [decodeCommand_eq_reserved_iff]
  simp only [commandRows, BitVec.ofNat_eq_ofNat, List.mem_cons, List.not_mem_nil, or_false, argWidth, exists_eq_or_imp,
    BitVec.toNat_ofNat, Nat.reducePow, Nat.zero_mod, add_zero, Nat.one_mod, Nat.reduceMod, Nat.reduceAdd, ↓existsAndEq,
    true_and, ne_eq, ge_iff_le]
  omega

end Sys2Proof.Machine

/-! # The wire frames as instructions (R109 to R119) -/

namespace Sys2Proof.Machine

/-! ### From the engine's frame line to the frame's instruction -/

theorem atPoint_of_seq {t : State} {cmd : Word} {rest : List Line} (h : t.seq = .running cmd rest) :
    t.atPoint cmd rest = t := by
  rw [State.atPoint, ← h]

/-- A run to another state goes through the first step. -/
theorem Reaches.of_step {s t u : State} (r : Reaches s t) (h : step s = .next u) (hne : s ≠ t) : Reaches u t := by
  obtain ⟨n, hn⟩ := r
  cases n with
  | zero => exact absurd (Host.Outcome.next.inj hn) hne
  | succ n => exact ⟨n, by rw [← runFor_succ h, hn]⟩

/-- The engine's step on a frame line is the frame's instruction (R23, R109): a state the engine reaches from the line is
one the instruction leads to. -/
theorem exec_frame_reaches {f : Frame} {s t : State} {cmd : Word} {rest : List Line} (hs : s.host = [])
    (hseq : s.seq = .running cmd rest) (r : Reaches (s.atPoint cmd (.wire f :: rest)) (t.atPoint cmd rest))
    (ht : t.seq = .running cmd rest) :
    ∃ u, exec f.instr s = .next u ∧ Reaches u t := by
  have hx : exec f.instr s = .next (perform (.wire f) cmd rest s) := by
    rw [exec_frame, sendFrame, hseq]
  have hstep : step (s.atPoint cmd (.wire f :: rest)) = .next (perform (.wire f) cmd rest s) := by
    rw [step_no_host (s := s.atPoint cmd (.wire f :: rest)) hs, engineTurn_line (atPoint_seq cmd _ s), State.atPoint,
      perform_seq]
  have hne : s.atPoint cmd (.wire f :: rest) ≠ t := by
    intro h
    have hpoint : Seq.running cmd (.wire f :: rest) = .running cmd rest := (congrArg State.seq h).trans ht
    simp at hpoint
  rw [atPoint_of_seq ht] at r
  exact ⟨_, hx, r.of_step hstep hne⟩

/-! ### The last byte a frame shifts -/

theorem getLast?_eq_lastByte (b : Byte) (bs : List Byte) : (b :: bs).getLast? = some (lastByte b bs) :=
  List.getLast?_eq_some_getLast _

theorem getLast?_header (o : Config.Opcodes) (f : Frame) : (f.header o).getLast? = some (lastHeaderByte o f) := by
  rw [Frame.header, getLast?_eq_lastByte, lastByte_header]

theorem getLast?_pp_header_append (o : Config.Opcodes) (a : WireAddr) (data : List Byte) :
    (Frame.header o (.pp a) ++ data).getLast? = some (lastByte (a.extractLsb' 0 8) data) := by
  show (o.pp :: a.extractLsb' 16 8 :: a.extractLsb' 8 8 :: a.extractLsb' 0 8 :: data).getLast? = _
  rw [getLast?_eq_lastByte, lastByte_cons, lastByte_cons, lastByte_cons]

theorem getLsbD_zero_addrByte (a : WireAddr) : (a.extractLsb' 0 8).getLsbD 0 = a.getLsbD 0 := by
  rw [BitVec.getLsbD_extractLsb']
  rfl

/-- MOSI stays at bit 0 of the last byte sent (R134). -/
theorem mosiAfter_eq_lastByte (b : Byte) (bs : List Byte) : mosiAfter (b.getLsbD 0) bs = (lastByte b bs).getLsbD 0 := by
  induction bs generalizing b with
  | nil => rfl
  | cons c bs ih => rw [mosiAfter, ih, lastByte_cons]

/-! ### Frames that send their header and nothing else -/

theorem exec_plainFrame {f : Frame} (hf : ∀ t, frameBody t f = []) {s : State} {cmd : Word} {rest : List Line}
    (hs : s.host = []) (hseq : s.seq = .running cmd rest) :
    ∃ u, exec f.instr s = .next u ∧ Reaches u (afterPlainFrame f s) :=
  exec_frame_reaches hs hseq (reaches_plain hf hs cmd rest) hseq

/-- Settles O44: none of the three frames has a body between its header and its DeassertSelect. -/
theorem plainFramesSendTheirHeader : Obligations.PlainFramesSendTheirHeader := by
  intro f s cmd rest hf hs hseq
  have hbody : ∀ t, frameBody t f = [] := by
    rcases hf with rfl | rfl | ⟨a, rfl⟩ <;> exact fun _ => rfl
  obtain ⟨u, hx, r⟩ := exec_plainFrame hbody hs hseq
  exact ⟨u, lastHeaderByte s.opcodes f, hx, getLast?_header s.opcodes f, r⟩

/-- Settles O45: BE has no body either, and its header ends with address bits 7:0. -/
theorem blockEraseFrameSendsItsHeader : Obligations.BlockEraseFrameSendsItsHeader := by
  intro a s cmd rest hs hseq
  obtain ⟨u, hx, r⟩ := exec_plainFrame (f := .be a) (fun _ => rfl) hs hseq
  refine ⟨u, hx, ?_⟩
  rw [← getLsbD_zero_addrByte]
  exact r

/-! ### Frames that receive -/

/-- Settles O46: the three bytes are the Device's next three times eight bits. -/
theorem rdidFrameReceivesThreeBytes : Obligations.RdidFrameReceivesThreeBytes := by
  intro s cmd rest hs hseq
  rcases h1 : s.device.nextBits 8 with ⟨b1, d1⟩
  rcases h2 : d1.nextBits 8 with ⟨b2, d2⟩
  rcases h3 : d2.nextBits 8 with ⟨b3, d3⟩
  obtain ⟨u, hx, r⟩ := exec_frame_reaches (f := .rdid) hs hseq (reaches_rdid hs cmd rest h1 h2 h3) hseq
  refine ⟨u, b1, b2, b3, d3, ?_, hx, r⟩
  simp only [Device.nextBytes, h1, h2, h3]

/-- Settles O47: the byte loop inside the frame, whose last byte is an address byte when BYTECOUNT = 0. -/
theorem readFrameReceivesByteCountBytes : Obligations.ReadFrameReceivesByteCountBytes := by
  intro a s cmd rest hs hseq
  obtain ⟨u, hx, r⟩ := exec_frame_reaches (f := .readData a) hs hseq (reaches_readFrame a hs cmd rest) hseq
  exact ⟨u, _, hx, getLast?_eq_lastByte _ _, r⟩

/-- Settles O49: the status byte is the last one shifted. -/
theorem statusFrameReceivesOneByte : Obligations.StatusFrameReceivesOneByte := by
  intro s cmd rest hs hseq
  exact exec_frame_reaches (f := .rdsr) hs hseq (reaches_rdsr hs cmd rest) hseq

/-! ### The frame that sends data -/

/-- Settles O48: the chunk's bytes are all there, or the source shows its end after those there are. -/
theorem pageProgramFrameSendsTheChunk : Obligations.PageProgramFrameSendsTheChunk := by
  intro a s cmd rest data more hs hseq hb hlen
  rcases hlen with hfull | ⟨hshort, rfl, hend⟩
  · obtain ⟨u, hx, r⟩ := exec_frame_reaches (f := .pp a) hs hseq (reaches_pp_full a data more hs cmd rest hb hfull) hseq
    refine ⟨u, lastByte (a.extractLsb' 0 8) data, hx, ?_, ?_⟩
    · exact getLast?_pp_header_append s.opcodes a data
    · rw [if_pos hfull, ← mosiAfter_eq_lastByte, getLsbD_zero_addrByte, decide_eq_false (Nat.not_lt.mpr hfull.ge)]
      exact r
  · rw [List.append_nil] at hb
    obtain ⟨u, hx, r⟩ :=
      exec_frame_reaches (f := .pp a) hs hseq (reaches_pp_short a data hs cmd rest hb hend hshort) hseq
    refine ⟨u, lastByte (a.extractLsb' 0 8) data, hx, ?_, ?_⟩
    · exact getLast?_pp_header_append s.opcodes a data
    · rw [if_neg hshort.ne, ← mosiAfter_eq_lastByte, getLsbD_zero_addrByte, decide_eq_true hshort]
      exact r

end Sys2Proof.Machine

/-! # The address bytes of a frame (R75, R117) and the assembler level (R120, R121) -/

namespace Sys2Proof.Machine

/-! ### The address bytes -/

theorem wireAddr_toNat (a : BitVec 33) : (wireAddr a).toNat = a.toNat % 2 ^ 24 := by
  rw [wireAddr, BitVec.extractLsb'_toNat, Nat.shiftRight_zero]

theorem addrBytes_wireAddr (a : BitVec 33) : addrBytes (wireAddr a) =
    [BitVec.ofNat 8 (a.toNat / 65536), BitVec.ofNat 8 (a.toNat / 256), BitVec.ofNat 8 a.toNat] := by
  simp only [addrBytes, List.cons.injEq, and_true, ← BitVec.toNat_inj, BitVec.extractLsb'_toNat, wireAddr_toNat,
    BitVec.toNat_ofNat, Nat.shiftRight_eq_div_pow]
  omega

/-- Settles O50: an addressed frame's header is its opcode and the three bytes of its address. -/
theorem addressBytesAreBigEndian : Obligations.AddressBytesAreBigEndian := by
  intro o a f hf
  refine ⟨?_, wireAddr_toNat a⟩
  have haddr : (f (wireAddr a)).addressBytes = addrBytes (wireAddr a) := by
    fin_cases hf <;> rfl
  rw [Frame.header, haddr, addrBytes_wireAddr]

/-! ### The assembler level -/

theorem cfgWord_eq (i : BitVec 2) (p : BitVec 1) :
    (p.setWidth 32 <<< 8) ||| i.setWidth 32 = BitVec.ofNat 32 (256 * p.toNat + i.toNat) := by
  revert i p
  decide

/-- WAITIDLE reads STATUS, and comes again `gap` + 1 engine steps later while BUSY = 1 (R121; log 18). -/
theorem step_waitIdle {s : State} {gap : Nat} {q : List HostMove}
    (h : s.host = { wait := 0, act := .waitIdle gap } :: q) :
    step s = .next (pollAgain gap { s with host := q, reads := s.reads ++ [(0x04, readReg .status s)] }) :=
  step_hostDue h

/-- Settles O58: each expansion is read off the table, and a due WAITIDLE splits on BUSY. -/
theorem pseudoInstructionsExpand : Obligations.PseudoInstructionsExpand := by
  refine ⟨fun g o b v i p => ⟨rfl, rfl, rfl, rfl, ?_, ?_, rfl, ?_, fun c => rfl⟩,
    fun s gap q h => ⟨fun hb => ?_, fun hb => ?_⟩⟩
  · simp only [assemble, List.flatMap_cons, List.flatMap_nil, AsmLine.expand, cfgWord_eq]
  · simp [assemble, AsmLine.expand, AsmLine.expand.xferMoves]
  · simp [assemble, AsmLine.expand]
  · rw [step_waitIdle h, pollAgain, if_neg (hb ▸ Bool.false_ne_true)]
  · rw [step_waitIdle h, pollAgain, if_pos hb]

end Sys2Proof.Machine

/-! # The transport (R130 to R146) -/

namespace Sys2Proof.Machine

/-! ### From a command's lines to its end state -/

theorem effect_setBusy (l : Line) (s : State) (b : Bool) :
    effect l { s with busy := b } = { effect l s with busy := b } := by
  cases l <;> rfl

theorem effects_setBusy (ls : List Line) (s : State) (b : Bool) :
    effects ls { s with busy := b } = { effects ls s with busy := b } := by
  induction ls generalizing s with
  | nil => rfl
  | cons l ls ih => rw [effects_cons, effect_setBusy, ih, effects_cons]

theorem effects_busy (ls : List Line) (s : State) : (effects ls s).busy = s.busy := by
  induction ls generalizing s with
  | nil => rfl
  | cons l ls ih => rw [effects_cons, ih, effect_busy]

/-- An engine line leaves SEQ to the turn that performs it. -/
theorem effect_keeps_seq (l : Line) (s : State) : (effect l s).seq = s.seq := by
  cases l <;> simp [effect]

theorem effects_keep_seq (ls : List Line) (s : State) : (effects ls s).seq = s.seq := by
  induction ls generalizing s with
  | nil => rfl
  | cons l ls ih => rw [effects_cons, ih, effect_keeps_seq]

/-- A command of straight lines runs them from a waiting block and ends with OK: its end state is what the lines do, with
BUSY and SEQ back where they were (R202, R222). -/
theorem runsTo_straight {c : Command} {s : State} (hr : Ready s) {ls : List Line} (hc : commandLines c s = ls)
    (hl : ls.all Line.straight = true) : RunsTo c.instr s { effects ls s with result := .ok } := by
  have hx : exec c.instr s = startLines (encodeCommand c) ls s := hc ▸ exec_command_eq_startLines c s
  refine runsTo_of_lines hr hx ?_
  obtain ⟨hb, hseq, hh⟩ := hr
  have hend : complete .ok (effects ls { s with busy := true }) = { effects ls s with result := .ok } := by
    have hb' : (effects ls s).busy = false := (effects_busy ls s).trans hb
    have hseq' : (effects ls s).seq = .idle := (effects_keep_seq ls s).trans hseq
    rw [effects_setBusy]
    simp only [complete, stickyAfter_ok, ← hb', ← hseq']
  rw [← hend, ← List.append_nil ls]
  refine (reaches_straight (s := { s with busy := true }) hl hh _ []).trans ?_
  rw [List.append_nil]
  exact reaches_finish (by rw [effects_host]; exact hh) _

/-- A command whose check fails ends with that result and does nothing else (R222, R233). -/
theorem runsTo_failed_of_lines {c : Command} {s : State} (hr : Ready s) {e : Result} (he : e ≠ .ok)
    (hc : commandLines c s = [.raise e]) : RunsTo c.instr s (failed e s) :=
  runsTo_failed hr he (hc ▸ exec_command_eq_startLines c s)

theorem rawChecked_singleLane {s : State} (h : s.iface = .singleLane) (ls : List Line) : rawChecked s ls = ls :=
  if_pos h

theorem rawChecked_unsupported {s : State} (h : s.iface ≠ .singleLane) (ls : List Line) :
    rawChecked s ls = [.raise .unsupported] :=
  if_neg h

/-- A number that is the value of a command's word decodes to the command (R101). -/
theorem decodeCommand_ofNat {c : Command} {n : Nat} (h : (encodeCommand c).toNat = n) :
    decodeCommand (BitVec.ofNat 32 n) = .command c := by
  rw [← h, BitVec.ofNat_toNat, BitVec.setWidth_eq]
  exact Laws.Codec.decodeCommand_encodeCommand c

/-! ### The raw bus commands (R142 to R146) -/

/-- Settles O24: AssertSelect and DeassertSelect as straight lines, behind the check of IFACE. -/
theorem selectCommandsDriveTheSelectLine : Obligations.SelectCommandsDriveTheSelectLine := by
  refine ⟨decodeCommand_ofNat (c := .csAssert) rfl, decodeCommand_ofNat (c := .csDeassert) rfl, fun s hr =>
    ⟨fun hi => ⟨?_, ?_⟩, fun hi => ⟨?_, ?_⟩⟩⟩
  · exact runsTo_failed_of_lines (c := .csAssert) hr nofun (rawChecked_unsupported hi _)
  · exact runsTo_failed_of_lines (c := .csDeassert) hr nofun (rawChecked_unsupported hi _)
  · have h := runsTo_straight (c := .csAssert) hr (rawChecked_singleLane hi _) (assertSelect_straight _)
    rw [effects_assert] at h
    rw [List.append_assoc]
    exact h
  · have h := runsTo_straight (c := .csDeassert) hr (rawChecked_singleLane hi _) (deassertSelect_straight _)
    rw [effects_deassert] at h
    rw [List.append_assoc]
    exact h

/-- Settles O25: TxByte as straight lines, behind the check of IFACE. -/
theorem txByteShiftsOutMsbFirst : Obligations.TxByteShiftsOutMsbFirst := by
  refine ⟨fun d => decodeCommand_ofNat (encodeCommand_txByte_toNat d), fun d s hr => ⟨fun hi => ?_, fun hi => ?_⟩⟩
  · exact runsTo_failed_of_lines (c := .txByte d) hr nofun (rawChecked_unsupported hi _)
  · have h := runsTo_straight (c := .txByte d) hr (rawChecked_singleLane hi _) (txByteLines_straight _ d)
    rw [effects_txByte] at h
    rw [List.append_assoc]
    exact ⟨_, h⟩

theorem rxByteCmd_straight (t : Timing) : (rxByteLines t ++ [Line.writeRxData]).all Line.straight = true := by
  rw [List.all_append, rxByteLines_straight]
  rfl

/-- Settles O26: RxByte leaves the byte in SHIFT, and the line after it writes the byte to RXDATA. -/
theorem rxByteShiftsInMsbFirst : Obligations.RxByteShiftsInMsbFirst := by
  refine ⟨decodeCommand_ofNat (c := .rxByte) rfl, fun s hr => ⟨fun hi => ?_, fun hi => ?_⟩⟩
  · exact runsTo_failed_of_lines (c := .rxByte) hr nofun (rawChecked_unsupported hi _)
  · have h := runsTo_straight (c := .rxByte) hr (rawChecked_singleLane hi _) (rxByteCmd_straight _)
    rw [effects_append, effects_rxByte] at h
    exact ⟨_, h⟩

theorem low_of_not_and {v : Level} {b : Bool} (h : (!v && b) = true) : v = false := by
  simpa using (Bool.and_eq_true_iff.mp h).1

/-- Only TxByte's bits and a pin write to MOSI change MOSI, and a sound point meets both with SCK low. -/
theorem sck_low_of_effect_mosi_ne {l : Line} {rest : List Line} {s : State}
    (h : pointSound s.pins.sck s.pins.csN (l :: rest) = true) (hne : (effect l s).pins.mosi ≠ s.pins.mosi) :
    s.pins.sck = false ∧ (effect l s).pins.sck = false := by
  cases l with
  | drive p v =>
    cases p with
    | mosi => exact ⟨low_of_not_and h, low_of_not_and h⟩
    | sck | csN | wpN => exact absurd rfl hne
  | shiftOut v i => exact ⟨low_of_not_and h, low_of_not_and h⟩
  | _ => exact absurd rfl hne

theorem engineTurn_mosi_ne {s t : State} (hi : Inv s) (h : engineTurn s = .next t)
    (hne : t.pins.mosi ≠ s.pins.mosi) : s.pins.sck = false ∧ t.pins.sck = false := by
  rcases engineTurn_next_point_cases h with rfl | ⟨cmd, -, rfl⟩ | ⟨l, cmd, rest, hs, rfl⟩
  · exact absurd rfl hne
  · exact absurd rfl hne
  · have hbus := hi.bus
    rw [busSound_running hs, Bool.and_eq_true] at hbus
    cases hr : raises l s with
    | some c =>
      rw [perform_of_raises hr] at hne
      exact absurd rfl hne
    | none =>
      rw [perform_of_not_raises hr] at hne ⊢
      exact sck_low_of_effect_mosi_ne hbus.1 hne

/-- Settles O27: no move of the outside but a reset touches the pins, and an engine step performs a line of a sound
point. -/
theorem mosiChangesOnlyWhileSckIsLow : Obligations.MosiChangesOnlyWhileSckIsLow := by
  intro s t hi h hr hne
  rcases step_next_cases h with ⟨q, he⟩ | ⟨m, q, hq, hw, hh⟩
  · exact engineTurn_mosi_ne (s := { s with host := q }) (hi.of_guarded_eq rfl) he hne
  · have ho := hostTurn_outward (act_ne_reset_of_not_resetDue hr hq hw) hh
    exact absurd (congrArg (fun o => o.pins.mosi) ho) hne

/-! ### The clock and the commands without a check of CONFIG (R130, R138 to R141) -/

/-- Settles O19: for k > 0 the delay is at most 500, so its 10 bits hold it. -/
theorem timingFollowsTheTargetClock : Obligations.TimingFollowsTheTargetClock := by
  intro k hk h
  by_cases h0 : k = 0
  · subst h0
    exact ⟨rfl, rfl, rfl⟩
  · have hn : k.toNat ≠ 0 := fun hz => h0 (BitVec.eq_of_toNat_eq hz)
    have hdiv : 500 / k.toNat ≤ 500 := Nat.div_le_self 500 _
    have hfit : (BitVec.ofNat 10 (max 1 (500 / k.toNat))).toNat = h := by
      rw [BitVec.toNat_ofNat, Nat.mod_eq_of_lt (by omega)]
      exact (if_neg hn).symm
    rw [configureTiming, if_neg h0]
    exact ⟨hfit, hfit, hfit⟩

/-- Settles O20: NOP has no line. -/
theorem nopCompletes : Obligations.NopCompletes :=
  ⟨decodeCommand_ofNat (c := .nop) rfl, fun _ hr => runsTo_straight (c := .nop) (ls := []) hr rfl rfl⟩

/-- Settles O21: four pin writes, the third of which takes CS_ACTIVE with it. -/
theorem initDrivesTheIdleLevels : Obligations.InitDrivesTheIdleLevels := by
  refine ⟨decodeCommand_ofNat (c := .init) rfl, fun s hr => ?_⟩
  have h := runsTo_straight (c := .init) (ls := initLines) hr rfl rfl
  simp only [initLines, effects_cons, effects_nil, effect, drive, emit, Pins.set, csActiveAfter, Bool.not_true,
    List.append_assoc, List.cons_append, List.nil_append] at h
  exact h

/-- Settles O22: K against 1000 first, then the one line that writes CLKKHZ and TIMING. -/
theorem setClockRecomputesTiming : Obligations.SetClockRecomputesTiming := by
  refine ⟨fun k => decodeCommand_ofNat (encodeCommand_setClock_toNat k), fun k s hr => ⟨fun hk => ?_, fun hk => ?_⟩⟩
  · exact runsTo_failed_of_lines (c := .setClock k) hr nofun (if_pos hk)
  · exact runsTo_straight (c := .setClock k) (ls := [.writeClock k]) hr (if_neg (Nat.not_lt.mpr hk)) rfl

/-- Settles O23: one pin write, which is not checked against CONFIG. -/
theorem setWpDrivesTheProtectLine : Obligations.SetWpDrivesTheProtectLine :=
  ⟨decodeCommand_ofNat (c := .setWp true) rfl, decodeCommand_ofNat (c := .setWp false) rfl,
    fun p _ hr => runsTo_straight (c := .setWp p) (ls := [.drive .wpN (!p)]) hr rfl rfl⟩

end Sys2Proof.Machine

/-! # The write-enable discipline (R173) -/

namespace Sys2Proof.Machine

/-! ### The frames sent -/

/-- One frame more keeps the discipline when it needs no WREN or stands right after one. -/
theorem wrenDisciplined_concat (p f : Frame) (fs : List Frame) :
    wrenDisciplined (p == .wren) (fs ++ [f]) =
      (wrenDisciplined (p == .wren) fs && (!needsWren f || lastIsWren (p :: fs))) := by
  induction fs generalizing p with
  | nil => simp only [List.nil_append, wrenDisciplined, Bool.and_true, Bool.true_and, lastIsWren,
      List.getLast?_singleton, Option.some_beq_some]
  | cons g fs ih => simp only [List.cons_append, wrenDisciplined, ih, Bool.and_assoc, lastIsWren,
      List.getLast?_cons_cons]

theorem wrenDisciplined_sent {fs : List Frame} {f : Frame} (hfs : wrenDisciplined false fs = true)
    (hf : (!needsWren f || lastIsWren fs) = true) : wrenDisciplined false (fs ++ [f]) = true := by
  have hlast : lastIsWren (.rdsr :: fs) = lastIsWren fs := by
    cases fs with
    | nil => rfl
    | cons g fs => simp
  have h := wrenDisciplined_concat .rdsr f fs
  rw [hlast] at h
  exact h.trans (Bool.and_eq_true_iff.mpr ⟨hfs, hf⟩)

theorem lastIsWren_concat (fs : List Frame) (f : Frame) : lastIsWren (fs ++ [f]) = (f == .wren) := by
  simp

/-! ### Lines in front of a disciplined point -/

/-- What is disciplined after any frame is disciplined after WREN. -/
theorem pointDisciplined_of_false {point : List Line} (h : pointDisciplined false point = true) (armed : Bool) :
    pointDisciplined armed point = true := by
  induction point with
  | nil => rfl
  | cons l rest ih =>
    cases l with
    | wire f =>
      obtain ⟨hf, hrest⟩ := Bool.and_eq_true_iff.mp h
      rw [Bool.or_false] at hf
      exact Bool.and_eq_true_iff.mpr ⟨by rw [hf, Bool.true_or], hrest⟩
    | beginProgram | nextChunk | beginErase | nextSector | polled => exact h
    | _ => exact ih h

/-- Straight lines open no frame. -/
theorem pointDisciplined_straight {ls : List Line} (hl : ls.all Line.straight = true) (armed : Bool)
    (rest : List Line) : pointDisciplined armed (ls ++ rest) = pointDisciplined armed rest := by
  induction ls with
  | nil => rfl
  | cons l ls ih =>
    obtain ⟨hl, hls⟩ := Bool.and_eq_true_iff.mp hl
    rw [← ih hls]
    cases l with
    | wire | beginRead | countRead | beginProgram | beginData | pull | countSent | nextChunk | beginErase | nextSector |
        polled | raise =>
      cases hl
    | _ => rfl

theorem pointDisciplined_frameBody (armed : Bool) (t : Timing) (f : Frame) (rest : List Line) :
    pointDisciplined armed (frameBody t f ++ rest) = pointDisciplined armed rest := by
  cases f with
  | rdid => exact pointDisciplined_straight (rdidBody_straight t) armed rest
  | rdsr => exact pointDisciplined_straight (rxByteLines_straight t) armed rest
  | _ => rfl

theorem pointDisciplined_frameRest (armed : Bool) (s : State) (f : Frame) (rest : List Line) :
    pointDisciplined armed (frameRest s f ++ rest) = pointDisciplined armed rest := by
  simp only [frameRest, List.append_assoc, pointDisciplined_straight (delayLines_straight _),
    pointDisciplined_straight (txBytesLines_straight _ _), pointDisciplined_frameBody,
    pointDisciplined_straight (deassertSelect_straight _)]

/-! ### A disciplined point stays disciplined -/

theorem pointDisciplined_readLoop {armed : Bool} {rest : List Line} (s : State)
    (h : pointDisciplined armed rest = true) : pointDisciplined armed (readLoop s ++ rest) = true := by
  cases hm : moreToRead s <;>
    simpa [readLoop, hm, pointDisciplined, pointDisciplined_straight (rxByteLines_straight _)] using h

theorem pointDisciplined_dataLoop {armed : Bool} {rest : List Line} (s : State)
    (h : pointDisciplined armed rest = true) : pointDisciplined armed (dataLoop s ++ rest) = true := by
  cases hm : moreData s <;> simpa [dataLoop, hm, pointDisciplined] using h

theorem pointDisciplined_pulledLines {armed : Bool} {rest : List Line} (s : State)
    (h : pointDisciplined armed rest = true) : pointDisciplined armed (pulledLines s ++ rest) = true := by
  cases hm : s.work.exh <;>
    simpa [pulledLines, hm, pointDisciplined, pointDisciplined_straight (txByteLines_straight _ _)] using h

/-- PROGRAM's PP frame stands right after its WREN frame (R165). -/
theorem pointDisciplined_chunkLoop {rest : List Line} (s : State) (h : pointDisciplined false rest = true)
    (armed : Bool) : pointDisciplined armed (chunkLoop s ++ rest) = true := by
  cases hm : moreChunks s with
  | false => simpa [chunkLoop, hm] using pointDisciplined_of_false h armed
  | true => simpa [chunkLoop, chunkLines, busyWaitLoopLines, hm, pointDisciplined, needsWren] using h

/-- EraseRange's SE frame stands right after its WREN frame (R170). -/
theorem pointDisciplined_sectorLoop {rest : List Line} (s : State) (h : pointDisciplined false rest = true)
    (armed : Bool) : pointDisciplined armed (sectorLoop s ++ rest) = true := by
  cases hm : moreSectors s with
  | false => simpa [sectorLoop, hm] using pointDisciplined_of_false h armed
  | true => simpa [sectorLoop, sectorLines, busyWaitLoopLines, hm, pointDisciplined, needsWren] using h

theorem pointDisciplined_pollLoop {rest : List Line} (count : Bool) (s : State)
    (h : pointDisciplined false rest = true) (armed : Bool) :
    pointDisciplined armed (pollLoop count s ++ rest) = true := by
  have ha := pointDisciplined_of_false h armed
  cases hw : wip s <;> cases hl : pollLimitReached s <;>
    simp [pollLoop, hw, hl, pointDisciplined, needsWren, h, ha]

/-- Only a frame line adds to the frames sent. -/
theorem effect_frames {l : Line} (hl : ∀ f, l ≠ .wire f) (s : State) : (effect l s).frames = s.frames := by
  cases l with
  | wire f => exact absurd rfl (hl f)
  | _ => simp only [effect, drive_frames, shiftOut_frames, emit_frames, shiftIn_frames, pushByte_frames,
      pullByte_frames]

/-- Performing a line that does not raise keeps the discipline: a frame line sends its frame, any other line may put
further frames in. -/
theorem atPoint_effect_keeps_wrenInv {l : Line} {cmd : Word} {rest : List Line} {s : State}
    (hsent : wrenDisciplined false s.frames = true)
    (hahead : pointDisciplined (lastIsWren s.frames) (l :: rest) = true) (hr : raises l s = none) :
    WrenInv ((effect l s).atPoint cmd (expand l (effect l s) ++ rest)) := by
  suffices h : wrenDisciplined false (effect l s).frames = true ∧
      pointDisciplined (lastIsWren (effect l s).frames) (expand l (effect l s) ++ rest) = true by
    refine ⟨h.1, fun c p hp => ?_⟩
    cases hp
    exact h.2
  by_cases hl : ∃ f, l = .wire f
  · obtain ⟨f, rfl⟩ := hl
    obtain ⟨hf, hrest⟩ := Bool.and_eq_true_iff.mp hahead
    simp only [effect, openFrame_frames, lastIsWren_concat, expand, pointDisciplined_frameRest]
    exact ⟨wrenDisciplined_sent hsent hf, hrest⟩
  · rw [effect_frames (fun f hf => hl ⟨f, hf⟩)]
    refine ⟨hsent, ?_⟩
    cases l with
    | wire f => exact absurd ⟨f, rfl⟩ hl
    | beginRead | countRead => exact pointDisciplined_readLoop _ hahead
    | beginProgram | nextChunk => exact pointDisciplined_chunkLoop _ hahead _
    | beginData | countSent => exact pointDisciplined_dataLoop _ hahead
    | pull => exact pointDisciplined_pulledLines _ hahead
    | beginErase | nextSector => exact pointDisciplined_sectorLoop _ hahead _
    | polled count => exact pointDisciplined_pollLoop count _ hahead _
    | raise c => cases hr
    | _ => exact hahead

/-! ### What a command starts with -/

theorem pointDisciplined_checked {armed : Bool} {lines : List Line} (h : pointDisciplined armed lines = true)
    (e : Option Result) : pointDisciplined armed (checked e lines) = true := by
  cases e with
  | none => exact h
  | some c => rfl

/-- Every command starts at a disciplined point, whatever frame was sent last. -/
theorem pointDisciplined_commandLines (c : Command) (s : State) (armed : Bool) :
    pointDisciplined armed (commandLines c s) = true := by
  have straight {ls : List Line} (hl : ls.all Line.straight = true) : pointDisciplined armed ls = true := by
    rw [← List.append_nil ls, pointDisciplined_straight hl]
    rfl
  have raw {ls : List Line} (hl : ls.all Line.straight = true) : pointDisciplined armed (rawChecked s ls) = true := by
    unfold rawChecked
    split
    · exact straight hl
    · simp only [pointDisciplined]
  cases c with
  | nop | init | setWp => rfl
  | setClock k =>
    simp only [commandLines, setClockLines]
    split <;> rfl
  | csAssert => exact raw (assertSelect_straight _)
  | csDeassert => exact raw (deassertSelect_straight _)
  | txByte d => exact raw (txByteLines_straight _ d)
  | rxByte => exact raw (rxByteCmd_straight _)
  | identify | read | program | busyWait => exact pointDisciplined_checked rfl _
  | erase =>
    refine pointDisciplined_checked ?_ _
    split <;> rfl

/-- StartCommand starts the raise of an illegal or a reserved word, or a command's lines (R202). -/
theorem startCommand_next_cases {v : Word} {s t : State} (h : startCommand v s = .next t) :
    ∃ w ls, t = started w ls s ∧ ((∃ e, ls = [.raise e]) ∨ ∃ c, ls = commandLines c s) := by
  unfold startCommand at h
  split at h
  · exact ⟨_, _, startLines_next h, .inl ⟨_, rfl⟩⟩
  · exact ⟨_, _, startLines_next h, .inl ⟨_, rfl⟩⟩
  · rename_i c _
    rw [startDecoded_eq_startLines] at h
    exact ⟨_, _, startLines_next h, .inr ⟨c, rfl⟩⟩

/-! ### The turns -/

theorem WrenInv.of_eq {s t : State} (h : WrenInv s) (hf : t.frames = s.frames) (hq : t.seq = s.seq) : WrenInv t :=
  ⟨hf ▸ h.sent, fun c p hp => hf ▸ h.ahead c p (hq ▸ hp)⟩

theorem wrenInv_of_idle {s : State} (hsent : wrenDisciplined false s.frames = true) (hq : s.seq = .idle) : WrenInv s :=
  ⟨hsent, fun c p hp => by simp [hq] at hp⟩

theorem engineTurn_keeps_wrenInv {s t : State} (hi : WrenInv s) (h : engineTurn s = .next t) : WrenInv t := by
  rcases engineTurn_next_point_cases h with rfl | ⟨cmd, -, rfl⟩ | ⟨l, cmd, rest, hs, rfl⟩
  · exact hi
  · exact wrenInv_of_idle hi.sent rfl
  · cases hr : raises l s with
    | some c =>
      rw [perform_of_raises hr]
      exact wrenInv_of_idle hi.sent rfl
    | none =>
      rw [perform_of_not_raises hr]
      exact atPoint_effect_keeps_wrenInv hi.sent (hi.ahead cmd _ hs) hr

/-- The outside sends no frame. -/
theorem hostTurn_frames {act : HostAct} {s t : State} (h : hostTurn act s = .next t) : t.frames = s.frames := by
  cases act with
  | access a =>
    rcases accessTurn_next_cases h with ⟨x, hx⟩ | ⟨x, v, hx⟩
    · obtain ⟨rs, rfl⟩ := execRd_next hx
      rfl
    · rcases execWr_next_cases hx with ⟨w, ls, rfl⟩ | rfl | rfl | rfl | rfl <;> rfl
  | waitIdle gap =>
    simp only [hostTurn] at h
    split at h
    · rename_i u hu
      cases h
      obtain ⟨rs, rfl⟩ := execRd_next (a := Reg.status.offsetOf) hu
      unfold pollAgain
      split <;> rfl
    · cases h
    · cases h
  | streamMode m =>
    simp only [hostTurn] at h
    split at h
    · cases h
    · cases h
      rfl
  | reset =>
    cases h
    rfl

theorem hostTurn_keeps_wrenInv {act : HostAct} {s t : State} (hi : WrenInv s) (h : hostTurn act s = .next t) :
    WrenInv t := by
  rcases hostTurn_next_cases h with ⟨a, v, hw⟩ | ⟨-, rfl⟩ | he
  · rcases (execWr_next_idle_cases hw).2 with hc | he
    · obtain ⟨w, ls, rfl, hls⟩ := startCommand_next_cases hc
      refine ⟨hi.sent, fun c p hp => ?_⟩
      cases hp
      rcases hls with ⟨e, rfl⟩ | ⟨c, rfl⟩
      · rfl
      · exact pointDisciplined_commandLines c s _
    · exact hi.of_eq (hostTurn_frames h) (congrArg Guarded.seq he)
  · exact wrenInv_of_idle hi.sent rfl
  · exact hi.of_eq (hostTurn_frames h) (congrArg Guarded.seq he)

/-- Settles O57: the loops put each PP and SE frame right behind a WREN frame, whatever was sent before, and the outside
sends no frame. -/
theorem everyStepKeepsTheWriteEnableDiscipline : Obligations.EveryStepKeepsTheWriteEnableDiscipline := by
  intro s t hi h
  have hq (q : List HostMove) : WrenInv { s with host := q } := hi.of_eq rfl rfl
  rcases step_next_cases h with ⟨q, he⟩ | ⟨m, q, -, -, hh⟩
  · exact engineTurn_keeps_wrenInv (hq q) he
  · exact hostTurn_keeps_wrenInv (hq q) hh

end Sys2Proof.Machine

/-! # The engine's commands that run one frame, two frames or one busy-wait (R160 to R164, R169, R172) -/

namespace Sys2Proof.Machine

theorem Ready.host_eq {s : State} (hr : Ready s) : s.host = [] := hr.2.2

/-! ### EngineCheck (R160, R161, R231) -/

theorem supported_iff (s : State) : supported s = true ↔ configSupported s := by
  simp only [supported, Bool.and_eq_true, beq_iff_eq]

theorem engineCheck_unsupported {s : State} (h : ¬ configSupported s) (ranged : Bool) (needs : Option StreamMode) :
    engineCheck ranged needs s = some .unsupported := by
  rw [← supported_iff, Bool.not_eq_true] at h
  unfold engineCheck
  rw [h]
  rfl

theorem engineCheck_unranged {s : State} (h : configSupported s) : engineCheck false none s = none := by
  unfold engineCheck
  rw [(supported_iff s).mpr h]
  rfl

theorem engineCheck_badArg {s : State} (h : configSupported s) (hn : s.byteCount.toNat > 2 ^ 28)
    (needs : Option StreamMode) : engineCheck true needs s = some .badArg := by
  have hd : decide (s.byteCount.toNat > Config.byteCountMax) = true := decide_eq_true hn
  unfold engineCheck
  rw [(supported_iff s).mpr h, hd]
  rfl

/-- In the supported configuration and with BYTECOUNT in its range the stream mode alone decides. -/
theorem engineCheck_inRange {s : State} (h : configSupported s) (hn : s.byteCount.toNat ≤ 2 ^ 28)
    (needs : Option StreamMode) :
    engineCheck true needs s = needs.bind (fun m => if s.streamMode = m then none else some .wrongStreamMode) := by
  have hd : decide (s.byteCount.toNat > Config.byteCountMax) = false := decide_eq_false (Nat.not_lt.mpr hn)
  unfold engineCheck
  rw [(supported_iff s).mpr h, hd]
  cases needs <;> rfl

/-- An engine command whose check fails ends with the check's result and does nothing else (R160, R233). -/
theorem runsTo_checkFailed {c : Command} {s : State} (hr : Ready s) {ranged : Bool} {needs : Option StreamMode}
    {lines : List Line} {e : Result} (hc : commandLines c s = checked (engineCheck ranged needs s) lines)
    (hk : engineCheck ranged needs s = some e) (he : e ≠ .ok) : RunsTo c.instr s (failed e s) :=
  runsTo_failed_of_lines hr he (by rw [hc, hk]; rfl)

/-! ### From a command's lines to its completion -/

/-- A command whose lines lead to `finish(OK)`: BUSY and SEQ are back where they were (R222). -/
theorem runsTo_finish {c : Command} {s u : State} (hr : Ready s) {ls : List Line} (hc : commandLines c s = ls)
    (h : Reaches (State.atPoint (encodeCommand c) ls { s with busy := true }) (u.atPoint (encodeCommand c) []))
    (hu : u.host = []) : RunsTo c.instr s { u with busy := s.busy, seq := s.seq, result := .ok } := by
  have hx : exec c.instr s = startLines (encodeCommand c) ls s := hc ▸ exec_command_eq_startLines c s
  have hend : complete .ok u = { u with busy := s.busy, seq := s.seq, result := .ok } := by
    obtain ⟨hb, hseq, -⟩ := hr
    simp only [complete, stickyAfter_ok, hb, hseq]
  exact hend ▸ runsTo_of_lines hr hx (h.trans (reaches_finish hu _))

/-- A command whose lines lead to a raise (R222, R233). -/
theorem runsTo_raised {c : Command} {s u : State} (hr : Ready s) {ls : List Line} (hc : commandLines c s = ls)
    {e : Result} (he : e ≠ .ok)
    (h : Reaches (State.atPoint (encodeCommand c) ls { s with busy := true }) (complete e u)) :
    RunsTo c.instr s { u with busy := s.busy, seq := s.seq, result := e, errSticky := true } := by
  have hx : exec c.instr s = startLines (encodeCommand c) ls s := hc ▸ exec_command_eq_startLines c s
  have hend : complete e u = { u with busy := s.busy, seq := s.seq, result := e, errSticky := true } := by
    obtain ⟨hb, hseq, -⟩ := hr
    simp only [complete, stickyAfter, bne_iff_ne.mpr he, Bool.or_true, hb, hseq]
  exact hend ▸ runsTo_of_lines hr hx h

/-! ### IDENTIFY (R163) -/

theorem identifyLines_supported {s : State} (h : configSupported s) :
    commandLines .identify s = [.wire .rdid, .writeChipId] := by
  simp only [commandLines, identifyLines, engineCheck_unranged h, checked]

/-- Settles O32: the RDID frame leaves the three bytes in m, t and c, and the line after it writes them to CHIPID. -/
theorem identifyReadsTheTriple : Obligations.IdentifyReadsTheTriple := by
  refine ⟨decodeCommand_ofNat (c := .identify) rfl, fun s hr => ⟨fun hns => ?_, fun hcfg => ?_⟩⟩
  · exact runsTo_checkFailed (c := .identify) hr rfl (engineCheck_unsupported hns _ _) nofun
  · rcases h1 : s.device.nextBits 8 with ⟨b1, d1⟩
    rcases h2 : d1.nextBits 8 with ⟨b2, d2⟩
    rcases h3 : d2.nextBits 8 with ⟨b3, d3⟩
    have hframe := reaches_rdid (s := { s with busy := true }) hr.host_eq (encodeCommand .identify) [.writeChipId]
      h1 h2 h3
    refine ⟨_, b1, b2, b3, d3, by simp only [Device.nextBytes, h1, h2, h3],
      runsTo_finish (c := .identify) hr (identifyLines_supported hcfg)
        (hframe.trans (reaches_line (l := .writeChipId) ?_ _ [] rfl)) ?_⟩
    · exact hr.host_eq
    · exact hr.host_eq

/-! ### READ (R164) -/

theorem wireAddr_startAddr (s : State) : wireAddr (startAddr s) = s.offset.extractLsb' 0 24 := by
  apply BitVec.eq_of_toNat_eq
  simp only [wireAddr, startAddr, BitVec.extractLsb'_toNat, BitVec.toNat_setWidth, Nat.shiftRight_zero]
  omega

/-- PROGRESS counted up from 0 (R42). -/
theorem saturated_from_zero {n : Nat} (h : n < 2 ^ 32) : saturated ((0 : BitVec 32).toNat + n) = BitVec.ofNat 32 n := by
  rw [show (0 : BitVec 32).toNat = 0 from rfl, Nat.zero_add, saturated_of_lt h]

theorem readLines_checked {s : State} (hcfg : configSupported s) (hn : s.byteCount.toNat ≤ 2 ^ 28)
    (hm : s.streamMode = .write) :
    commandLines .read s = [.clearProgress, .wire (.readData (s.offset.extractLsb' 0 24))] := by
  simp only [commandLines, readLines, engineCheck_inRange hcfg hn, hm, Option.bind_some, if_true, checked,
    wireAddr_startAddr]

/-- Settles O33: behind the checks, one READ frame that counts PROGRESS up from 0 to BYTECOUNT. -/
theorem readCopiesByteCountBytes : Obligations.ReadCopiesByteCountBytes := by
  refine ⟨decodeCommand_ofNat (c := .read) rfl, fun s hr => ⟨fun hns => ?_, fun hcfg hn => ?_, fun hcfg hn hm => ?_,
    fun hcfg hn hm => ?_⟩⟩
  · exact runsTo_checkFailed (c := .read) hr rfl (engineCheck_unsupported hns _ _) nofun
  · exact runsTo_checkFailed (c := .read) hr rfl (engineCheck_badArg hcfg hn _) nofun
  · exact runsTo_checkFailed (c := .read) hr rfl ((engineCheck_inRange hcfg hn _).trans (if_neg hm)) nofun
  · have hclear := reaches_line (s := { s with busy := true }) (l := .clearProgress) hr.host_eq (encodeCommand .read)
      [.wire (.readData (s.offset.extractLsb' 0 24))] rfl
    have hframe := reaches_readFrame (s := { s with busy := true, progress := 0 }) (s.offset.extractLsb' 0 24)
      hr.host_eq (encodeCommand .read) []
    have hrun := runsTo_finish (c := .read) hr (readLines_checked hcfg hn hm) (hclear.trans hframe) hr.host_eq
    have hbit : (s.offset.extractLsb' 0 24).getLsbD 0 = s.offset.getLsbD 0 := by
      rw [BitVec.getLsbD_extractLsb']
      rfl
    rw [hbit, saturated_from_zero (by omega)] at hrun
    exact ⟨_, hrun⟩

/-! ### Whole-device ERASE (R169) -/

theorem eraseLines_wholeDevice {s : State} (hcfg : configSupported s) (h0 : s.byteCount = 0) :
    commandLines .erase s = [.clearProgress, .wire .wren, .wire .ce] := by
  have hn : s.byteCount.toNat ≤ 2 ^ 28 := by
    rw [h0]
    decide
  simp only [commandLines, eraseLines, engineCheck_inRange hcfg hn, Option.bind_none, h0, if_true, checked,
    eraseChipLines]

/-- Settles O36: PROGRESS is cleared, then two frames without a body. -/
theorem wholeDeviceErase : Obligations.WholeDeviceErase := by
  refine ⟨decodeCommand_ofNat (c := .erase) rfl, fun s hr hcfg h0 => ?_⟩
  have hclear := reaches_line (s := { s with busy := true }) (l := .clearProgress) hr.host_eq (encodeCommand .erase)
    [.wire .wren, .wire .ce] rfl
  have hwren := reaches_plain (f := .wren) (fun _ => rfl) (s := { s with busy := true, progress := 0 }) hr.host_eq
    (encodeCommand .erase) [.wire .ce]
  have hce := reaches_plain (f := .ce) (fun _ => rfl)
    (s := afterPlainFrame .wren { s with busy := true, progress := 0 }) hr.host_eq (encodeCommand .erase) []
  have hrun := runsTo_finish (c := .erase) hr (eraseLines_wholeDevice hcfg h0) (hclear.trans (hwren.trans hce))
    hr.host_eq
  simp only [afterPlainFrame, List.append_assoc, List.cons_append, List.nil_append] at hrun
  simp only [List.append_assoc]
  exact ⟨_, hrun⟩

/-! ### BUSY_WAIT (R162, R172) -/

theorem busyWaitLines_supported {s : State} (h : configSupported s) :
    commandLines .busyWait s = .clearProgress :: (busyWaitLoopLines true ++ []) := by
  simp only [commandLines, busyWaitLines, engineCheck_unranged h, checked, List.append_nil]

/-- Settles O38: the busy-wait of the command itself, which counts its status reads in PROGRESS. -/
theorem busyWaitCountsItsStatusReads : Obligations.BusyWaitCountsItsStatusReads := by
  refine ⟨decodeCommand_ofNat (c := .busyWait) rfl, fun s busy ready d hr hcfg hbusy hready hlim hd => ?_⟩
  have hclear := reaches_line (s := { s with busy := true }) (l := .clearProgress) hr.host_eq (encodeCommand .busyWait)
    (busyWaitLoopLines true ++ []) rfl
  obtain ⟨w, -, hwait⟩ := reaches_busyWait_ready true busy ready (s := { s with busy := true, progress := 0 })
    hr.host_eq (encodeCommand .busyWait) [] hd hbusy hready hlim
  have hrun := runsTo_finish (c := .busyWait) hr (busyWaitLines_supported hcfg) (hclear.trans hwait) hr.host_eq
  simp only [afterPolls, List.length_append, List.length_singleton] at hrun
  exact ⟨w, hrun⟩

/-! ### One pass of BusyWaitLoop (R162) -/

theorem pollLoop_ready {s : State} (h : wip s = false) (count : Bool) : pollLoop count s = [] := by
  rw [pollLoop, h]
  rfl

theorem pollLoop_timeout {s : State} (h : wip s = true) (hl : pollLimitReached s = true) (count : Bool) :
    pollLoop count s = [.raise .timeout] := by
  rw [pollLoop, h, hl]
  rfl

theorem pollLoop_again {s : State} (h : wip s = true) (hl : pollLimitReached s = false) (count : Bool) :
    pollLoop count s = [.wire .rdsr, .polled count] := by
  rw [pollLoop, h, hl]
  rfl

theorem step_atPoint_line {s : State} (hs : s.host = []) (cmd : Word) (l : Line) (rest : List Line) :
    step (s.atPoint cmd (l :: rest)) = .next (perform l cmd rest s) := by
  rw [step_no_host (s := s.atPoint cmd (l :: rest)) hs, engineTurn_line (atPoint_seq cmd _ s), State.atPoint,
    perform_seq]

/-- Settles O40: the step performs the `polled` line, whose loop test has three outcomes. -/
theorem onePassOfTheBusyWaitLoop : Obligations.OnePassOfTheBusyWaitLoop := by
  intro s cmd count rest hh hseq p counted
  have hcounted : afterPolled count s = counted := by
    simp only [afterPolled, countUp_eq_saturated, counted, p]
  have hstep : step s = .next (counted.atPoint cmd (pollLoop count counted ++ rest)) := by
    rw [step_no_host hh, engineTurn_line hseq, ← hcounted]
    rfl
  have hreached : pollLimitReached counted = (s.pollLimit != 0 && decide (s.pollLimit ≤ p)) := rfl
  rw [hstep]
  refine ⟨fun hready => ?_, fun hbusy hne hle => ?_, fun hbusy hlim => ?_⟩
  · rw [pollLoop_ready (s := counted) hready]
    rfl
  · rw [bne_iff_ne.mpr hne, decide_eq_true (BitVec.le_def.mpr hle)] at hreached
    rw [pollLoop_timeout (s := counted) hbusy hreached]
    have hend : complete .timeout counted =
        { counted with result := .timeout, errSticky := true, busy := false, seq := .idle } := by
      rw [complete, stickyAfter, show (Result.timeout != .ok) = true from rfl, Bool.or_true]
    exact ⟨_, rfl, (step_atPoint_line (s := counted) hh cmd (.raise .timeout) rest).trans (congrArg _ hend)⟩
  · have hnot : pollLimitReached counted = false := by
      rw [hreached]
      rcases hlim with h0 | hlt
      · rw [h0]
        rfl
      · rw [decide_eq_false (by rw [BitVec.le_def]; omega), Bool.and_false]
    rw [pollLoop_again (s := counted) hbusy hnot]
    rfl

/-! ### Commands that end with TIMEOUT or SOURCE_SHORT (R177, R233) -/

/-- A line that raises one of the two late errors stands where CS_N is high. -/
theorem csN_high_of_raises {l : Line} {rest : List Line} {s : State} {c : Result}
    (h : pointSound s.pins.sck s.pins.csN (l :: rest) = true) (hr : raises l s = some c)
    (hc : c = .timeout ∨ c = .sourceShort) : s.pins.csN = true := by
  cases l with
  | raise e =>
    cases hr
    rcases hc with rfl | rfl <;> simpa [pointSound] using (Bool.and_eq_true_iff.mp h).2
  | nextChunk =>
    obtain ⟨hlow, -⟩ := Bool.and_eq_true_iff.mp h
    exact (Bool.and_eq_true_iff.mp hlow).2
  | _ => cases hr

theorem engineTurn_late_error_csN {s t : State} (hi : Inv s) (h : engineTurn s = .next t) (hb : s.busy = true)
    (hd : t.busy = false) (hc : t.result = .timeout ∨ t.result = .sourceShort) : t.pins.csN = true := by
  rcases engineTurn_next_point_cases h with rfl | ⟨cmd, -, rfl⟩ | ⟨l, cmd, rest, hs, rfl⟩
  · simp [hb] at hd
  · simp at hc
  · cases hr : raises l s with
    | some c =>
      rw [perform_of_raises hr] at hc ⊢
      have hbus := hi.bus
      rw [busSound_running hs, Bool.and_eq_true] at hbus
      exact csN_high_of_raises hbus.1 hr hc
    | none =>
      rw [perform_of_not_raises hr] at hd
      simp [hb] at hd

/-- Settles O53: only an engine step on a line that raises ends a command so, and CS_ACTIVE follows CS_N. -/
theorem lateErrorsLeaveTheBusDeselected : Obligations.LateErrorsLeaveTheBusDeselected := by
  intro s t hi h hb hd hc
  suffices hcs : t.pins.csN = true by
    exact ⟨hcs, by rw [(everyStepKeepsTheInvariant s t hi h).cs, hcs]; rfl⟩
  rcases step_next_cases h with ⟨q, he⟩ | ⟨m, q, -, -, hh⟩
  · exact engineTurn_late_error_csN (s := { s with host := q }) (hi.of_guarded_eq rfl) he hb hd hc
  · by_cases hact : m.act = .reset
    · rw [hact] at hh
      cases hh
      rfl
    · have hkept := (hostTurn_keeps_status hact hh).busy hb
      simp [hkept] at hd

end Sys2Proof.Machine

/-! # PROGRAM chunk by chunk (R165, R166, R227) -/

namespace Sys2Proof.Machine

/-! ### PROGRAM's chunks whose busy-waits end READY (R166) -/

/-- The state after one WREN/PP pair for each busy-wait of `polls`. -/
def afterChunks (polls : List (List Byte)) (data more : List Byte) (d : Device) (w : Work) (s : State) : State :=
  { s with
    pins := if polls = [] then s.pins else busClosed (s.opcodes.rdsr.getLsbD 0) s
    csActive := if polls = [] then s.csActive else false
    device := d
    source := { s.source with bytes := more }
    work := w
    progress := saturated (s.progress.toNat + data.length)
    frames := s.frames ++ programFrames s.work.addr polls
    trace := s.trace ++ programEvents s.opcodes s.timing s.work.addr data polls }

theorem afterChunks_nil {s : State} {d : Device} {more : List Byte} (hd : s.device = d) (hb : s.source.bytes = more) :
    afterChunks [] [] more d s.work s = s := by
  subst hd hb
  have hp : saturated (s.progress.toNat + ([] : List Byte).length) = s.progress := saturated_self _
  simp only [afterChunks, if_true, programFrames, programEvents, List.append_nil, hp]

/-- One pair and then the others, each a page further on. -/
theorem afterChunks_cons (p : List Byte) (polls : List (List Byte)) (data more : List Byte) (d : Device) (v w : Work)
    (s : State) (hv : polls ≠ [] → v.addr = s.work.addr + BitVec.ofNat 33 256) :
    afterChunks polls (data.drop 256) more d w
        (afterChunk (data.take 256) (data.drop 256 ++ more) [] p (d.answering polls.flatten) v s) =
      afterChunks (p :: polls) data more d w s := by
  have hlen : (data.take 256).length + (data.drop 256).length = data.length := by
    rw [← List.length_append, List.take_append_drop]
  have hframes : programFrames v.addr polls = programFrames (s.work.addr + BitVec.ofNat 33 256) polls := by
    cases polls with
    | nil => rfl
    | cons q qs => rw [hv (List.cons_ne_nil q qs)]
  have hevents (t : Timing) (o : Config.Opcodes) : programEvents o t v.addr (data.drop 256) polls =
      programEvents o t (s.work.addr + BitVec.ofNat 33 256) (data.drop 256) polls := by
    cases polls with
    | nil => rfl
    | cons q qs => rw [hv (List.cons_ne_nil q qs)]
  simp only [afterChunks, afterChunk, hframes, hevents, saturated_add, Nat.add_assoc, hlen, ite_self, List.cons_ne_nil,
    if_false, programFrames, programEvents, List.append_assoc]

theorem ne_zero_iff_toNat_pos {n : Nat} (x : BitVec n) : x ≠ 0 ↔ 0 < x.toNat := by
  rw [BitVec.toNat_ne, Nat.pos_iff_ne_zero, BitVec.ofNat_eq_ofNat, BitVec.toNat_ofNat, Nat.zero_mod]

theorem chunkLoop_more {s : State} (h : s.work.remain ≠ 0) : chunkLoop s = chunkLines s.work.addr := by
  simp only [chunkLoop, moreChunks, bne_iff_ne.mpr h, cond_true]

theorem chunkLoop_done {s : State} (h : s.work.remain = 0) : chunkLoop s = [] := by
  rw [chunkLoop, moreChunks, h]
  rfl

/-- What PROGRAM's loop head leaves: a chunk of REMAIN's next bytes, if there are any (R165). -/
def Work.atChunk (w : Work) : Prop := w.remain ≠ 0 → w.chunk = chunkOf w.remain

/-- At PROGRAM's chunk test: the source has the bytes of the next `polls.length` chunks, the last of which may be short
when it is REMAIN's last, and the Device lets every busy-wait end READY. -/
structure ChunksReady (polls : List (List Byte)) (data more : List Byte) (d : Device) (s : State) : Prop where
  bytes : s.source.bytes = data ++ more
  length : data.length = min s.work.remain.toNat (256 * polls.length)
  needed : 256 * polls.length < s.work.remain.toNat + 256
  chunk : s.work.atChunk
  waits : ∀ p ∈ polls, EndsReady p ∧ pollsAllowed p.length s
  device : s.device = d.answering polls.flatten

theorem ChunksReady.remain_ne_zero {p : List Byte} {polls : List (List Byte)} {data more : List Byte} {d : Device}
    {s : State} (h : ChunksReady (p :: polls) data more d s) : s.work.remain ≠ 0 := by
  have hneeded := h.needed
  rw [List.length_cons] at hneeded
  exact (ne_zero_iff_toNat_pos _).mpr (by omega)

/-- The first of the chunks: the others stand ready after it, a page further on if REMAIN goes further. -/
theorem reaches_firstChunk {p : List Byte} {polls : List (List Byte)} {data more : List Byte} {d : Device} {s : State}
    (h : ChunksReady (p :: polls) data more d s) (hs : s.host = []) (cmd : Word) (rest : List Line) :
    ∃ v : Work,
      let u := afterChunk (data.take 256) (data.drop 256 ++ more) [] p (d.answering polls.flatten) v s
      ChunksReady polls (data.drop 256) more d u ∧ v.remain.toNat = s.work.remain.toNat - min 256 data.length ∧
        (256 < s.work.remain.toNat → v.addr = s.work.addr + BitVec.ofNat 33 256) ∧
        Reaches (s.atPoint cmd (chunkLoop s ++ rest)) (u.atPoint cmd (chunkLoop u ++ rest)) := by
  have hrem := h.remain_ne_zero
  obtain ⟨hbytes, hlength, hneeded, hatChunk, hwaits, hdevice⟩ := h
  rw [List.length_cons] at hlength hneeded
  have hchunk : s.work.chunk.toNat = min s.work.remain.toNat 256 := by rw [hatChunk hrem, chunkOf_toNat]
  have htake : (data.take 256).length = min 256 data.length := List.length_take
  obtain ⟨hready, hallowed⟩ := hwaits p List.mem_cons_self
  obtain ⟨v, haddr, hvrem, hvchunk, hrun⟩ := reaches_chunk_ready (data.take 256) (data.drop 256 ++ more) p hs cmd rest
    (by rw [← List.append_assoc, List.take_append_drop, hbytes]) (by omega) (by omega) hready hallowed
    (d := d.answering polls.flatten) (by rw [hdevice, List.flatten_cons, answering_append])
  rw [htake] at hvrem
  rw [← chunkLoop_more hrem] at hrun
  refine ⟨v, ⟨rfl, ?_, ?_, hvchunk, fun q hq => hwaits q (List.mem_cons_of_mem _ hq), rfl⟩, hvrem, fun hlt => ?_, hrun⟩
  · show (data.drop 256).length = min v.remain.toNat (256 * polls.length)
    rw [List.length_drop, hvrem]
    omega
  · show 256 * polls.length < v.remain.toNat + 256
    omega
  · rw [haddr, ← BitVec.ofNat_toNat, hchunk, Nat.min_eq_right (by omega)]

/-- PROGRAM's loop through the chunks that stand ready. -/
theorem reaches_chunks_ready {polls : List (List Byte)} {data more : List Byte} {d : Device} {s : State}
    (h : ChunksReady polls data more d s) (hs : s.host = []) (cmd : Word) (rest : List Line) :
    ∃ w : Work, w.remain.toNat = s.work.remain.toNat - data.length ∧ w.atChunk ∧
      (w.remain ≠ 0 → w.addr = s.work.addr + BitVec.ofNat 33 (256 * polls.length)) ∧
      Reaches (s.atPoint cmd (chunkLoop s ++ rest))
        ((afterChunks polls data more d w s).atPoint cmd (chunkLoop (afterChunks polls data more d w s) ++ rest)) := by
  induction polls generalizing s data with
  | nil =>
    obtain rfl : data = [] := List.length_eq_zero_iff.mp (by simpa using h.length)
    refine ⟨s.work, rfl, h.chunk, fun _ => (BitVec.add_zero _).symm, ?_⟩
    rw [afterChunks_nil (d := d) (more := more) h.device h.bytes]
    exact .refl _
  | cons p polls ih =>
    obtain ⟨v, htail, hvrem, hvaddr, hrun⟩ := reaches_firstChunk h hs cmd rest
    have hneeded := h.needed
    rw [List.length_cons] at hneeded
    obtain ⟨w, hwrem, hwchunk, hwaddr, hrest⟩ := ih htail hs
    rw [afterChunks_cons p polls data more d v w s (fun hne => hvaddr (by
      have := List.length_pos_iff.mpr hne
      omega))] at hrest
    have hrem : w.remain.toNat = s.work.remain.toNat - data.length := by
      rw [hwrem]
      show v.remain.toNat - (data.drop 256).length = _
      rw [List.length_drop, hvrem]
      omega
    refine ⟨w, hrem, hwchunk, fun hne => ?_, hrun.trans hrest⟩
    have hpos := (ne_zero_iff_toNat_pos _).mp hne
    have hlength := h.length
    rw [List.length_cons] at hlength
    rw [hwaddr hne]
    show v.addr + _ = _
    rw [hvaddr (by omega), BitVec.add_assoc, ← BitVec.ofNat_add, List.length_cons, Nat.mul_succ, Nat.add_comm]

/-! ### PROGRAM as a command -/

theorem programLines_checked {s : State} (hcfg : configSupported s) (hn : s.byteCount.toNat ≤ 2 ^ 28)
    (hm : s.streamMode = .read) : commandLines .program s = [.clearProgress, .beginProgram] := by
  simp only [commandLines, programLines, engineCheck_inRange hcfg hn, hm, Option.bind_some, if_true, checked]

/-- The working registers at PROGRAM's first chunk test (R165). -/
def Work.programStart (s : State) : Work := { s.work with addr := startAddr s, remain := s.byteCount }.enterChunk

theorem Work.enterChunk_addr (w : Work) : w.enterChunk.addr = w.addr := by
  unfold Work.enterChunk
  split <;> rfl

theorem Work.enterChunk_remain (w : Work) : w.enterChunk.remain = w.remain := by
  unfold Work.enterChunk
  split <;> rfl

theorem Work.enterChunk_atChunk (w : Work) : w.enterChunk.atChunk := by
  unfold Work.enterChunk
  split
  · rename_i h
    exact fun h' => absurd h h'
  · exact fun _ => rfl

/-- PROGRAM up to its first chunk test, the command running. -/
theorem reaches_program_chunkLoop {s : State} (hs : s.host = []) (cmd : Word) :
    Reaches (State.atPoint cmd [.clearProgress, .beginProgram] { s with busy := true })
      (State.atPoint cmd (chunkLoop { s with busy := true, progress := 0, work := Work.programStart s } ++ [])
        { s with busy := true, progress := 0, work := Work.programStart s }) :=
  (reaches_line (l := .clearProgress) (s := { s with busy := true }) hs cmd [.beginProgram] rfl).trans
    (reaches_line (l := .beginProgram) (s := { s with busy := true, progress := 0 }) hs cmd [] rfl)

/-- Settles O34: after the chunks REMAIN is 0, so the loop's next test ends it. -/
theorem programWritesTheSourceByPages : Obligations.ProgramWritesTheSourceByPages := by
  refine ⟨decodeCommand_ofNat (c := .program) rfl, fun s data more polls d hr hcfg hm hn hlen hb hpolls hp hd => ?_⟩
  have hremain : (Work.programStart s).remain = s.byteCount := Work.enterChunk_remain _
  have haddr : (Work.programStart s).addr = s.offset.setWidth 33 := Work.enterChunk_addr _
  have hready : ChunksReady polls data more d { s with busy := true, progress := 0, work := Work.programStart s } :=
    ⟨hb, by simp only [hremain]; omega, by simp only [hremain]; omega, Work.enterChunk_atChunk _, hp, hd⟩
  obtain ⟨w, hwrem, -, -, hrun⟩ := reaches_chunks_ready hready hr.host_eq (encodeCommand .program) []
  have hw0 : w.remain = 0 := by
    apply BitVec.eq_of_toNat_eq
    simp only [hwrem, hremain, hlen, Nat.sub_self]
    rfl
  rw [chunkLoop_done (s := afterChunks _ _ _ _ _ _) hw0] at hrun
  have hfin := runsTo_finish (c := .program) hr (programLines_checked hcfg hn hm)
    ((reaches_program_chunkLoop hr.host_eq _).trans hrun) hr.host_eq
  have hnil : polls = [] ↔ s.byteCount = 0 := by
    rw [← not_iff_not, ← ne_eq s.byteCount, ne_zero_iff_toNat_pos, ← List.length_eq_zero_iff, hpolls]
    omega
  have hprogress : saturated ((0 : BitVec 32).toNat + data.length) = BitVec.ofNat 32 s.byteCount.toNat := by
    rw [hlen, saturated_from_zero (by omega)]
  simp only [afterChunks, hnil, hprogress, haddr] at hfin
  exact ⟨w, hfin⟩

/-! ### A source that ends early (R166, R227) -/

theorem programFrames_concat (a : BitVec 33) (polls : List (List Byte)) (last : List Byte) :
    programFrames a (polls ++ [last]) = programFrames a polls ++
      ([.wren, .pp (wireAddr (a + BitVec.ofNat 33 (256 * polls.length)))] ++ List.replicate last.length .rdsr) := by
  induction polls generalizing a with
  | nil => simp [programFrames]
  | cons p polls ih =>
    have haddr : a + BitVec.ofNat 33 Config.pageSize + BitVec.ofNat 33 (256 * polls.length) =
        a + BitVec.ofNat 33 (256 * (polls.length + 1)) := by
      rw [BitVec.add_assoc, ← BitVec.ofNat_add, Nat.mul_succ, Nat.add_comm]
    simp only [List.cons_append, programFrames, ih, haddr, List.length_cons, List.append_assoc]

/-- How the busy-wait of a chunk ends in which the source ended: READY, and then SOURCE_SHORT; or TIMEOUT. -/
def LateError (last : List Byte) (r : Result) (s : State) : Prop :=
  (EndsReady last ∧ pollsAllowed last.length s ∧ r = .sourceShort) ∨
    (s.pollLimit ≠ 0 ∧ last.length = s.pollLimit.toNat ∧ (∀ b ∈ last, b.getLsbD 0 = true) ∧ r = .timeout)

/-- The chunk in which the source ends: the bytes there are, one pull more, its busy-wait and the error. -/
theorem reaches_chunk_short (data last : List Byte) {r : Result} {s : State} (hs : s.host = []) (cmd : Word)
    (rest : List Line) (hb : s.source.bytes = data) (hend : s.source.ended = true)
    (hn : data.length < s.work.chunk.toNat) (hr : LateError last r s) {d : Device} (hd : s.device = d.answering last) :
    ∃ w, Reaches (s.atPoint cmd (chunkLines s.work.addr ++ rest))
      (complete r (afterChunk data [] [.pull none] last d w s)) := by
  obtain ⟨v, -, hexh, hpair⟩ := reaches_pair_short data hs cmd rest hb hend hn
  have hpolls (w : Work) := afterPolls_eq_afterChunk data [] [.pull none] last d v w s
  rcases hr with ⟨hready, hallowed, rfl⟩ | ⟨hlim, hcount, hbusy, rfl⟩
  · obtain ⟨w, ⟨-, -, -, -, hwexh⟩, hwait⟩ := reaches_quietWait_ready (p := last)
      (s := afterPp (wireAddr s.work.addr) data [] v [.pull none] (afterPlainFrame .wren s)) hs hready hallowed cmd
      (.nextChunk :: rest) hd
    have hraise := reaches_raise (l := .nextChunk) (s := afterChunk data [] [.pull none] last d w s) hs cmd rest
      (c := .sourceShort) (if_pos (hwexh.trans hexh))
    rw [← hpolls] at hraise
    exact ⟨w, hpolls w ▸ hpair.trans (hwait.trans hraise)⟩
  · obtain ⟨w, hwait⟩ := reaches_busyWait_timeout false last
      (s := afterPp (wireAddr s.work.addr) data [] v [.pull none] (afterPlainFrame .wren s)) hs cmd (.nextChunk :: rest)
      hd hbusy hlim hcount
    exact ⟨w, hpolls w ▸ hpair.trans hwait⟩

theorem LateError.ne_ok {last : List Byte} {r : Result} {s : State} (h : LateError last r s) : r ≠ .ok := by
  rcases h with ⟨-, -, rfl⟩ | ⟨-, -, -, rfl⟩ <;> exact nofun

/-- The chunk in which the source ends, behind the full chunks. -/
theorem afterChunk_afterChunks (polls : List (List Byte)) (data more last : List Byte) (ev : List Event) (d e : Device)
    (v w : Work) (s : State) (hv : v.addr = s.work.addr + BitVec.ofNat 33 (256 * polls.length)) :
    afterChunk more [] ev last e w (afterChunks polls data more d v s) =
      { s with
        pins := busClosed (s.opcodes.rdsr.getLsbD 0) s
        csActive := false
        device := e
        source := { s.source with bytes := [] }
        work := w
        progress := saturated (s.progress.toNat + (data ++ more).length)
        frames := s.frames ++ programFrames s.work.addr (polls ++ [last])
        trace := s.trace ++ programEvents s.opcodes s.timing s.work.addr data polls ++
          chunkEvents s.opcodes s.timing (s.work.addr + BitVec.ofNat 33 (256 * polls.length)) more ev last } := by
  have hwp : (if polls = [] then s.pins else busClosed (s.opcodes.rdsr.getLsbD 0) s).wpN = s.pins.wpN := by
    split <;> rfl
  simp only [afterChunk, afterChunks, busClosed, hwp, hv, saturated_add, Nat.add_assoc, List.length_append,
    programFrames_concat, List.append_assoc]

/-- Settles O35: the full chunks first, then the chunk in which the source ends. -/
theorem programReportsAShortSource : Obligations.ProgramReportsAShortSource := by
  intro s data polls last d r hr hcfg hm hn hshort hb hend hpolls hp hlate hd
  rw [← hpolls]
  have hremain : (Work.programStart s).remain = s.byteCount := Work.enterChunk_remain _
  have haddr : (Work.programStart s).addr = s.offset.setWidth 33 := Work.enterChunk_addr _
  have htake : (data.take (256 * polls.length)).length = 256 * polls.length := by
    rw [List.length_take]
    omega
  have hready : ChunksReady polls (data.take (256 * polls.length)) (data.drop (256 * polls.length)) (d.answering last)
      { s with busy := true, progress := 0, work := Work.programStart s } :=
    ⟨by rw [List.take_append_drop]; exact hb, by simp only [hremain, htake]; omega, by simp only [hremain]; omega,
      Work.enterChunk_atChunk _, hp, by rw [← answering_append]; exact hd⟩
  obtain ⟨v, hvrem, hvchunk, hvaddr, hfull⟩ := reaches_chunks_ready hready hr.host_eq (encodeCommand .program) []
  simp only [hremain, htake] at hvrem
  have hv0 : v.remain ≠ 0 := (ne_zero_iff_toNat_pos _).mpr (by omega)
  have hdrop : (data.drop (256 * polls.length)).length < v.chunk.toNat := by
    rw [hvchunk hv0, chunkOf_toNat, List.length_drop]
    omega
  rw [chunkLoop_more (s := afterChunks _ _ _ _ _ _) hv0] at hfull
  obtain ⟨w, hlast⟩ := reaches_chunk_short (data.drop (256 * polls.length)) last (r := r)
    (s := afterChunks polls (data.take (256 * polls.length)) (data.drop (256 * polls.length)) (d.answering last) v
      { s with busy := true, progress := 0, work := Work.programStart s })
    hr.host_eq (encodeCommand .program) [] rfl hend hdrop hlate rfl
  have hrun := runsTo_raised (c := .program) hr (programLines_checked hcfg hn hm) (LateError.ne_ok hlate)
    ((reaches_program_chunkLoop hr.host_eq _).trans (hfull.trans hlast))
  have hpage : s.offset.setWidth 33 + BitVec.ofNat 33 (256 * polls.length) =
      BitVec.ofNat 33 (s.offset.toNat + 256 * polls.length) := by
    rw [BitVec.ofNat_add, BitVec.ofNat_toNat]
  rw [afterChunk_afterChunks _ _ _ _ _ _ _ _ _ _ (hvaddr hv0), List.take_append_drop] at hrun
  simp only [saturated_from_zero (show data.length < 2 ^ 32 by omega), haddr, hpage] at hrun
  exact ⟨w, hrun⟩

end Sys2Proof.Machine

/-! # Ranged ERASE sector by sector (R168, R170, R171) -/

namespace Sys2Proof.Machine

/-! ### EraseRange's sectors whose busy-waits end READY (R171) -/

/-- The state after one WREN/SE pair for each busy-wait of `polls`. -/
def afterSectors (polls : List (List Byte)) (d : Device) (w : Work) (s : State) : State :=
  { s with
    pins := if polls = [] then s.pins else busClosed (s.opcodes.rdsr.getLsbD 0) s
    csActive := if polls = [] then s.csActive else false
    device := d
    work := w
    progress := saturated (s.progress.toNat + polls.length)
    frames := s.frames ++ eraseFrames s.work.addr polls
    trace := s.trace ++ eraseEvents s.opcodes s.timing s.work.addr polls }

theorem afterSectors_nil {s : State} {d : Device} (hd : s.device = d) : afterSectors [] d s.work s = s := by
  subst hd
  have hp : saturated (s.progress.toNat + ([] : List (List Byte)).length) = s.progress := saturated_self _
  simp only [afterSectors, if_true, eraseFrames, eraseEvents, List.append_nil, hp]

/-- One pair and then the others, each a sector further on. -/
theorem afterSectors_cons (p : List Byte) (polls : List (List Byte)) (d : Device) (v w : Work) (s : State)
    (hv : v.addr = s.work.addr + BitVec.ofNat 33 4096) :
    afterSectors polls d w (afterSector p (d.answering polls.flatten) v s) = afterSectors (p :: polls) d w s := by
  simp only [afterSectors, afterSector, hv, saturated_countUp, ite_self, List.cons_ne_nil, if_false, List.length_cons,
    eraseFrames, eraseEvents, List.append_assoc]

theorem sectorLoop_more {s : State} (h : s.work.addr.toNat < s.work.endAddr.toNat) :
    sectorLoop s = sectorLines s.work.addr := by
  simp only [sectorLoop, moreSectors, decide_eq_true (BitVec.lt_def.mpr h), cond_true]

theorem sectorLoop_done {s : State} (h : s.work.endAddr.toNat ≤ s.work.addr.toNat) : sectorLoop s = [] := by
  rw [sectorLoop, moreSectors, decide_eq_false (by rw [BitVec.lt_def]; omega)]
  rfl

/-- EraseRange's loop through the sectors of `polls`, each of which starts below END and has a busy-wait that ends
READY. -/
theorem reaches_sectors_ready (polls : List (List Byte)) {s : State} (hs : s.host = []) (cmd : Word) (rest : List Line)
    {d : Device} (hmore : s.work.addr.toNat + 4096 * polls.length < s.work.endAddr.toNat + 4096)
    (hfit : s.work.endAddr.toNat + 4096 ≤ 2 ^ 33) (hp : ∀ p ∈ polls, EndsReady p ∧ pollsAllowed p.length s)
    (hd : s.device = d.answering polls.flatten) :
    ∃ w : Work, w.addr.toNat = s.work.addr.toNat + 4096 * polls.length ∧ w.endAddr = s.work.endAddr ∧
      Reaches (s.atPoint cmd (sectorLoop s ++ rest))
        ((afterSectors polls d w s).atPoint cmd (sectorLoop (afterSectors polls d w s) ++ rest)) := by
  induction polls generalizing s with
  | nil =>
    refine ⟨s.work, rfl, rfl, ?_⟩
    rw [afterSectors_nil (d := d) hd]
    exact .refl _
  | cons p polls ih =>
    rw [List.length_cons] at hmore
    obtain ⟨hready, hallowed⟩ := hp p List.mem_cons_self
    obtain ⟨v, haddr, hvend, hrun⟩ := reaches_sector_ready p hs cmd rest hready hallowed
      (d := d.answering polls.flatten) (by rw [hd, List.flatten_cons, answering_append])
    have hnext : v.addr.toNat = s.work.addr.toNat + 4096 := by
      rw [haddr, BitVec.toNat_add, BitVec.toNat_ofNat, Config.sectorSize]
      omega
    obtain ⟨w, hwaddr, hwend, hrest⟩ := ih (s := afterSector p (d.answering polls.flatten) v s) hs
      (by
        show v.addr.toNat + _ < v.endAddr.toNat + 4096
        rw [hnext, hvend]
        omega)
      (by
        show v.endAddr.toNat + 4096 ≤ 2 ^ 33
        rw [hvend]
        exact hfit)
      (fun q hq => hp q (List.mem_cons_of_mem _ hq)) rfl
    rw [afterSectors_cons p polls d v w s haddr] at hrest
    refine ⟨w, ?_, hwend.trans hvend, ?_⟩
    · rw [hwaddr]
      show v.addr.toNat + _ = _
      rw [hnext, List.length_cons]
      omega
    · rw [sectorLoop_more (by omega)]
      exact hrun.trans hrest

/-! ### Ranged ERASE as a command (R168, R170) -/

theorem eraseLines_ranged {s : State} (hcfg : configSupported s) (h1 : 1 ≤ s.byteCount.toNat)
    (hn : s.byteCount.toNat ≤ 2 ^ 28) : commandLines .erase s = [.clearProgress, .beginErase] := by
  have h0 : s.byteCount ≠ 0 := (ne_zero_iff_toNat_pos _).mpr h1
  simp only [commandLines, eraseLines, engineCheck_inRange hcfg hn, Option.bind_none, h0, if_false, checked]

/-- The working registers at EraseRange's first sector test (R170). -/
def Work.eraseStart (s : State) : Work :=
  { s.work with addr := alignDownSector (startAddr s), endAddr := startAddr s + s.byteCount.setWidth 33 }

theorem eraseStart_addr (s : State) :
    (Work.eraseStart s).addr = BitVec.ofNat 33 (s.offset.toNat - s.offset.toNat % 4096) := by
  have ho := s.offset.isLt
  apply BitVec.eq_of_toNat_eq
  simp only [Work.eraseStart, alignDownSector, startAddr, Config.sectorSize, BitVec.toNat_sub, BitVec.toNat_ofNat,
    BitVec.toNat_setWidth]
  omega

theorem eraseStart_endAddr_toNat (s : State) :
    (Work.eraseStart s).endAddr.toNat = s.offset.toNat + s.byteCount.toNat := by
  have ho := s.offset.isLt
  have hb := s.byteCount.isLt
  simp only [Work.eraseStart, startAddr, BitVec.toNat_add, BitVec.toNat_setWidth]
  omega

/-- Ranged ERASE up to its first sector test, the command running. -/
theorem reaches_erase_sectorLoop {s : State} (hs : s.host = []) (cmd : Word) :
    Reaches (State.atPoint cmd [.clearProgress, .beginErase] { s with busy := true })
      (State.atPoint cmd (sectorLoop { s with busy := true, progress := 0, work := Work.eraseStart s } ++ [])
        { s with busy := true, progress := 0, work := Work.eraseStart s }) :=
  (reaches_line (l := .clearProgress) (s := { s with busy := true }) hs cmd [.beginErase] rfl).trans
    (reaches_line (l := .beginErase) (s := { s with busy := true, progress := 0 }) hs cmd [] rfl)

/-- Settles O37: after the sectors ADDR is not below END, so the loop's next test ends it. -/
theorem rangedEraseCoversTheRange : Obligations.RangedEraseCoversTheRange := by
  refine ⟨decodeCommand_ofNat (c := .erase) rfl, ?_⟩
  intro s polls d hr hcfg h1 hn base sectors hpolls hp hd
  have ho := s.offset.isLt
  have haddr : (Work.eraseStart s).addr = BitVec.ofNat 33 base := eraseStart_addr s
  have hstart : (Work.eraseStart s).addr.toNat = base := by
    rw [haddr, BitVec.toNat_ofNat]
    omega
  have hend := eraseStart_endAddr_toNat s
  obtain ⟨w, hwaddr, hwend, hrun⟩ := reaches_sectors_ready polls
    (s := { s with busy := true, progress := 0, work := Work.eraseStart s }) hr.host_eq (encodeCommand .erase) []
    (by simp only [hstart, hend]; omega) (by simp only [hend]; omega) hp hd
  simp only [hstart] at hwaddr
  have hdone : w.endAddr.toNat ≤ w.addr.toNat := by
    rw [hwaddr, hwend, hend]
    omega
  rw [sectorLoop_done (s := afterSectors _ _ _ _) hdone] at hrun
  have hfin := runsTo_finish (c := .erase) hr (eraseLines_ranged hcfg h1 hn)
    ((reaches_erase_sectorLoop hr.host_eq _).trans hrun) hr.host_eq
  have hne : polls ≠ [] := by
    rw [← List.length_pos_iff, hpolls]
    omega
  have hprogress : saturated ((0 : BitVec 32).toNat + polls.length) = BitVec.ofNat 32 sectors := by
    rw [hpolls, saturated_from_zero (by omega)]
  simp only [afterSectors, hne, if_false, hprogress, haddr] at hfin
  exact ⟨w, hfin⟩

end Sys2Proof.Machine

/-! # Every command ends under a POLL_LIMIT (R176)

Here the Device and the source answer anything, so the lemmas on loops that know the answers do not serve. A point is
shown to end for every state whose plan, the registers the loops of PROGRAM and EraseRange count on, is given. -/

namespace Sys2Proof.Machine

/-! ### Points that end -/

/-- The working registers that PROGRAM's and EraseRange's loops count on. No frame and no busy-wait writes one. -/
structure Plan where
  addr    : BitVec 33
  endAddr : BitVec 33
  remain  : BitVec 29
  chunk   : BitVec 9

def Work.plan (w : Work) : Plan := { addr := w.addr, endAddr := w.endAddr, remain := w.remain, chunk := w.chunk }

/-- The outside makes no move, POLL_LIMIT is set, and the plan is `p`. -/
structure Limited (p : Plan) (s : State) : Prop where
  host : s.host = []
  limit : s.pollLimit ≠ 0
  plan : s.work.plan = p

/-- From some state on, the block comes to wait for the next command. -/
def Ends (s : State) : Prop := ∃ t, Reaches s t ∧ t.busy = false ∧ t.seq = .idle

theorem Ends.of_reaches {s t : State} (r : Reaches s t) (h : Ends t) : Ends s := by
  obtain ⟨u, ru, hu⟩ := h
  exact ⟨u, r.trans ru, hu⟩

theorem Ends.of_complete {s t : State} {c : Result} (r : Reaches s (complete c t)) : Ends s := ⟨_, r, rfl, rfl⟩

/-- A command that runs these lines with the plan `p` comes to its end. -/
def PointEnds (p : Plan) (point : List Line) : Prop := ∀ s cmd, Limited p s → Ends (s.atPoint cmd point)

theorem pointEnds_nil (p : Plan) : PointEnds p [] := fun _ cmd hs => .of_complete (reaches_finish hs.host cmd)

theorem pointEnds_raise (p : Plan) (c : Result) (rest : List Line) : PointEnds p (.raise c :: rest) :=
  fun _ cmd hs => .of_complete (reaches_raise hs.host cmd rest rfl)

/-! ### Straight lines -/

theorem effect_pollLimit (l : Line) (s : State) : (effect l s).pollLimit = s.pollLimit := by
  cases l <;> simp only [effect, drive_pollLimit, shiftOut_pollLimit, emit_pollLimit, shiftIn_pollLimit,
    openFrame_pollLimit, pushByte_pollLimit, pullByte_pollLimit]

theorem straight_plan {l : Line} (hl : l.straight = true) (s : State) : (effect l s).work.plan = s.work.plan := by
  cases l with
  | latch x => cases x <;> rfl
  | drive | shiftOut | delay | shiftIn | writeChipId | writeRxData | writeClock | clearProgress | push | countSector |
      beginPoll => rfl
  | _ => cases hl

theorem Limited.effect {p : Plan} {s : State} (hs : Limited p s) (l : Line) :
    Limited (effect l s).work.plan (effect l s) :=
  ⟨(effect_host l s).trans hs.host, by rw [effect_pollLimit]; exact hs.limit, rfl⟩

theorem Limited.effects {p : Plan} {s : State} (hs : Limited p s) {ls : List Line} (hl : ls.all Line.straight = true) :
    Limited p (effects ls s) := by
  induction ls generalizing s with
  | nil => exact hs
  | cons l ls ih =>
    rw [List.all_cons, Bool.and_eq_true] at hl
    exact ih (hs.plan ▸ straight_plan hl.1 s ▸ hs.effect l) hl.2

theorem PointEnds.straight {p : Plan} {rest : List Line} (h : PointEnds p rest) {ls : List Line}
    (hl : ls.all Line.straight = true) : PointEnds p (ls ++ rest) :=
  fun _ cmd hs => .of_reaches (reaches_straight hl hs.host cmd rest) (h _ cmd (hs.effects hl))

/-! ### Frames -/

theorem PointEnds.rdid {p : Plan} {rest : List Line} (h : PointEnds p rest) : PointEnds p (.wire .rdid :: rest) :=
  fun _ cmd hs => .of_reaches (reaches_rdid hs.host cmd rest rfl rfl rfl) (h _ cmd ⟨hs.host, hs.limit, hs.plan⟩)

theorem PointEnds.readData {p : Plan} {rest : List Line} (h : PointEnds p rest) (a : WireAddr) :
    PointEnds p (.wire (.readData a) :: rest) :=
  fun _ cmd hs => .of_reaches (reaches_readFrame a hs.host cmd rest) (h _ cmd ⟨hs.host, hs.limit, hs.plan⟩)

theorem PointEnds.plainFrame {p : Plan} {rest : List Line} (h : PointEnds p rest) {f : Frame}
    (hf : ∀ t, frameBody t f = []) : PointEnds p (.wire f :: rest) :=
  fun _ cmd hs => .of_reaches (reaches_plain hf hs.host cmd rest) (h _ cmd ⟨hs.host, hs.limit, hs.plan⟩)

/-- One pass of PROGRAM's byte loop: the source ends, or its byte is sent and N counts it (R165). -/
theorem reaches_dataLoop_pass {p : Plan} {s : State} (hs : Limited p s) (hm : moreData s = true) (cmd : Word)
    (rest : List Line) :
    (∃ u, Limited p u ∧ Reaches (s.atPoint cmd (dataLoop s ++ rest)) (u.atPoint cmd rest)) ∨
      ∃ u, Limited p u ∧ u.work.n = s.work.n + 1 ∧ u.work.chunk = s.work.chunk ∧
        Reaches (s.atPoint cmd (dataLoop s ++ rest)) (u.atPoint cmd (dataLoop u ++ rest)) := by
  have hexh : s.work.exh = false := by
    rw [moreData, Bool.and_eq_true] at hm
    simpa using hm.2
  have hpull := reaches_line (l := .pull) hs.host cmd rest rfl
  have hloop : dataLoop s = [.pull] := by rw [dataLoop, hm, cond_true]
  rw [hloop]
  cases hr : s.source.next.1 with
  | none =>
    have hwork : (effect .pull s).work = { s.work with exh := true } := by
      simp only [effect, pullByte_work, hr, Work.pulled]
    rw [expand, pulledLines, hwork] at hpull
    exact .inl ⟨effect .pull s, ⟨hs.host, hs.limit, by rw [hwork]; exact hs.plan⟩, hpull⟩
  | some b =>
    have hwork : (effect .pull s).work = { s.work with shift := b } := by
      simp only [effect, pullByte_work, hr, Work.pulled]
    rw [expand, pulledLines, hwork, hexh, cond_false, List.append_assoc] at hpull
    have hpulled : Limited p (effect .pull s) := ⟨hs.host, hs.limit, by rw [hwork]; exact hs.plan⟩
    have htx := txByteLines_straight (effect .pull s).timing b
    obtain ⟨v, hv, hvwork, hsend⟩ : ∃ v, Limited p v ∧ v.work = { s.work with shift := b } ∧
        Reaches (s.atPoint cmd ([.pull] ++ rest)) (v.atPoint cmd ([.countSent] ++ rest)) :=
      ⟨_, hpulled.effects htx, by rw [effects_txByte, hwork], hpull.trans (reaches_straight htx hpulled.host cmd _)⟩
    have hcount : (effect .countSent v).work = { s.work with shift := b, n := s.work.n + 1 } := by
      simp only [effect, hvwork]
    exact .inr ⟨effect .countSent v, ⟨hv.host, hv.limit, by rw [hcount]; exact hs.plan⟩, by rw [hcount], by rw [hcount],
      hsend.trans (reaches_line (l := .countSent) hv.host cmd rest rfl)⟩

/-- PROGRAM's byte loop ends whatever the source answers: N grows to CHUNK, or EXH is set (R165). -/
theorem ends_dataLoop {p : Plan} {rest : List Line} (h : PointEnds p rest) {s : State} (hs : Limited p s) (cmd : Word) :
    Ends (s.atPoint cmd (dataLoop s ++ rest)) := by
  induction hk : s.work.chunk.toNat - s.work.n.toNat using Nat.strong_induction_on generalizing s with
  | _ k ih =>
    cases hm : moreData s with
    | false =>
      rw [dataLoop, hm]
      exact h s cmd hs
    | true =>
      rcases reaches_dataLoop_pass hs hm cmd rest with ⟨u, hu, r⟩ | ⟨u, hu, hn, hchunk, r⟩
      · exact .of_reaches r (h u cmd hu)
      · refine .of_reaches r (ih _ ?_ hu rfl)
        rw [moreData, Bool.and_eq_true, decide_eq_true_eq, BitVec.lt_def] at hm
        have hlt := hm.1
        have hc := s.work.chunk.isLt
        rw [hn, hchunk, BitVec.toNat_add, show (1 : BitVec 9).toNat = 1 from rfl]
        omega

theorem PointEnds.beginData {p : Plan} {rest : List Line} (h : PointEnds p rest) : PointEnds p (.beginData :: rest) :=
  fun s cmd hs => .of_reaches (reaches_line (l := .beginData) hs.host cmd rest rfl)
    (ends_dataLoop h (s := effect .beginData s) ⟨hs.host, hs.limit, hs.plan⟩ cmd)

theorem PointEnds.pp {p : Plan} {rest : List Line} (h : PointEnds p rest) (a : WireAddr) :
    PointEnds p (.wire (.pp a) :: rest) := by
  intro s cmd hs
  have hdata := (h.straight (deassertSelect_straight s.timing)).beginData
  exact .of_reaches (reaches_header (.pp a) hs.host cmd rest) (hdata _ cmd ⟨hs.host, hs.limit, hs.plan⟩)

/-! ### The busy-wait -/

/-- BusyWaitLoop ends whatever the Device answers: READY, or POLLS grows to POLL_LIMIT (R162). -/
theorem PointEnds.pollLoop {p : Plan} {rest : List Line} (h : PointEnds p rest) (count : Bool) :
    PointEnds p (.wire .rdsr :: .polled count :: rest) := by
  intro s cmd hs
  induction hk : s.pollLimit.toNat - s.work.polls.toNat using Nat.strong_induction_on generalizing s with
  | _ k ih =>
    refine .of_reaches (reaches_rdsr hs.host cmd _) ?_
    have hread : Limited p (afterStatusRead s) := ⟨hs.host, hs.limit, hs.plan⟩
    have hcounted : Limited p (afterPolled count (afterStatusRead s)) := ⟨hs.host, hs.limit, hs.plan⟩
    cases hw : wip (afterStatusRead s) with
    | false => exact .of_reaches (reaches_polled_ready count hread.host cmd rest hw) (h _ cmd hcounted)
    | true =>
      cases hl : pollLimitReached (afterPolled count (afterStatusRead s)) with
      | true => exact .of_complete (reaches_polled_timeout count hread.host cmd rest hw hl)
      | false =>
        refine .of_reaches (reaches_polled_again count hread.host cmd rest hw hl) (ih _ ?_ _ hcounted rfl)
        have hpolls : (countUp s.work.polls).toNat = min (s.work.polls.toNat + 1) (2 ^ 32 - 1) := by
          rw [countUp_eq_saturated, saturated_toNat]
        have hlt : (countUp s.work.polls).toNat < s.pollLimit.toNat := by
          rw [pollLimitReached_afterPolled, Bool.and_eq_false_iff] at hl
          have hle := hl.resolve_left (by rw [bne_iff_ne.mpr hread.limit]; exact nofun)
          rw [decide_eq_false_iff_not, BitVec.le_def] at hle
          exact Nat.not_le.mp hle
        have hfit := s.pollLimit.isLt
        show s.pollLimit.toNat - (countUp s.work.polls).toNat < k
        omega

theorem PointEnds.busyWait {p : Plan} {rest : List Line} (h : PointEnds p rest) (count : Bool) :
    PointEnds p (busyWaitLoopLines count ++ rest) :=
  (h.pollLoop count).straight (ls := [.beginPoll]) rfl

/-! ### PROGRAM's and EraseRange's loops -/

/-- REMAIN falls with every chunk (R165). -/
theorem ends_chunkLoop {s : State} (hs : Limited s.work.plan s) (hc : s.work.atChunk) (cmd : Word) :
    Ends (s.atPoint cmd (chunkLoop s ++ [])) := by
  induction hk : s.work.remain.toNat using Nat.strong_induction_on generalizing s cmd with
  | _ k ih =>
    by_cases h0 : s.work.remain = 0
    · rw [chunkLoop_done h0]
      exact pointEnds_nil _ s cmd hs
    · have hlast : PointEnds s.work.plan [.nextChunk] := by
        intro u cmd' hu
        cases hexh : u.work.exh with
        | true => exact .of_complete (reaches_raise (l := .nextChunk) hu.host cmd' [] (if_pos hexh))
        | false =>
          refine .of_reaches (reaches_line (l := .nextChunk) hu.host cmd' [] (if_neg (by simp [hexh])))
            (ih _ ?_ (hu.effect .nextChunk) (Work.enterChunk_atChunk _) cmd' rfl)
          have hplan := hu.plan
          simp only [Work.plan, Plan.mk.injEq] at hplan
          obtain ⟨-, -, hremain, hchunk⟩ := hplan
          have hpos := (ne_zero_iff_toNat_pos _).mp h0
          have hsize : (s.work.chunk.setWidth 29).toNat = min s.work.remain.toNat 256 := by
            rw [BitVec.toNat_setWidth, hc h0, chunkOf_toNat]
            omega
          show (Work.enterChunk _).remain.toNat < k
          rw [Work.enterChunk_remain]
          show (u.work.remain - u.work.chunk.setWidth 29).toNat < k
          rw [hremain, hchunk, BitVec.toNat_sub, hsize]
          omega
      rw [chunkLoop_more h0]
      exact ((hlast.busyWait false).pp _).plainFrame (fun _ => rfl) s cmd hs

/-- ADDR grows to END with every sector (R170). -/
theorem ends_sectorLoop {s : State} (hs : Limited s.work.plan s) (hfit : s.work.endAddr.toNat + 4096 ≤ 2 ^ 33)
    (cmd : Word) : Ends (s.atPoint cmd (sectorLoop s ++ [])) := by
  induction hk : s.work.endAddr.toNat - s.work.addr.toNat using Nat.strong_induction_on generalizing s cmd with
  | _ k ih =>
    by_cases hmore : s.work.addr.toNat < s.work.endAddr.toNat
    · have hlast : PointEnds s.work.plan [.nextSector] := by
        intro u cmd' hu
        have hplan := hu.plan
        simp only [Work.plan, Plan.mk.injEq] at hplan
        obtain ⟨haddr, hend, -, -⟩ := hplan
        have hend' : (effect .nextSector u).work.endAddr = s.work.endAddr := by
          simp only [effect, hend]
        have haddr' : (effect .nextSector u).work.addr = s.work.addr + BitVec.ofNat 33 4096 := by
          simp only [effect, haddr, Config.sectorSize]
        refine .of_reaches (reaches_line (l := .nextSector) hu.host cmd' [] rfl)
          (ih _ ?_ (hu.effect .nextSector) (by rw [hend']; exact hfit) cmd' rfl)
        rw [hend', haddr', BitVec.toNat_add, BitVec.toNat_ofNat]
        omega
      rw [sectorLoop_more hmore]
      exact (((hlast.busyWait false).straight (ls := [.countSector]) rfl).plainFrame (f := .se _)
        (fun _ => rfl)).plainFrame (fun _ => rfl) s cmd hs
    · rw [sectorLoop_done (Nat.not_lt.mp hmore)]
      exact pointEnds_nil _ s cmd hs

theorem pointEnds_beginProgram (p : Plan) : PointEnds p [.beginProgram] :=
  fun _ cmd hs => .of_reaches (reaches_line (l := .beginProgram) hs.host cmd [] rfl)
    (ends_chunkLoop (hs.effect .beginProgram) (Work.enterChunk_atChunk _) cmd)

theorem pointEnds_beginErase (p : Plan) : PointEnds p [.beginErase] := by
  intro s cmd hs
  refine .of_reaches (reaches_line (l := .beginErase) hs.host cmd [] rfl)
    (ends_sectorLoop (hs.effect .beginErase) ?_ cmd)
  show (Work.eraseStart s).endAddr.toNat + 4096 ≤ 2 ^ 33
  have ho := s.offset.isLt
  have hb := s.byteCount.isLt
  rw [eraseStart_endAddr_toNat]
  omega

/-! ### The commands -/

theorem PointEnds.checked {p : Plan} {lines : List Line} (h : PointEnds p lines) (e : Option Result) :
    PointEnds p (checked e lines) := by
  cases e with
  | none => exact h
  | some c => exact pointEnds_raise p c []

theorem pointEnds_straight (p : Plan) {ls : List Line} (hl : ls.all Line.straight = true) : PointEnds p ls :=
  List.append_nil ls ▸ (pointEnds_nil p).straight hl

theorem pointEnds_rawChecked (p : Plan) {ls : List Line} (hl : ls.all Line.straight = true) (s : State) :
    PointEnds p (rawChecked s ls) := by
  unfold rawChecked
  split
  · exact pointEnds_straight p hl
  · exact pointEnds_raise p .unsupported []

theorem pointEnds_commandLines (p : Plan) (c : Command) (s : State) : PointEnds p (commandLines c s) := by
  cases c with
  | nop | init | setWp => exact pointEnds_straight p rfl
  | setClock k =>
    simp only [commandLines, setClockLines]
    split
    · exact pointEnds_raise p .badArg []
    · exact pointEnds_straight p rfl
  | csAssert => exact pointEnds_rawChecked p (assertSelect_straight _) s
  | csDeassert => exact pointEnds_rawChecked p (deassertSelect_straight _) s
  | txByte d => exact pointEnds_rawChecked p (txByteLines_straight _ d) s
  | rxByte => exact pointEnds_rawChecked p (rxByteCmd_straight _) s
  | identify => exact (pointEnds_straight p (ls := [.writeChipId]) rfl).rdid.checked _
  | read => exact (((pointEnds_nil p).readData _).straight (ls := [.clearProgress]) rfl).checked _
  | program => exact ((pointEnds_beginProgram p).straight (ls := [.clearProgress]) rfl).checked _
  | erase =>
    refine PointEnds.checked ?_ _
    split
    · exact (((pointEnds_nil p).plainFrame (f := .ce) (fun _ => rfl)).plainFrame (f := .wren) (fun _ => rfl)).straight
        (ls := [.clearProgress]) rfl
    · exact (pointEnds_beginErase p).straight (ls := [.clearProgress]) rfl
  | busyWait => exact (((pointEnds_nil p).busyWait true).straight (ls := [.clearProgress]) rfl).checked _

/-- Settles O42: the lines every command starts with end, whatever the plan. -/
theorem everyCommandEndsUnderAPollLimit : Obligations.EveryCommandEndsUnderAPollLimit := by
  intro c s hr hlim
  obtain ⟨t, r, hb, hq⟩ := pointEnds_commandLines s.work.plan c s { s with busy := true } (encodeCommand c)
    ⟨hr.host_eq, hlim, rfl⟩
  exact ⟨t, runsTo_of_lines hr (exec_command_eq_startLines c s) r, hb, hq⟩

end Sys2Proof.Machine

/-! # What an engine command leaves alone (R178, R255) -/

namespace Sys2Proof.Machine

/-! ### The registers no engine command writes -/

/-- WP_N, the registers other than CHIPID, PROGRESS and STATUS, the opcode parameters, and what the outside does. -/
structure Settings where
  wpN        : Level
  iface      : Iface
  proto      : Proto
  offset     : BitVec 32
  byteCount  : BitVec 29
  clkKhz     : BitVec 16
  timing     : Timing
  rxData     : Byte
  pollLimit  : BitVec 32
  opcodes    : Config.Opcodes
  streamMode : StreamMode
  host       : List HostMove
  reads      : List (Byte × Word)

def State.settings (s : State) : Settings :=
  { wpN := s.pins.wpN, iface := s.iface, proto := s.proto, offset := s.offset, byteCount := s.byteCount,
    clkKhz := s.clkKhz, timing := s.timing, rxData := s.rxData, pollLimit := s.pollLimit, opcodes := s.opcodes,
    streamMode := s.streamMode, host := s.host, reads := s.reads }

theorem eq_of_settings_eq {s t : State} (h : t.settings = s.settings) :
    t = { s with
          pins := { t.pins with wpN := s.pins.wpN }
          busy := t.busy, result := t.result, errSticky := t.errSticky, csActive := t.csActive
          chipId := t.chipId
          progress := t.progress
          seq := t.seq, work := t.work
          device := t.device, source := t.source, sink := t.sink, frames := t.frames, trace := t.trace } := by
  simp only [State.settings, Settings.mk.injEq] at h
  obtain ⟨hwp, hiface, hproto, hoffset, hcount, hclk, htiming, hrx, hlimit, hopcodes, hmode, hhost, hreads⟩ := h
  rw [← hwp, ← hiface, ← hproto, ← hoffset, ← hcount, ← hclk, ← htiming, ← hrx, ← hlimit, ← hopcodes, ← hmode, ← hhost,
    ← hreads]

/-! ### The lines an engine command performs -/

/-- A line of an engine command: none drives WP_N or writes RXDATA or CLKKHZ, and only IDENTIFY's writes CHIPID. -/
def Line.ofEngine (identify : Bool) : Line → Bool
  | .drive p _ => p != .wpN
  | .shiftOut _ _ => true
  | .delay _ => true
  | .shiftIn _ => true
  | .wire _ => true
  | .latch _ => true
  | .writeChipId => identify
  | .writeRxData => false
  | .writeClock _ => false
  | .clearProgress => true
  | .beginRead => true
  | .push => true
  | .countRead => true
  | .beginProgram => true
  | .beginData => true
  | .pull => true
  | .countSent => true
  | .nextChunk => true
  | .beginErase => true
  | .countSector => true
  | .nextSector => true
  | .beginPoll => true
  | .polled _ => true
  | .raise _ => true

theorem effect_settings {id : Bool} {l : Line} (hl : l.ofEngine id = true) (s : State) :
    (effect l s).settings = s.settings := by
  cases l with
  | drive p v =>
    cases p with
    | wpN => cases hl
    | sck | mosi | csN => rfl
  | writeRxData | writeClock => cases hl
  | _ => simp [State.settings, effect, Pins.set]

theorem effect_chipId {l : Line} (hl : l.ofEngine false = true) (s : State) : (effect l s).chipId = s.chipId := by
  cases l with
  | writeChipId => cases hl
  | _ => simp [effect]

theorem delayLines_ofEngine (id : Bool) (n : BitVec 10) : (delayLines n).all (Line.ofEngine id) = true := by
  unfold delayLines
  split <;> rfl

theorem pulse_ofEngine (id : Bool) (t : Timing) : (pulse t).all (Line.ofEngine id) = true := by
  simp [pulse, delayLines_ofEngine, Line.ofEngine]

theorem txByteLines_ofEngine (id : Bool) (t : Timing) (v : Byte) : (txByteLines t v).all (Line.ofEngine id) = true := by
  simp only [txByteLines, bitOrder, List.flatMap_cons, List.flatMap_nil, List.all_append, List.all_cons, List.all_nil,
    pulse_ofEngine, delayLines_ofEngine, Line.ofEngine, Bool.and_self]

theorem rxByteLines_ofEngine (id : Bool) (t : Timing) : (rxByteLines t).all (Line.ofEngine id) = true := by
  simp only [rxByteLines, bitOrder, List.flatMap_cons, List.flatMap_nil, List.all_append, List.all_cons, List.all_nil,
    pulse_ofEngine, delayLines_ofEngine, Line.ofEngine, Bool.and_self]

theorem frameRest_ofEngine (id : Bool) (s : State) (f : Frame) : (frameRest s f).all (Line.ofEngine id) = true := by
  have hbytes : (txBytesLines s.timing (f.header s.opcodes)).all (Line.ofEngine id) = true := by
    simp only [txBytesLines, List.all_flatMap, txByteLines_ofEngine, List.all_eq_true, implies_true]
  have hbody : (frameBody s.timing f).all (Line.ofEngine id) = true := by
    cases f <;> simp only [frameBody, List.all_append, List.all_cons, List.all_nil, rxByteLines_ofEngine, Line.ofEngine,
      Bool.and_self]
  simp only [frameRest, deassertSelect, List.all_append, List.all_cons, delayLines_ofEngine, hbytes, hbody,
    Line.ofEngine, Bool.and_true, Bool.true_and]
  rfl

/-- The lines that the loop tests and branches put in are lines of engine commands. -/
theorem expand_ofEngine (id : Bool) (l : Line) (s : State) : (expand l s).all (Line.ofEngine id) = true := by
  cases l with
  | wire f => exact frameRest_ofEngine id s f
  | beginRead | countRead => cases h : moreToRead s <;> simp [expand, readLoop, h, rxByteLines_ofEngine, Line.ofEngine]
  | beginProgram | nextChunk =>
    cases h : moreChunks s <;> simp [expand, chunkLoop, chunkLines, busyWaitLoopLines, h, Line.ofEngine]
  | beginData | countSent => cases h : moreData s <;> simp [expand, dataLoop, h, Line.ofEngine]
  | pull => cases h : s.work.exh <;> simp [expand, pulledLines, h, txByteLines_ofEngine, Line.ofEngine]
  | beginErase | nextSector =>
    cases h : moreSectors s <;> simp [expand, sectorLoop, sectorLines, busyWaitLoopLines, h, Line.ofEngine]
  | polled count =>
    cases h : wip s <;> cases h' : pollLimitReached s <;> simp [expand, pollLoop, h, h', Line.ofEngine]
  | _ => rfl

theorem checked_ofEngine {id : Bool} {lines : List Line} (h : lines.all (Line.ofEngine id) = true) (e : Option Result) :
    (checked e lines).all (Line.ofEngine id) = true := by
  cases e with
  | none => exact h
  | some c => rfl

/-- The engine commands, IDENTIFY among them (R163 to R172). -/
def engineCommands : List Command := [.identify, .read, .program, .erase, .busyWait]

theorem commandLines_ofEngine {c : Command} (hc : c ∈ engineCommands) (s : State) :
    (commandLines c s).all (Line.ofEngine (c == .identify)) = true := by
  cases c with
  | identify | read | program | busyWait => exact checked_ofEngine rfl _
  | erase =>
    refine checked_ofEngine ?_ _
    split <;> rfl
  | _ => simp [engineCommands] at hc

/-! ### Every state the command reaches -/

/-- A property that every step keeps holds of every state a run reaches. -/
theorem Reaches.preserves {P : State → Prop} (hstep : ∀ s t, P s → step s = .next t → P t) {s t : State}
    (r : Reaches s t) (hs : P s) : P t := by
  obtain ⟨n, hn⟩ := r
  induction n generalizing s with
  | zero =>
    cases hn
    exact hs
  | succ n ih =>
    rw [runFor] at hn
    split at hn
    · rename_i u hu
      exact ih (hstep s u hs hu) hn
    · cases hn
    · cases hn

/-- What holds in every state that the command `c`, started in `s`, reaches. -/
structure EngineRun (c : Command) (s t : State) : Prop where
  settings : t.settings = s.settings
  chipId : c ≠ .identify → t.chipId = s.chipId
  point : ∀ cmd p, t.seq = .running cmd p → p.all (Line.ofEngine (c == .identify)) = true

theorem EngineRun.complete {c : Command} {s t : State} (h : EngineRun c s t) (e : Result) :
    EngineRun c s (complete e t) :=
  ⟨h.settings, h.chipId, nofun⟩

theorem EngineRun.engineTurn {c : Command} {s t u : State} (h : EngineRun c s t) (hu : engineTurn t = .next u) :
    EngineRun c s u := by
  rcases engineTurn_next_point_cases hu with rfl | ⟨cmd, -, rfl⟩ | ⟨l, cmd, rest, hs, rfl⟩
  · exact h
  · exact h.complete .ok
  · cases hr : raises l t with
    | some e =>
      rw [perform_of_raises hr]
      exact h.complete e
    | none =>
      rw [perform_of_not_raises hr]
      have hpoint := h.point cmd _ hs
      rw [List.all_cons, Bool.and_eq_true] at hpoint
      obtain ⟨hl, hrest⟩ := hpoint
      refine ⟨(effect_settings hl t).trans h.settings, fun hne => ?_, fun cmd' p hp => ?_⟩
      · rw [beq_eq_false_iff_ne.mpr hne] at hl
        exact (effect_chipId hl t).trans (h.chipId hne)
      · cases hp
        rw [List.all_append, expand_ofEngine, hrest]
        rfl

/-- Settles O43: an engine command's lines, and the lines its loops put in, write no other register, and the outside
makes no move. -/
theorem engineCommandsWriteNothingElse : Obligations.EngineCommandsWriteNothingElse := by
  intro c s u t hc hr hx r
  have hstart : EngineRun c s u := by
    rw [exec_command_eq_startLines] at hx
    rw [startLines_next hx]
    refine ⟨rfl, fun _ => rfl, fun cmd p hp => ?_⟩
    cases hp
    exact commandLines_ofEngine hc s
  have hrun : EngineRun c s t := by
    refine r.preserves (fun v w hv hstep => ?_) hstart
    have hhost : v.host = [] := (congrArg Settings.host hv.settings).trans hr.host_eq
    rw [step_no_host hhost] at hstep
    exact hv.engineTurn hstep
  have hchip : t.chipId = if c = .identify then t.chipId else s.chipId := by
    split
    · rfl
    · rename_i hne
      exact hrun.chipId hne
  rw [← hchip]
  exact eq_of_settings_eq hrun.settings

end Sys2Proof.Machine

/-! # The host's accesses (R200 to R208) -/

namespace Sys2Proof.Machine

/-! ### The register at an offset (R25, R77) -/

theorem atOffset_offsetOf (r : Reg) : Reg.atOffset r.offsetOf = some r := by
  cases r <;> rfl

theorem offsetOf_of_atOffset {a : Byte} {r : Reg} (h : Reg.atOffset a = some r) : r.offsetOf = a := by
  rw [Reg.atOffset] at h
  simpa using List.find?_some h

theorem atOffset_eq_none_iff : ∀ a : Byte, Reg.atOffset a = none ↔ a.toNat % 4 ≠ 0 ∨ a.toNat > 0x2C := by
  decide

/-- An offset is refused, or it is the offset of a register. -/
theorem offset_cases (a : Byte) : Reg.atOffset a = none ∨ ∃ r : Reg, a = r.offsetOf := by
  cases h : Reg.atOffset a with
  | none => exact .inl rfl
  | some r => exact .inr ⟨r, (offsetOf_of_atOffset h).symm⟩

theorem legalOffset_offsetOf (r : Reg) : legalOffset r.offsetOf = true := by
  cases r <;> rfl

theorem legalOffset_of_atOffset_none {a : Byte} (h : Reg.atOffset a = none) : legalOffset a = false := by
  rcases (atOffset_eq_none_iff a).mp h with h4 | hmax
  · simp [legalOffset, h4]
  · simp [legalOffset, hmax]

/-! ### RD and WR, case by case (R200, R201) -/

theorem exec_rd_reg (r : Reg) (s : State) :
    exec (.rd r.offsetOf) s = .next { s with reads := s.reads ++ [(r.offsetOf, readReg r s)] } := by
  change execRd r.offsetOf s = _
  rw [execRd, atOffset_offsetOf]

theorem exec_rd_badOffset {a : Byte} (h : Reg.atOffset a = none) (s : State) :
    exec (.rd a) s = .refused .badOffset := by
  change execRd a s = _
  rw [execRd, h]

theorem exec_wr_badOffset {a : Byte} (h : Reg.atOffset a = none) (v : Word) (s : State) :
    exec (.wr a v) s = .refused .badOffset := by
  change execWr a v s = _
  rw [execWr, h]

theorem exec_wr_busy {s : State} (hb : s.busy = true) (r : Reg) (v : Word) :
    exec (.wr r.offsetOf v) s = .refused .writeWhileBusy := by
  change execWr r.offsetOf v s = _
  rw [execWr, atOffset_offsetOf]
  exact if_pos hb

theorem exec_wr_config {s : State} (hb : s.busy = false) (v : Word) : exec (.wr 0x08 v) s = .next (writeConfig v s) :=
  if_neg (ne_true_of_eq_false hb)

theorem exec_wr_offset {s : State} (hb : s.busy = false) (v : Word) : exec (.wr 0x0C v) s = .next (writeOffset v s) :=
  if_neg (ne_true_of_eq_false hb)

theorem exec_wr_byteCount {s : State} (hb : s.busy = false) (v : Word) :
    exec (.wr 0x10 v) s = .next (writeByteCount v s) :=
  if_neg (ne_true_of_eq_false hb)

theorem exec_wr_pollLimit {s : State} (hb : s.busy = false) (v : Word) :
    exec (.wr 0x2C v) s = .next (writePollLimit v s) :=
  if_neg (ne_true_of_eq_false hb)

/-- The registers R201 gives no line to store are refused, once BUSY = 0. -/
theorem exec_wr_readOnly {r : Reg} (hr : writableOffset r.offsetOf = false) {s : State} (hb : s.busy = false) (v : Word) :
    exec (.wr r.offsetOf v) s = .refused .readOnlyRegister := by
  change execWr r.offsetOf v s = _
  rw [execWr, atOffset_offsetOf, hb]
  cases r with
  | cmd | config | offset | byteCount | pollLimit => cases hr
  | status | clkKhz | timing | chipId | rxData | pins | progress => rfl

/-- A CMD write in an idle block starts the word it writes, whatever the word (R202). -/
theorem exec_wr_cmd_started {s : State} (hb : s.busy = false) (v : Word) :
    ∃ point, exec (.wr 0x00 v) s = .next (started v point s) := by
  rw [exec_wr_cmd hb, startCommand]
  cases hv : decodeCommand v with
  | illegal => exact ⟨_, startLines_idle hb v _⟩
  | reserved => exact ⟨_, startLines_idle hb v _⟩
  | command c =>
    have hw : v = encodeCommand c := (commandHasExactlyOneWord v c).mp hv
    exact ⟨commandLines c s, by rw [hw]; exact (startDecoded_eq_startLines c s).trans (startLines_idle hb _ _)⟩

/-! ### The masked values (R33, R35) -/

theorem code_ofCode_iface (b : BitVec 2) : (Iface.ofCode b).code = b := by
  revert b
  decide

theorem code_ofCode_proto (b : Bool) : (Proto.ofCode b).code = b := by
  cases b <;> rfl

theorem getLsbD_configMask : ∀ i < 32, (0x00000103 : Word).getLsbD i = (decide (i < 2) || decide (i = 8)) := by
  decide

theorem configWord_writeConfig (v : Word) (s : State) : configWord (writeConfig v s) = v &&& 0x00000103 := by
  refine BitVec.eq_of_getLsbD_eq fun i hi => ?_
  rw [BitVec.getLsbD_and, getLsbD_configMask i hi]
  simp only [configWord, writeConfig, code_ofCode_iface, code_ofCode_proto, BitVec.getLsbD_append, BitVec.getLsbD_ofBool,
    BitVec.getLsbD_extractLsb', BitVec.getLsbD_zero, Nat.zero_add]
  by_cases h2 : i < 2
  · simp [h2]
  · rcases lt_trichotomy i 8 with h8 | rfl | h8
    · have hgap : i - 2 < 6 := by omega
      simp [h2, h8.ne, hgap]
    · simp
    · have habove : i - 2 - 6 ≠ 0 := by omega
      simp [h2, h8.ne', habove]

theorem byteCount_writeByteCount (v : Word) (s : State) :
    readReg .byteCount (writeByteCount v s) = v &&& 0x1FFFFFFF := by
  apply BitVec.eq_of_toNat_eq
  rw [readReg, toNat_zero_append, writeByteCount, BitVec.extractLsb'_toNat, Nat.shiftRight_zero, BitVec.toNat_and]
  exact (Nat.and_two_pow_sub_one_eq_mod v.toNat 29).symm

/-- Settles O6: the offsets that are no register's, then one read for each register. -/
theorem hostReadReturnsTheRegister : Obligations.HostReadReturnsTheRegister := by
  refine ⟨fun a s h => exec_rd_badOffset ((atOffset_eq_none_iff a).mpr h) s, fun s => ?_⟩
  exact ⟨exec_rd_reg .cmd s, exec_rd_reg .status s, exec_rd_reg .config s, exec_rd_reg .offset s,
    exec_rd_reg .byteCount s, exec_rd_reg .clkKhz s, exec_rd_reg .timing s, exec_rd_reg .chipId s,
    exec_rd_reg .rxData s, exec_rd_reg .pins s, exec_rd_reg .progress s, exec_rd_reg .pollLimit s⟩

/-- Settles O8: the refusals in their order, then one write for each register of an idle block. -/
theorem hostWriteStoresOrStartsOrRefuses : Obligations.HostWriteStoresOrStartsOrRefuses := by
  intro a v s
  by_cases hoff : a.toNat % 4 ≠ 0 ∨ a.toNat > 0x2C
  · rw [if_pos hoff]
    exact exec_wr_badOffset ((atOffset_eq_none_iff a).mpr hoff) v s
  rw [if_neg hoff]
  obtain ⟨r, rfl⟩ := (offset_cases a).resolve_left (mt (atOffset_eq_none_iff a).mp hoff)
  by_cases hbusy : s.busy = true
  · rw [if_pos hbusy]
    exact exec_wr_busy hbusy r v
  rw [if_neg hbusy]
  have hb : s.busy = false := Bool.eq_false_of_not_eq_true hbusy
  cases r with
  | cmd => exact exec_wr_cmd_started hb v
  | config => exact ⟨_, _, exec_wr_config hb v, configWord_writeConfig v s⟩
  | offset => exact exec_wr_offset hb v
  | byteCount => exact ⟨_, exec_wr_byteCount hb v, byteCount_writeByteCount v s⟩
  | pollLimit => exact exec_wr_pollLimit hb v
  | status | clkKhz | timing | chipId | rxData | pins | progress => exact exec_wr_readOnly rfl hb v

/-- Settles O9: a write of any register, and a command's start, meet BUSY = 1 first. -/
theorem noWriteWhileACommandRuns : Obligations.NoWriteWhileACommandRuns := by
  intro s hb
  refine ⟨exec_wr_busy hb, fun c => ?_⟩
  rw [exec_command_eq_startLines]
  exact startLines_busy hb _ _

/-- Settles O10: the offset, the width and the read-only register. -/
theorem illegalAccessesAreRefused : Obligations.IllegalAccessesAreRefused := by
  refine ⟨fun a v s h => ?_, fun a s ha => ?_, fun r v s hr hb => ?_⟩
  · have hnone : Reg.atOffset a = none := (atOffset_eq_none_iff a).mpr h.symm
    exact ⟨exec_rd_badOffset hnone s, exec_wr_badOffset hnone v s⟩
  · rw [step_hostDue rfl]
    exact if_neg ha
  · have hro : ∀ r ∈ ([.status, .clkKhz, .timing, .chipId, .rxData, .pins, .progress] : List Reg),
        writableOffset r.offsetOf = false := by decide
    exact exec_wr_readOnly (hro r hr) hb v

/-! ### StartCommand (R202) -/

/-- A started command whose one line is a raise ends in the engine's next step, and STATUS alone tells of it (R222). -/
theorem step_started_raise {s : State} (hs : s.host = []) (w : Word) {r : Result} (hr : r ≠ .ok) :
    step (started w [.raise r] s) = .next { s with result := r, errSticky := true, busy := false, seq := .idle } := by
  have hend : complete r (started w [.raise r] s) =
      { s with result := r, errSticky := true, busy := false, seq := .idle } := by
    simp only [complete, started, stickyAfter, bne_iff_ne.mpr hr, Bool.or_true]
  rw [step_no_host (by exact hs), engineTurn_line (started_seq w _ s), perform_of_raises rfl, hend]

/-- Settles O11: a command's own lines, or the one raise that a word of no command stands for. -/
theorem cmdWriteStartsTheCommand : Obligations.CmdWriteStartsTheCommand := by
  intro s hb
  refine ⟨fun c => ?_, fun w r h => ?_⟩
  · have hx : exec c.instr s = .next (started (encodeCommand c) (commandLines c s) s) :=
      (exec_command_eq_startLines c s).trans (startLines_idle hb _ _)
    exact ⟨commandLines c s, hx, (exec_cmdWrite (Laws.Codec.decodeCommand_encodeCommand c) s).trans hx⟩
  · obtain ⟨hx, hr⟩ : startCommand w s = startLines w [.raise r] s ∧ r ≠ .ok := by
      rcases h with ⟨hw, rfl⟩ | ⟨hw, rfl⟩ <;> exact ⟨by rw [startCommand, hw], nofun⟩
    exact ⟨[.raise r], by rw [exec_wr_cmd hb, hx]; exact startLines_idle hb w _, fun hs => step_started_raise hs w hr⟩

/-! ### What the host has read (R206)

No line of the engine reads the host's history, and none writes it. -/

/-- The state with another history of the host's reads. -/
def State.withReads (rs : List (Byte × Word)) (s : State) : State := { s with reads := rs }

theorem effect_withReads (l : Line) (rs : List (Byte × Word)) (s : State) :
    effect l (s.withReads rs) = (effect l s).withReads rs := by
  cases l <;> rfl

theorem expand_withReads (l : Line) (rs : List (Byte × Word)) (s : State) : expand l (s.withReads rs) = expand l s := by
  cases l <;> rfl

theorem raises_withReads (l : Line) (rs : List (Byte × Word)) (s : State) : raises l (s.withReads rs) = raises l s := by
  cases l <;> rfl

theorem perform_withReads (l : Line) (cmd : Word) (rest : List Line) (rs : List (Byte × Word)) (s : State) :
    perform l cmd rest (s.withReads rs) = (perform l cmd rest s).withReads rs := by
  have hraises : raises l (s.withReads rs) = raises l s := raises_withReads l rs s
  cases h : raises l s with
  | some c =>
    rw [perform_of_raises h, perform_of_raises (hraises.trans h)]
    rfl
  | none =>
    rw [perform_of_not_raises h, perform_of_not_raises (hraises.trans h), effect_withReads, expand_withReads]
    rfl

theorem engineTurn_withReads {s u : State} (h : engineTurn s = .next u) (rs : List (Byte × Word)) :
    engineTurn (s.withReads rs) = .next (u.withReads rs) := by
  cases hs : s.seq with
  | idle =>
    rw [engineTurn_idle hs] at h
    cases h
    exact engineTurn_idle hs
  | running cmd point =>
    cases point with
    | nil =>
      rw [engineTurn_finish hs] at h
      cases h
      exact engineTurn_finish hs
    | cons l rest =>
      rw [engineTurn_line hs] at h
      cases h
      rw [engineTurn_line (by exact hs), perform_withReads]

/-- Settles O12: the read adds to the host's history, which the engine's step neither reads nor writes. -/
theorem hostReadsDisturbNothing : Obligations.HostReadsDisturbNothing :=
  fun r s => ⟨_, exec_rd_reg r s, rfl, fun _ hu => engineTurn_withReads hu _⟩

/-! ### The duties of the outside (R208) -/

/-- The outcome is a next state, and no refusal. -/
def Answers (o : Out) : Prop := ∃ t, o = .next t

theorem answers_next (t : State) : Answers (.next t) := ⟨t, rfl⟩

theorem not_answers_refused (r : Refusal) : ¬ Answers (.refused r) := by
  rintro ⟨t, h⟩
  cases h

theorem engineTurn_answers (s : State) : Answers (engineTurn s) := by
  cases hs : s.seq with
  | idle => exact ⟨_, engineTurn_idle hs⟩
  | running cmd point =>
    cases point with
    | nil => exact ⟨_, engineTurn_finish hs⟩
    | cons l rest => exact ⟨_, engineTurn_line hs⟩

theorem exec_rd_answers_iff (a : Byte) (s : State) : Answers (exec (.rd a) s) ↔ legalOffset a = true := by
  rcases offset_cases a with hnone | ⟨r, rfl⟩
  · rw [exec_rd_badOffset hnone, legalOffset_of_atOffset_none hnone]
    exact iff_of_false (not_answers_refused _) Bool.false_ne_true
  · rw [exec_rd_reg]
    exact iff_of_true (answers_next _) (legalOffset_offsetOf r)

theorem exec_wr_answers_of_writable {r : Reg} (hr : writableOffset r.offsetOf = true) {s : State} (hb : s.busy = false)
    (v : Word) : Answers (exec (.wr r.offsetOf v) s) := by
  cases r with
  | cmd =>
    obtain ⟨point, h⟩ := exec_wr_cmd_started hb v
    exact ⟨_, h⟩
  | config => exact ⟨_, exec_wr_config hb v⟩
  | offset => exact ⟨_, exec_wr_offset hb v⟩
  | byteCount => exact ⟨_, exec_wr_byteCount hb v⟩
  | pollLimit => exact ⟨_, exec_wr_pollLimit hb v⟩
  | status | clkKhz | timing | chipId | rxData | pins | progress => cases hr

theorem exec_wr_answers_iff (a : Byte) (v : Word) (s : State) :
    Answers (exec (.wr a v) s) ↔ (legalOffset a && writableOffset a && !s.busy) = true := by
  rcases offset_cases a with hnone | ⟨r, rfl⟩
  · rw [exec_wr_badOffset hnone, legalOffset_of_atOffset_none hnone]
    exact iff_of_false (not_answers_refused _) Bool.false_ne_true
  rw [legalOffset_offsetOf, Bool.true_and]
  cases hb : s.busy with
  | true =>
    rw [exec_wr_busy hb, Bool.not_true, Bool.and_false]
    exact iff_of_false (not_answers_refused _) Bool.false_ne_true
  | false =>
    rw [Bool.not_false, Bool.and_true]
    cases hr : writableOffset r.offsetOf with
    | true => exact iff_of_true (exec_wr_answers_of_writable hr hb v) rfl
    | false =>
      rw [exec_wr_readOnly hr hb]
      exact iff_of_false (not_answers_refused _) Bool.false_ne_true

theorem accessTurn_answers_iff (a : HostAccess) (s : State) : Answers (accessTurn a s) ↔ accessLegal a s = true := by
  unfold accessTurn accessLegal decodeAccess
  by_cases hsize : a.size = 4
  · rw [if_pos hsize, hsize]
    cases hrw : a.descriptor.getLsbD 8 with
    | true => exact exec_wr_answers_iff _ a.data s
    | false => exact exec_rd_answers_iff _ s
  · rw [if_neg hsize, beq_false_of_ne hsize]
    exact iff_of_false (not_answers_refused _) Bool.false_ne_true

theorem step_streamMode {m : StreamMode} {s : State} {q : List HostMove}
    (h : s.host = { wait := 0, act := .streamMode m } :: q) :
    step s = if s.busy then .refused .streamModeWhileBusy else .next { s with host := q, streamMode := m } :=
  step_hostDue h

/-- Settles O59: the due change, on BUSY. -/
theorem streamModeChangesOnlyWhileIdle : Obligations.StreamModeChangesOnlyWhileIdle :=
  fun _ _ _ h => ⟨fun hb => (step_streamMode h).trans (if_neg (ne_true_of_eq_false hb)),
    fun hb => (step_streamMode h).trans (if_pos hb)⟩

/-- Settles O13: the agent whose turn it is; of the outside's moves only an access and a change of the mode can be
refused. -/
theorem stepAnswersExactlyWhenDutiesAreKept : Obligations.StepAnswersExactlyWhenDutiesAreKept := by
  intro s
  change Answers (step s) ↔ _
  unfold dutyKept
  cases hq : s.host with
  | nil =>
    rw [step_no_host hq]
    exact iff_of_true (engineTurn_answers s) rfl
  | cons m q =>
    obtain ⟨wait, act⟩ := m
    cases wait with
    | succ k =>
      rw [step_engineNext hq]
      exact iff_of_true (engineTurn_answers _) (by cases act <;> rfl)
    | zero =>
      cases act with
      | access a =>
        rw [step_hostDue hq]
        exact accessTurn_answers_iff a { s with host := q }
      | waitIdle gap =>
        rw [step_waitIdle hq]
        exact iff_of_true (answers_next _) rfl
      | streamMode m =>
        rw [step_streamMode hq]
        cases hb : s.busy with
        | true => exact iff_of_false (not_answers_refused _) Bool.false_ne_true
        | false => exact iff_of_true (answers_next _) rfl
      | reset =>
        rw [step_hostDue hq]
        exact iff_of_true (answers_next _) rfl

end Sys2Proof.Machine

/-! # A command's checks and its end (R160, R222 to R225, R231) -/

namespace Sys2Proof.Machine

/-! ### UNSUPPORTED, BAD_ARG, WRONG_STREAM_MODE -/

/-- Settles O29: the raw bus commands' check of IFACE, and EngineCheck's first test. -/
theorem unsupportedConfigurationTouchesNothing : Obligations.UnsupportedConfigurationTouchesNothing := by
  intro s hr
  refine ⟨fun i hi hns => ?_, fun d hns => ?_, fun i hi hns => ?_⟩
  · fin_cases hi
    · exact runsTo_failed_of_lines (c := .csAssert) hr nofun (rawChecked_unsupported hns _)
    · exact runsTo_failed_of_lines (c := .csDeassert) hr nofun (rawChecked_unsupported hns _)
    · exact runsTo_failed_of_lines (c := .rxByte) hr nofun (rawChecked_unsupported hns _)
  · exact runsTo_failed_of_lines (c := .txByte d) hr nofun (rawChecked_unsupported hns _)
  · fin_cases hi
    · exact runsTo_checkFailed (c := .identify) hr rfl (engineCheck_unsupported hns _ _) nofun
    · exact runsTo_checkFailed (c := .read) hr rfl (engineCheck_unsupported hns _ _) nofun
    · exact runsTo_checkFailed (c := .program) hr rfl (engineCheck_unsupported hns _ _) nofun
    · exact runsTo_checkFailed (c := .erase) hr rfl (engineCheck_unsupported hns _ _) nofun
    · exact runsTo_checkFailed (c := .busyWait) hr rfl (engineCheck_unsupported hns _ _) nofun

/-- Settles O30: a word that decodes to no command, SET_CLOCK's test of K, and EngineCheck's test of BYTECOUNT. -/
theorem badArgTouchesNothing : Obligations.BadArgTouchesNothing := by
  intro s hr
  refine ⟨fun w hw => runsTo_reserved hw hr, fun k hk => ?_, fun i hi hcfg hn => ?_⟩
  · exact runsTo_failed_of_lines (c := .setClock k) hr nofun (if_pos hk)
  · fin_cases hi
    · exact runsTo_checkFailed (c := .read) hr rfl (engineCheck_badArg hcfg hn _) nofun
    · exact runsTo_checkFailed (c := .program) hr rfl (engineCheck_badArg hcfg hn _) nofun
    · exact runsTo_checkFailed (c := .erase) hr rfl (engineCheck_badArg hcfg hn _) nofun

/-- Settles O31: EngineCheck's last test, the two before it passed. -/
theorem wrongStreamModeTouchesNothing : Obligations.WrongStreamModeTouchesNothing := by
  intro s hr hcfg hn
  exact ⟨fun hm => runsTo_checkFailed (c := .program) hr rfl ((engineCheck_inRange hcfg hn _).trans (if_neg hm)) nofun,
    fun hm => runsTo_checkFailed (c := .read) hr rfl ((engineCheck_inRange hcfg hn _).trans (if_neg hm)) nofun⟩

/-! ### The completion (R222) -/

/-- An engine step takes a running command to IDLE by its completion alone. -/
theorem engineTurn_to_idle {s t : State} (h : engineTurn s = .next t) (hs : s.seq ≠ .idle) (ht : t.seq = .idle) :
    ∃ c, t = complete c s := by
  rcases engineTurn_next_point_cases h with rfl | ⟨cmd, -, rfl⟩ | ⟨l, cmd, rest, -, rfl⟩
  · exact absurd ht hs
  · exact ⟨_, rfl⟩
  · cases hr : raises l s with
    | some c => exact ⟨c, perform_of_raises hr cmd rest⟩
    | none =>
      rw [perform_of_not_raises hr] at ht
      cases ht

/-- The outside starts commands and resets the block, but ends no command (R251). -/
theorem hostTurn_keeps_running {act : HostAct} (hact : act ≠ .reset) {s t : State} (h : hostTurn act s = .next t)
    (hs : s.seq ≠ .idle) : t.seq ≠ .idle := by
  rcases hostTurn_next_cases h with ⟨a, v, hw⟩ | ⟨hreset, -⟩ | he
  · rcases (execWr_next_idle_cases hw).2 with hc | he
    · obtain ⟨w, point, rfl⟩ := startCommand_next hc
      exact nofun
    · exact (congrArg Guarded.seq he).trans_ne hs
  · exact absurd hreset hact
  · exact (congrArg Guarded.seq he).trans_ne hs

/-- Settles O51: the step is the engine's, and the engine reaches IDLE by a completion alone. -/
theorem completionWritesStatusOnly : Obligations.CompletionWritesStatusOnly := by
  intro s t h hr hs ht
  rcases step_next_cases h with ⟨q, he⟩ | ⟨m, q, hq, hw, hh⟩
  · obtain ⟨c, rfl⟩ := engineTurn_to_idle he hs ht
    rfl
  · exact absurd ht (hostTurn_keeps_running (act_ne_reset_of_not_resetDue hr hq hw) hh hs)

end Sys2Proof.Machine

/-! # A busy-wait that never ends (R229)

The invariant of the run is not one point but that a point of the loop lies ahead: a command that had ended would stay
ended. -/

namespace Sys2Proof.Machine

/-! ### Runs without an end -/

/-- What holds now and after every step from a state where it holds, holds for ever. -/
theorem Forever.of_step {p : State → Prop} (hstep : ∀ s, p s → ∃ t, step s = .next t ∧ p t) {s : State} (hs : p s) :
    Forever p s := by
  intro n
  induction n generalizing s with
  | zero => exact ⟨s, rfl, hs⟩
  | succ n ih =>
    obtain ⟨t, h, ht⟩ := hstep s hs
    rw [runFor_succ h]
    exact ih ht

theorem Forever.mono {p q : State → Prop} (hpq : ∀ s, p s → q s) {s : State} (h : Forever p s) : Forever q s := by
  intro n
  obtain ⟨t, hn, ht⟩ := h n
  exact ⟨t, hn, hpq t ht⟩

theorem Reaches.eq_or_step {s u : State} (r : Reaches s u) : s = u ∨ ∃ t, step s = .next t ∧ Reaches t u := by
  obtain ⟨n, hn⟩ := r
  cases n with
  | zero => exact .inl (Host.Outcome.next.inj hn)
  | succ n =>
    rw [runFor] at hn
    split at hn
    · rename_i t h
      exact .inr ⟨t, h, n, hn⟩
    · cases hn
    · cases hn

/-- With no move of the outside to come, a block whose sequencer is idle stays as it is (R252). -/
theorem Reaches.eq_of_idle {s u : State} (r : Reaches s u) (hs : s.host = []) (hidle : s.seq = .idle) : u = s := by
  have hstay : Forever (fun t => t = s) s :=
    Forever.of_step (by rintro t rfl; exact ⟨t, (step_no_host hs).trans (engineTurn_idle hidle), rfl⟩) rfl
  obtain ⟨n, hn⟩ := r
  obtain ⟨t, ht, rfl⟩ := hstay n
  exact Host.Outcome.next.inj (hn.symm.trans ht)

theorem engineTurn_host {s t : State} (h : engineTurn s = .next t) : t.host = s.host := by
  rcases engineTurn_next_cases h with rfl | rfl | ⟨l, cmd, rest, rfl⟩
  · rfl
  · rfl
  · cases hr : raises l s with
    | some c => rw [perform_of_raises hr, complete_host]
    | none => rw [perform_of_not_raises hr, atPoint_host, effect_host]

/-! ### The status loop of a stuck Device -/

theorem Device.alwaysBusy.nextByte {d : Device} (h : d.alwaysBusy) : (byteOfBits (d.nextBits 8).1).getLsbD 0 = true :=
  h 1 _ List.mem_cons_self

theorem Device.alwaysBusy.afterByte {d : Device} (h : d.alwaysBusy) : (d.nextBits 8).2.alwaysBusy :=
  fun n bits hb => h (n + 1) bits (List.mem_cons_of_mem _ hb)

/-- At the head of BusyWaitLoop, with POLL_LIMIT = 0, a Device that never shows WIP = 0, and no move of the outside. -/
structure StuckPoll (s : State) : Prop where
  host : s.host = []
  limit : s.pollLimit = 0
  device : s.device.alwaysBusy
  point : ∃ cmd count rest, s.seq = .running cmd (.wire .rdsr :: .polled count :: rest)

theorem StuckPoll.not_idle {s : State} (h : StuckPoll s) : s.seq ≠ .idle := by
  obtain ⟨cmd, count, rest, hseq⟩ := h.point
  rw [hseq]
  exact nofun

/-- A status read, its count and the loop tests lead to the head of the loop again (R162). -/
theorem StuckPoll.pass {s : State} (h : StuckPoll s) : ∃ t u, step s = .next t ∧ Reaches t u ∧ StuckPoll u := by
  obtain ⟨hhost, hlimit, hdevice, cmd, count, rest, hseq⟩ := h
  have hs : s.atPoint cmd (.wire .rdsr :: .polled count :: rest) = s := by rw [State.atPoint, ← hseq]
  have hread := reaches_rdsr hhost cmd (.polled count :: rest)
  have hlim : pollLimitReached (afterPolled count (afterStatusRead s)) = false := by
    rw [pollLimitReached_afterPolled, show (afterStatusRead s).pollLimit = 0 from hlimit]
    rfl
  have hagain := reaches_polled_again count (s := afterStatusRead s) hhost cmd rest hdevice.nextByte hlim
  rw [hs] at hread
  rcases hread.eq_or_step with heq | ⟨t, hstep, htail⟩
  · have hpoint := hseq.symm.trans (congrArg State.seq heq)
    simp at hpoint
  · exact ⟨t, _, hstep, htail.trans hagain, hhost, hlimit, hdevice.afterByte, cmd, count, rest, rfl⟩

/-! ### Inside the loop, at any line -/

/-- The command that was running in `s` runs on, with RESULT and ERR_STICKY as they were, and will come to the head of the
loop. -/
structure Hung (s t : State) : Prop where
  busy : t.busy = true
  result : t.result = s.result
  sticky : t.errSticky = s.errSticky
  host : t.host = []
  ahead : ∃ u, Reaches t u ∧ StuckPoll u

theorem Hung.not_idle {s t : State} (h : Hung s t) : t.seq ≠ .idle := by
  obtain ⟨u, r, hu⟩ := h.ahead
  intro hidle
  exact hu.not_idle (r.eq_of_idle h.host hidle ▸ hidle)

/-- The head of the loop lies a step or more ahead. -/
theorem Hung.next {s t : State} (h : Hung s t) : ∃ v u, step t = .next v ∧ Reaches v u ∧ StuckPoll u := by
  obtain ⟨u, r, hu⟩ := h.ahead
  rcases r.eq_or_step with rfl | ⟨v, hstep, htail⟩
  · exact hu.pass
  · exact ⟨v, u, hstep, htail, hu⟩

/-- The step keeps the status, since a completed command would not come to the head of the loop. -/
theorem Hung.step_keeps {s t : State} (h : Hung s t) : ∃ v, step t = .next v ∧ Hung s v := by
  obtain ⟨v, u, hstep, r, hu⟩ := h.next
  have hturn : engineTurn t = .next v := (step_no_host h.host).symm.trans hstep
  have hhost : v.host = [] := (engineTurn_host hturn).trans h.host
  rcases engineTurn_keeps_status_or_completes hturn with hk | ⟨-, c, rfl⟩
  · exact ⟨v, hstep, hk.busy h.busy, hk.result.trans h.result, hk.sticky.trans h.sticky, hhost, u, r, hu⟩
  · exact absurd (r.eq_of_idle hhost rfl ▸ rfl) hu.not_idle

theorem Hung.forever {s t : State} (h : Hung s t) :
    Forever (fun v => v.busy = true ∧ v.result = s.result ∧ v.errSticky = s.errSticky) t :=
  (Forever.of_step (fun _ hv => hv.step_keeps) h).mono fun _ hv => ⟨hv.busy, hv.result, hv.sticky⟩

/-- BUSY_WAIT from its start to the head of its loop. -/
theorem reaches_busyWait_head {s : State} (hs : s.host = []) (cmd : Word) :
    Reaches (started cmd (.clearProgress :: (busyWaitLoopLines true ++ [])) s)
      (State.atPoint cmd [.wire .rdsr, .polled true] { s with busy := true, progress := 0, work.polls := 0 }) :=
  reaches_straight (ls := [.clearProgress, .beginPoll]) rfl (s := { s with busy := true }) hs cmd
    [.wire .rdsr, .polled true]

/-- Settles O41: BUSY_WAIT comes to the head of the loop, and a loop point is its head. -/
theorem stuckDeviceHangsTheEngine : Obligations.StuckDeviceHangsTheEngine := by
  intro s hs hlimit hdevice
  refine ⟨fun hb _ hcfg => ?_, fun cmd count rest hb hseq => ?_⟩
  · refine ⟨_, (exec_command_eq_startLines .busyWait s).trans (startLines_idle hb _ _), Hung.forever ?_⟩
    rw [busyWaitLines_supported hcfg]
    exact ⟨rfl, rfl, rfl, hs, _, reaches_busyWait_head hs _, hs, hlimit, hdevice, _, true, [], rfl⟩
  · exact Hung.forever ⟨hb, rfl, rfl, hs, s, .refl s, hs, hlimit, hdevice, cmd, count, rest, hseq⟩

end Sys2Proof.Machine

/-! # A busy-wait that ends with TIMEOUT (R228)

In PROGRAM and in ranged ERASE the chunks and sectors before it are done, so the lemmas on those loops lead to the last
chunk or sector. -/

namespace Sys2Proof.Machine

/-- The status reads of one busy-wait all show WIP = 1 and come to POLL_LIMIT, which is set (R162). -/
structure RunsOut (stuck : List Byte) (s : State) : Prop where
  limit : s.pollLimit ≠ 0
  count : stuck.length = s.pollLimit.toNat
  busy : ∀ b ∈ stuck, b.getLsbD 0 = true

/-- A multiple of the page or sector size, one page or sector on. -/
theorem add_ofNat_add_ofNat_mul {n : Nat} (a : BitVec n) (size k : Nat) :
    a + BitVec.ofNat n size + BitVec.ofNat n (size * k) = a + BitVec.ofNat n (size * (k + 1)) := by
  rw [BitVec.add_assoc, ← BitVec.ofNat_add, Nat.mul_succ, Nat.add_comm]

/-- Whether or not a frame has closed the bus, WP_N is as it was. -/
theorem wpN_ite_busClosed (c : Prop) [Decidable c] (mosi : Level) (s : State) :
    (if c then s.pins else busClosed mosi s).wpN = s.pins.wpN := by
  split <;> rfl

theorem concat_ne_nil (polls : List (List Byte)) (last : List Byte) : polls ++ [last] ≠ [] :=
  List.append_ne_nil_of_right_ne_nil polls (List.cons_ne_nil last [])

/-! ### Ranged ERASE -/

/-- A sector whose busy-wait ends with TIMEOUT: the sector is counted, and ADDR does not move on (R170). -/
theorem reaches_sector_timeout {stuck : List Byte} {s : State} (hs : s.host = []) (hout : RunsOut stuck s) (cmd : Word)
    (rest : List Line) {d : Device} (hd : s.device = d.answering stuck) :
    ∃ w, Reaches (s.atPoint cmd (sectorLines s.work.addr ++ rest)) (complete .timeout (afterSector stuck d w s)) := by
  obtain ⟨v, -, hpair⟩ := reaches_sectorPair hs cmd rest
  obtain ⟨w, hwait⟩ := reaches_busyWait_timeout false stuck
    (s := { s with
      pins := busClosed ((lastHeaderByte s.opcodes (.se (wireAddr s.work.addr))).getLsbD 0) s
      csActive := false
      work := v
      progress := countUp s.progress
      frames := s.frames ++ [.wren, .se (wireAddr s.work.addr)]
      trace := s.trace ++ plainFrameEvents s.opcodes s.timing .wren ++
        plainFrameEvents s.opcodes s.timing (.se (wireAddr s.work.addr)) })
    hs cmd (.nextSector :: rest) hd hout.busy hout.limit hout.count
  refine ⟨w, hpair.trans ?_⟩
  simp only [afterSector, sectorEvents, List.append_assoc]
  simp only [afterPolls, List.append_assoc] at hwait
  exact hwait

theorem eraseFrames_concat (a : BitVec 33) (polls : List (List Byte)) (last : List Byte) :
    eraseFrames a (polls ++ [last]) = eraseFrames a polls ++
      ([.wren, .se (wireAddr (a + BitVec.ofNat 33 (4096 * polls.length)))] ++ List.replicate last.length .rdsr) := by
  induction polls generalizing a with
  | nil => simp [eraseFrames]
  | cons p polls ih =>
    simp only [List.cons_append, eraseFrames, ih, Config.sectorSize, add_ofNat_add_ofNat_mul, List.length_cons,
      List.append_assoc]

theorem eraseEvents_concat (o : Config.Opcodes) (t : Timing) (a : BitVec 33) (polls : List (List Byte))
    (last : List Byte) :
    eraseEvents o t a (polls ++ [last]) =
      eraseEvents o t a polls ++ sectorEvents o t (a + BitVec.ofNat 33 (4096 * polls.length)) last := by
  induction polls generalizing a with
  | nil => simp [eraseEvents]
  | cons p polls ih =>
    simp only [List.cons_append, eraseEvents, ih, Config.sectorSize, add_ofNat_add_ofNat_mul, List.length_cons,
      List.append_assoc]

/-- One sector more, behind the sectors that are done. -/
theorem afterSector_afterSectors (polls : List (List Byte)) (last : List Byte) (e d : Device) (v w : Work) (s : State)
    (hv : v.addr = s.work.addr + BitVec.ofNat 33 (4096 * polls.length)) :
    afterSector last d w (afterSectors polls e v s) = afterSectors (polls ++ [last]) d w s := by
  simp only [afterSector, afterSectors, wpN_ite_busClosed, concat_ne_nil, if_false, hv, countUp_eq_saturated,
    saturated_add, Nat.add_assoc, List.length_append, List.length_singleton, eraseFrames_concat, eraseEvents_concat,
    List.append_assoc]

/-- EraseRange's loop through the sectors of `polls` and one sector more, which also starts below END and whose busy-wait
ends with TIMEOUT. -/
theorem reaches_sectors_timeout {polls : List (List Byte)} {stuck : List Byte} {s : State} (hs : s.host = [])
    (hout : RunsOut stuck s) (cmd : Word) (rest : List Line) {d : Device}
    (hmore : s.work.addr.toNat + 4096 * polls.length < s.work.endAddr.toNat)
    (hfit : s.work.endAddr.toNat + 4096 ≤ 2 ^ 33) (hp : ∀ p ∈ polls, EndsReady p ∧ pollsAllowed p.length s)
    (hd : s.device = d.answering (polls.flatten ++ stuck)) :
    ∃ w, Reaches (s.atPoint cmd (sectorLoop s ++ rest))
      (complete .timeout (afterSectors (polls ++ [stuck]) d w s)) := by
  obtain ⟨v, hvaddr, hvend, hdone⟩ := reaches_sectors_ready polls hs cmd rest (d := d.answering stuck) (by omega) hfit hp
    (by rw [← answering_append]; exact hd)
  have hbelow : (afterSectors polls (d.answering stuck) v s).work.addr.toNat <
      (afterSectors polls (d.answering stuck) v s).work.endAddr.toNat := by
    show v.addr.toNat < v.endAddr.toNat
    rw [hvaddr, hvend]
    exact hmore
  obtain ⟨w, hlast⟩ := reaches_sector_timeout (s := afterSectors polls (d.answering stuck) v s) hs
    ⟨hout.limit, hout.count, hout.busy⟩ cmd rest (d := d) rfl
  have hv : v.addr = s.work.addr + BitVec.ofNat 33 (4096 * polls.length) := by
    apply BitVec.eq_of_toNat_eq
    rw [hvaddr, BitVec.toNat_add, BitVec.toNat_ofNat]
    omega
  rw [afterSector_afterSectors _ _ _ _ _ _ _ hv] at hlast
  rw [sectorLoop_more hbelow] at hdone
  exact ⟨w, hdone.trans hlast⟩

/-! ### PROGRAM -/

/-- A chunk whose data the source has and whose busy-wait ends with TIMEOUT (R165). -/
theorem reaches_chunk_timeout {data more stuck : List Byte} {s : State} (hs : s.host = []) (hout : RunsOut stuck s)
    (cmd : Word) (rest : List Line) (hb : s.source.bytes = data ++ more) (hn : data.length = s.work.chunk.toNat)
    {d : Device} (hd : s.device = d.answering stuck) :
    ∃ w, Reaches (s.atPoint cmd (chunkLines s.work.addr ++ rest))
      (complete .timeout (afterChunk data more [] stuck d w s)) := by
  obtain ⟨v, -, -, hpair⟩ := reaches_pair_full data more hs cmd rest hb hn
  obtain ⟨w, hwait⟩ := reaches_busyWait_timeout false stuck
    (s := afterPp (wireAddr s.work.addr) data more v [] (afterPlainFrame .wren s)) hs cmd (.nextChunk :: rest) hd
    hout.busy hout.limit hout.count
  exact ⟨w, afterPolls_eq_afterChunk data more [] stuck d v w s ▸ hpair.trans hwait⟩

/-- The full pages of the data go with the chunks before the last, which has the page after them. -/
theorem programEvents_concat (o : Config.Opcodes) (t : Timing) (a : BitVec 33) (data : List Byte)
    (polls : List (List Byte)) (last : List Byte) :
    programEvents o t a data (polls ++ [last]) =
      programEvents o t a (data.take (256 * polls.length)) polls ++
        chunkEvents o t (a + BitVec.ofNat 33 (256 * polls.length)) ((data.drop (256 * polls.length)).take 256) []
          last := by
  induction polls generalizing a data with
  | nil => simp [programEvents, Config.pageSize]
  | cons p polls ih =>
    have htake : (data.take (256 * (polls.length + 1))).take 256 = data.take 256 := by
      rw [List.take_take, Nat.min_eq_left (by omega)]
    have hdrop : (data.take (256 * (polls.length + 1))).drop 256 = (data.drop 256).take (256 * polls.length) := by
      rw [List.drop_take, Nat.mul_succ, Nat.add_sub_cancel]
    have hlast : (data.drop 256).drop (256 * polls.length) = data.drop (256 * (polls.length + 1)) := by
      rw [List.drop_drop, Nat.mul_succ, Nat.add_comm]
    simp only [List.cons_append, programEvents, ih, Config.pageSize, add_ofNat_add_ofNat_mul, List.length_cons, htake,
      hdrop, hlast, List.append_assoc]

/-- One chunk more, behind the chunks that are done: together they are the chunks of all the data. -/
theorem afterChunk_afterChunks_full (polls : List (List Byte)) (data more last : List Byte) (e d : Device) (v w : Work)
    (s : State) (hlen : data.length ≤ 256 * (polls.length + 1))
    (hv : v.addr = s.work.addr + BitVec.ofNat 33 (256 * polls.length)) :
    afterChunk (data.drop (256 * polls.length)) more [] last d w
        (afterChunks polls (data.take (256 * polls.length)) (data.drop (256 * polls.length) ++ more) e v s) =
      afterChunks (polls ++ [last]) data more d w s := by
  have hsum : (data.take (256 * polls.length)).length + (data.drop (256 * polls.length)).length = data.length := by
    rw [← List.length_append, List.take_append_drop]
  have hpage : (data.drop (256 * polls.length)).take 256 = data.drop (256 * polls.length) :=
    List.take_of_length_le (by rw [List.length_drop]; omega)
  simp only [afterChunk, afterChunks, wpN_ite_busClosed, concat_ne_nil, if_false, hv, saturated_add, Nat.add_assoc,
    hsum, programFrames_concat, programEvents_concat, hpage, List.append_assoc]

/-- PROGRAM's loop through the chunks of `polls` and one chunk more, whose busy-wait ends with TIMEOUT. -/
theorem reaches_chunks_timeout {polls : List (List Byte)} {data more stuck : List Byte} {s : State} (hs : s.host = [])
    (hout : RunsOut stuck s) (cmd : Word) (rest : List Line) {d : Device} (hc : s.work.atChunk)
    (hmore : 256 * polls.length < s.work.remain.toNat)
    (hlen : data.length = min s.work.remain.toNat (256 * (polls.length + 1))) (hb : s.source.bytes = data ++ more)
    (hp : ∀ p ∈ polls, EndsReady p ∧ pollsAllowed p.length s)
    (hd : s.device = d.answering (polls.flatten ++ stuck)) :
    ∃ w, Reaches (s.atPoint cmd (chunkLoop s ++ rest))
      (complete .timeout (afterChunks (polls ++ [stuck]) data more d w s)) := by
  have htake : (data.take (256 * polls.length)).length = 256 * polls.length := by
    rw [List.length_take]
    omega
  have hready : ChunksReady polls (data.take (256 * polls.length)) (data.drop (256 * polls.length) ++ more)
      (d.answering stuck) s :=
    ⟨by rw [← List.append_assoc, List.take_append_drop, hb], by omega, by omega, hc, hp,
      by rw [← answering_append, hd]⟩
  obtain ⟨v, hvrem, hvchunk, hvaddr, hdone⟩ := reaches_chunks_ready hready hs cmd rest
  rw [htake] at hvrem
  have hv0 : v.remain ≠ 0 := (ne_zero_iff_toNat_pos _).mpr (by omega)
  have hsize : (data.drop (256 * polls.length)).length = v.chunk.toNat := by
    rw [hvchunk hv0, chunkOf_toNat, List.length_drop]
    omega
  obtain ⟨w, hlast⟩ := reaches_chunk_timeout (stuck := stuck)
    (s := afterChunks polls (data.take (256 * polls.length)) (data.drop (256 * polls.length) ++ more)
      (d.answering stuck) v s)
    hs ⟨hout.limit, hout.count, hout.busy⟩ cmd rest rfl hsize (d := d) rfl
  rw [afterChunk_afterChunks_full _ _ _ _ _ _ _ _ _ (by omega) (hvaddr hv0)] at hlast
  rw [chunkLoop_more (s := afterChunks _ _ _ _ _ _) hv0] at hdone
  exact ⟨w, hdone.trans hlast⟩

/-! ### The commands -/

/-- BUSY_WAIT: the reads are counted in PROGRESS (R172). -/
theorem busyWait_timeout {s : State} {stuck : List Byte} {d : Device} (hr : Ready s) (hcfg : configSupported s)
    (hout : RunsOut stuck s) (hd : s.device = d.answering stuck) :
    ∃ w, RunsTo .busyWait s
      { afterPolls stuck d w s.pollLimit { s with progress := 0 } with result := .timeout, errSticky := true } := by
  have hclear := reaches_line (s := { s with busy := true }) (l := .clearProgress) hr.host_eq (encodeCommand .busyWait)
    (busyWaitLoopLines true ++ []) rfl
  obtain ⟨w, hwait⟩ := reaches_busyWait_timeout true stuck (s := { s with busy := true, progress := 0 })
    hr.host_eq (encodeCommand .busyWait) [] hd hout.busy hout.limit hout.count
  exact ⟨w, runsTo_raised (c := .busyWait) (e := .timeout) hr (busyWaitLines_supported hcfg) nofun
    (hclear.trans hwait)⟩

/-- Ranged ERASE: the sector in progress is counted with those before it (R170). -/
theorem erase_timeout {s : State} {polls : List (List Byte)} {stuck : List Byte} {d : Device} (hr : Ready s)
    (hcfg : configSupported s) (hout : RunsOut stuck s) (h1 : 1 ≤ s.byteCount.toNat)
    (hn : s.byteCount.toNat ≤ 2 ^ 28)
    (hmore : s.offset.toNat - s.offset.toNat % 4096 + 4096 * polls.length < s.offset.toNat + s.byteCount.toNat)
    (hp : ∀ p ∈ polls, EndsReady p ∧ pollsAllowed p.length s)
    (hd : s.device = d.answering (polls.flatten ++ stuck)) :
    ∃ w, RunsTo .erase s
      { afterSectors (polls ++ [stuck]) d w { s with progress := 0, work := Work.eraseStart s } with
        result := .timeout, errSticky := true } := by
  have ho := s.offset.isLt
  have hstart : (Work.eraseStart s).addr.toNat = s.offset.toNat - s.offset.toNat % 4096 := by
    rw [eraseStart_addr, BitVec.toNat_ofNat]
    omega
  have hend := eraseStart_endAddr_toNat s
  obtain ⟨w, hrun⟩ := reaches_sectors_timeout
    (s := { s with busy := true, progress := 0, work := Work.eraseStart s }) hr.host_eq
    ⟨hout.limit, hout.count, hout.busy⟩ (encodeCommand .erase) [] (by simp only [hstart, hend]; omega)
    (by simp only [hend]; omega) hp hd
  exact ⟨w, runsTo_raised (c := .erase) (e := .timeout) hr (eraseLines_ranged hcfg h1 hn) nofun
    ((reaches_erase_sectorLoop hr.host_eq _).trans hrun)⟩

/-- PROGRAM: the data of the chunk in progress is counted with that of the chunks before it (R165). -/
theorem program_timeout {s : State} {polls : List (List Byte)} {data more stuck : List Byte} {d : Device}
    (hr : Ready s) (hcfg : configSupported s) (hout : RunsOut stuck s) (hm : s.streamMode = .read)
    (hn : s.byteCount.toNat ≤ 2 ^ 28) (hmore : 256 * polls.length < s.byteCount.toNat)
    (hlen : data.length = min s.byteCount.toNat (256 * (polls.length + 1))) (hb : s.source.bytes = data ++ more)
    (hp : ∀ p ∈ polls, EndsReady p ∧ pollsAllowed p.length s)
    (hd : s.device = d.answering (polls.flatten ++ stuck)) :
    ∃ w, RunsTo .program s
      { afterChunks (polls ++ [stuck]) data more d w { s with progress := 0, work := Work.programStart s } with
        result := .timeout, errSticky := true } := by
  have hremain : (Work.programStart s).remain = s.byteCount := Work.enterChunk_remain _
  obtain ⟨w, hrun⟩ := reaches_chunks_timeout
    (s := { s with busy := true, progress := 0, work := Work.programStart s }) hr.host_eq
    ⟨hout.limit, hout.count, hout.busy⟩ (encodeCommand .program) [] (Work.enterChunk_atChunk _)
    (by rw [hremain]; exact hmore) (by rw [hremain]; exact hlen) hb hp hd
  exact ⟨w, runsTo_raised (c := .program) (e := .timeout) hr (programLines_checked hcfg hn hm) nofun
    ((reaches_program_chunkLoop hr.host_eq _).trans hrun)⟩

/-- Settles O39: each of the three commands up to its busy-wait that runs out, and what PROGRESS counts by then. -/
theorem pollLimitEndsABusyWait : Obligations.PollLimitEndsABusyWait := by
  intro s stuck d hr hcfg hlimit hcount hbusy
  have hout : RunsOut stuck s := ⟨hlimit, hcount, hbusy⟩
  refine ⟨busyWait_timeout hr hcfg hout, ?_, ?_⟩
  · intro polls base h1 hn hmore hp hd
    have ho := s.offset.isLt
    obtain ⟨w, hrun⟩ := erase_timeout hr hcfg hout h1 hn hmore hp hd
    have hprogress : saturated ((0 : BitVec 32).toNat + (polls.length + 1)) = BitVec.ofNat 32 (polls.length + 1) :=
      saturated_from_zero (by omega)
    simp only [afterSectors, concat_ne_nil, if_false, List.length_append, List.length_singleton, hprogress,
      eraseStart_addr] at hrun
    exact ⟨w, hrun⟩
  · intro polls data more hm hn hmore hlen hb hp hd
    obtain ⟨w, hrun⟩ := program_timeout hr hcfg hout hm hn hmore hlen hb hp hd
    have haddr : (Work.programStart s).addr = s.offset.setWidth 33 := Work.enterChunk_addr _
    simp only [afterChunks, concat_ne_nil, if_false, saturated_from_zero (show data.length < 2 ^ 32 by omega),
      haddr] at hrun
    exact ⟨w, hrun⟩

end Sys2Proof.Machine

/-! # Reset and the idle block (R47, R250 to R252) -/

namespace Sys2Proof.Machine

/-- Settles O17: the due move is the reset, which leaves the working registers as they are and draws the four open bytes. -/
theorem resetPutsEveryRegisterAtItsResetValue : Obligations.ResetPutsEveryRegisterAtItsResetValue := by
  refine ⟨fun s q hq => ?_, ⟨_, _, _, _, rfl⟩⟩
  have hstep : step s = .next (resetBlock { s with host := q }) := step_hostDue hq
  exact ⟨_, _, _, _, s.work, hstep⟩

/-- Settles O18: every step is the engine's, and an idle engine's step does nothing. -/
theorem idleBlockWaits : Obligations.IdleBlockWaits := by
  intro s hidle hs
  have hstep : step s = .next s := (step_no_host hs).trans (engineTurn_idle hidle)
  refine Forever.of_step ?_ rfl
  rintro t rfl
  exact ⟨t, hstep, rfl⟩

end Sys2Proof.Machine

/-! # The delay lower bounds (R237, R267)

The earlier statements on the commands and frames give one run to the end of each, with its trace. Runs without a move of the
outside have one end, so the delays of that trace are the delays of every run; what is left is to add them up. -/

namespace Sys2Proof.Machine

/-! ### A run has one end -/

theorem Reaches.comparable {s t u : State} (a : Reaches s t) (b : Reaches s u) : Reaches t u ∨ Reaches u t := by
  obtain ⟨n, hn⟩ := a
  obtain ⟨m, hm⟩ := b
  rcases Nat.le_total n m with h | h
  · obtain ⟨k, rfl⟩ := Nat.exists_eq_add_of_le h
    exact .inl ⟨k, (runFor_add hn).symm.trans hm⟩
  · obtain ⟨k, rfl⟩ := Nat.exists_eq_add_of_le h
    exact .inr ⟨k, (runFor_add hm).symm.trans hn⟩

theorem Reaches.host_nil {s t : State} (r : Reaches s t) (hs : s.host = []) : t.host = [] :=
  r.preserves (P := fun v => v.host = []) (fun _ _ hv h => (engineTurn_host (step_no_host hv ▸ h)).trans hv) hs

/-- With no move of the outside to come, at most one idle state can be reached. -/
theorem Reaches.idle_unique {s t u : State} (hs : s.host = []) (a : Reaches s t) (b : Reaches s u) (ht : t.seq = .idle)
    (hu : u.seq = .idle) : u = t := by
  rcases a.comparable b with r | r
  · exact r.eq_of_idle (a.host_nil hs) ht
  · exact (r.eq_of_idle (b.host_nil hs) hu).symm

theorem startLines_host {w : Word} {ls : List Line} {s t : State} (h : startLines w ls s = .next t) : t.host = s.host := by
  rw [startLines_next h, started_host]

theorem sendFrame_host {f : Frame} {s t : State} (h : sendFrame f s = .next t) : t.host = s.host := by
  unfold sendFrame at h
  split at h <;> exact Host.Outcome.next.inj h ▸ rfl

/-- No instruction's meaning changes what the outside will do. -/
theorem exec_host {i : Instr} {s t : State} (h : exec i s = .next t) : t.host = s.host := by
  cases i with
  | rd a =>
    obtain ⟨rs, rfl⟩ := execRd_next h
    rfl
  | wr a v => rcases execWr_next_cases h with ⟨w, ls, rfl⟩ | rfl | rfl | rfl | rfl <;> rfl
  | rdid | readData | wren | pp | se | be | ce | rdsr => exact sendFrame_host h
  | _ => exact startLines_host h

/-! ### `Delays` from one run -/

theorem Delays.of_runsTo {i : Instr} {s t : State} {us : Nat} (hs : s.host = []) (r : RunsTo i s t) (ht : t.seq = .idle)
    (hd : delaySum t.trace = delaySum s.trace + us) : Delays i s us := by
  obtain ⟨u, hx, ru⟩ := r
  refine ⟨⟨t, ⟨u, hx, ru⟩, ht⟩, ?_⟩
  rintro v ⟨u', hx', rv⟩ hv
  cases hx.symm.trans hx'
  rw [ru.idle_unique ((exec_host hx).trans hs) rv ht hv, hd]

/-- A frame that is the last thing its command does: the command ends in the step after it. -/
theorem Delays.of_frame {i : Instr} {s u t : State} {us : Nat} {cmd : Word} (hs : s.host = []) (hx : exec i s = .next u)
    (r : Reaches u t) (hseq : t.seq = .running cmd []) (hd : delaySum t.trace = delaySum s.trace + us) :
    Delays i s us := by
  have ht : t.host = [] := r.host_nil ((exec_host hx).trans hs)
  have hend : Reaches t (complete .ok t) := .one ((step_no_host ht).trans (engineTurn_finish hseq))
  exact .of_runsTo hs ⟨u, hx, r.trans hend⟩ rfl hd

/-- A command of an idle block that leaves SEQ as it was has run to its end. -/
theorem Delays.of_command {i : Instr} {s t : State} {us : Nat} (hr : Ready s) (r : RunsTo i s t) (ht : t.seq = s.seq)
    (hd : delaySum t.trace = delaySum s.trace + us) : Delays i s us := by
  obtain ⟨-, hseq, hs⟩ := hr
  exact .of_runsTo hs r (ht.trans hseq) hd

/-! ### The sum of the delays -/

@[simp] theorem delaySum_append (a b : List Event) : delaySum (a ++ b) = delaySum a + delaySum b := by
  induction a with
  | nil => exact (Nat.zero_add _).symm
  | cons e a ih =>
    cases e with
    | delay n => simp only [List.cons_append, delaySum, ih, Nat.add_assoc]
    | _ => exact ih

theorem delaySum_flatMap {α : Type} {f : α → List Event} {c : Nat} {l : List α} (h : ∀ x ∈ l, delaySum (f x) = c) :
    delaySum (l.flatMap f) = l.length * c := by
  induction l with
  | nil => exact (Nat.zero_mul c).symm
  | cons x l ih =>
    rw [List.flatMap_cons, delaySum_append, h x List.mem_cons_self, ih fun y hy => h y (List.mem_cons_of_mem x hy),
      List.length_cons, Nat.succ_mul, Nat.add_comm]

@[simp] theorem delaySum_delayEvents (n : BitVec 10) : delaySum (delayEvents n) = n.toNat := by
  unfold delayEvents
  split
  · rename_i h
    rw [h]
    rfl
  · rfl

/-! ### The bits the Device answers -/

theorem Device.nextBits_length (n : Nat) (d : Device) : (d.nextBits n).1.length = n := by
  induction n generalizing d with
  | zero => rfl
  | succ n ih => exact congrArg (· + 1) (ih _)

theorem Device.nextBytes_length (n : Nat) (d : Device) : (d.nextBytes n).1.length = n := by
  induction n generalizing d with
  | zero => rfl
  | succ n ih => exact congrArg (· + 1) (ih _)

theorem Device.length_of_mem_nextBytes {n : Nat} {d : Device} {bits : List Level} (h : bits ∈ (d.nextBytes n).1) :
    bits.length = 8 := by
  induction n generalizing d with
  | zero => cases h
  | succ n ih =>
    rcases List.mem_cons.mp h with rfl | h
    · exact d.nextBits_length 8
    · exact ih h

/-! ### The primitives and frames at one delay -/

/-- The three delays are one, as configureTiming makes them (R130). -/
structure Timing.Uniform (t : Timing) : Prop where
  bit : t.bit = t.half
  byte : t.byte = t.half

theorem configureTiming_uniform (k : BitVec 16) : (configureTiming k).Uniform := by
  unfold configureTiming
  split <;> exact ⟨rfl, rfl⟩

theorem Inv.timing_uniform {s : State} (hi : Inv s) : s.timing.Uniform := hi.timing ▸ configureTiming_uniform _

theorem header_length_opcode {f : Frame} (hf : f.address = none) (o : Config.Opcodes) : (f.header o).length = 1 := by
  simp only [Frame.header, Frame.addressBytes, hf, List.length_cons, List.length_nil]

theorem header_length_address {f : Frame} {a : WireAddr} (hf : f.address = some a) (o : Config.Opcodes) :
    (f.header o).length = 4 := by
  simp only [Frame.header, Frame.addressBytes, hf, addrBytes, List.length_cons, List.length_nil]

section
variable {t : Timing} (ht : t.Uniform)
include ht

theorem delaySum_pulseEvents : delaySum (pulseEvents t) = 3 * t.half.toNat := by
  simp only [pulseEvents, delaySum_append, delaySum_delayEvents, delaySum, ht.bit]
  omega

theorem delaySum_txEvents (v : Byte) : delaySum (txEvents t v) = 25 * t.half.toNat := by
  have hbits := delaySum_flatMap (f := fun b => .write .mosi b :: pulseEvents t) (l := bitsOf v)
    fun _ _ => delaySum_pulseEvents ht
  have hlen : (bitsOf v).length = 8 := rfl
  rw [txEvents, delaySum_append, delaySum_delayEvents, hbits, hlen, ht.byte]
  omega

theorem delaySum_rxEvents {bits : List Level} (hb : bits.length = 8) : delaySum (rxEvents t bits) = 25 * t.half.toNat := by
  have hbits := delaySum_flatMap (f := fun b => .sample b :: pulseEvents t) (l := bits) fun _ _ => delaySum_pulseEvents ht
  rw [rxEvents, delaySum_append, delaySum_delayEvents, hbits, hb, ht.byte]
  omega

theorem delaySum_assertEvents : delaySum (assertEvents t) = t.half.toNat := by
  simp only [assertEvents, delaySum, delaySum_delayEvents, ht.byte]

theorem delaySum_deassertEvents : delaySum (deassertEvents t) = t.half.toNat := by
  simp only [deassertEvents, delaySum, delaySum_delayEvents, ht.byte]

theorem delaySum_headerEvents (o : Config.Opcodes) (f : Frame) :
    delaySum (headerEvents o t f) = t.half.toNat + (f.header o).length * (25 * t.half.toNat) := by
  rw [headerEvents, delaySum_append, delaySum_assertEvents ht, delaySum_flatMap fun v _ => delaySum_txEvents ht v]

theorem delaySum_headerEvents_opcode {f : Frame} (hf : f.address = none) (o : Config.Opcodes) :
    delaySum (headerEvents o t f) = 26 * t.half.toNat := by
  rw [delaySum_headerEvents ht, header_length_opcode hf]
  omega

theorem delaySum_headerEvents_address {f : Frame} {a : WireAddr} (hf : f.address = some a) (o : Config.Opcodes) :
    delaySum (headerEvents o t f) = 101 * t.half.toNat := by
  rw [delaySum_headerEvents ht, header_length_address hf]
  omega

theorem delaySum_plainFrameEvents_opcode {f : Frame} (hf : f.address = none) (o : Config.Opcodes) :
    delaySum (plainFrameEvents o t f) = 27 * t.half.toNat := by
  rw [plainFrameEvents, delaySum_append, delaySum_headerEvents_opcode ht hf, delaySum_deassertEvents ht]
  omega

theorem delaySum_plainFrameEvents_address {f : Frame} {a : WireAddr} (hf : f.address = some a) (o : Config.Opcodes) :
    delaySum (plainFrameEvents o t f) = 102 * t.half.toNat := by
  rw [plainFrameEvents, delaySum_append, delaySum_headerEvents_address ht hf, delaySum_deassertEvents ht]
  omega

theorem delaySum_statusReadEvents {bits : List Level} (hb : bits.length = 8) (o : Config.Opcodes) :
    delaySum (statusReadEvents o t bits) = 52 * t.half.toNat := by
  rw [statusReadEvents, delaySum_append, delaySum_append, delaySum_headerEvents_opcode ht rfl, delaySum_rxEvents ht hb,
    delaySum_deassertEvents ht]
  omega

theorem delaySum_pollEvents (o : Config.Opcodes) (statuses : List Byte) :
    delaySum (pollEvents o t statuses) = statuses.length * (52 * t.half.toNat) :=
  delaySum_flatMap fun b _ => delaySum_statusReadEvents ht (bits := bitsOf b) rfl o

theorem delaySum_readByteEvents {bits : List Level} (hb : bits.length = 8) :
    delaySum (readByteEvents t bits) = 25 * t.half.toNat := by
  rw [readByteEvents, delaySum_append, delaySum_rxEvents ht hb]
  rfl

theorem delaySum_chunkEvents (o : Config.Opcodes) (a : BitVec 33) (data : List Byte) (p : List Byte) :
    delaySum (chunkEvents o t a data [] p) = (129 + 25 * data.length + 52 * p.length) * t.half.toNat := by
  have hdata : delaySum (data.flatMap (sendByteEvents t)) = data.length * (25 * t.half.toNat) :=
    delaySum_flatMap fun b _ => delaySum_txEvents ht b
  simp only [chunkEvents, delaySum_append, delaySum_plainFrameEvents_opcode ht (f := .wren) rfl,
    delaySum_headerEvents_address ht (f := .pp (wireAddr a)) rfl, hdata, delaySum_deassertEvents ht,
    delaySum_pollEvents ht, delaySum]
  ring

/-- The chunks together: PROGRAM's row summed, the data bytes counted over all chunks. -/
theorem delaySum_programEvents (o : Config.Opcodes) (a : BitVec 33) (data : List Byte) (polls : List (List Byte))
    (hlen : data.length ≤ 256 * polls.length) :
    delaySum (programEvents o t a data polls) =
      (129 * polls.length + 25 * data.length + 52 * polls.flatten.length) * t.half.toNat := by
  induction polls generalizing a data with
  | nil =>
    cases List.length_eq_zero_iff.mp (Nat.le_zero.mp hlen)
    simp only [programEvents, delaySum, List.length_nil, List.flatten_nil, Nat.mul_zero, Nat.add_zero, Nat.zero_mul]
  | cons p ps ih =>
    rw [List.length_cons] at hlen
    have hrest : (data.drop Config.pageSize).length ≤ 256 * ps.length := by
      rw [List.length_drop, Config.pageSize]
      omega
    have hsplit : data.length = (data.take Config.pageSize).length + (data.drop Config.pageSize).length := by
      rw [← List.length_append, List.take_append_drop]
    rw [programEvents, delaySum_append, delaySum_chunkEvents ht, ih _ _ hrest, hsplit, List.length_cons,
      List.flatten_cons, List.length_append]
    ring

theorem delaySum_sectorEvents (o : Config.Opcodes) (a : BitVec 33) (p : List Byte) :
    delaySum (sectorEvents o t a p) = (129 + 52 * p.length) * t.half.toNat := by
  simp only [sectorEvents, delaySum_append, delaySum_plainFrameEvents_opcode ht (f := .wren) rfl,
    delaySum_plainFrameEvents_address ht (f := .se (wireAddr a)) rfl, delaySum_pollEvents ht]
  ring

/-- The sectors together: ranged ERASE's row summed. -/
theorem delaySum_eraseEvents (o : Config.Opcodes) (a : BitVec 33) (polls : List (List Byte)) :
    delaySum (eraseEvents o t a polls) = (129 * polls.length + 52 * polls.flatten.length) * t.half.toNat := by
  induction polls generalizing a with
  | nil => simp only [eraseEvents, delaySum, List.length_nil, List.flatten_nil, Nat.mul_zero, Nat.add_zero, Nat.zero_mul]
  | cons p ps ih =>
    rw [eraseEvents, delaySum_append, delaySum_sectorEvents ht, ih, List.length_cons, List.flatten_cons,
      List.length_append]
    ring

end

/-! ### The rows of the table -/

theorem delays_plainFrame {f : Frame} (hf : f = .wren ∨ f = .ce) {s : State} (ht : s.timing.Uniform) (hs : s.host = [])
    {cmd : Word} (hseq : s.seq = .running cmd []) : Delays f.instr s (27 * s.timing.half.toNat) := by
  have hplain : f = .wren ∨ f = .ce ∨ ∃ a, f = .se a := hf.imp_right .inl
  have haddr : f.address = none := by rcases hf with rfl | rfl <;> rfl
  obtain ⟨u, last, hx, -, r⟩ := plainFramesSendTheirHeader f s cmd [] hplain hs hseq
  refine .of_frame hs hx r hseq ?_
  rw [delaySum_append, delaySum_plainFrameEvents_opcode ht haddr]

theorem delays_rdsr {s : State} (ht : s.timing.Uniform) (hs : s.host = []) {cmd : Word}
    (hseq : s.seq = .running cmd []) : Delays .rdsr s (52 * s.timing.half.toNat) := by
  obtain ⟨u, hx, r⟩ := statusFrameReceivesOneByte s cmd [] hs hseq
  refine .of_frame hs hx r hseq ?_
  rw [delaySum_append, delaySum_statusReadEvents ht (s.device.nextBits_length 8)]

section
variable {s : State} (ht : s.timing.Uniform) (hr : Ready s)
include ht hr

theorem delays_csAssert (hi : s.iface = .singleLane) : Delays .csAssert s s.timing.half.toNat := by
  obtain ⟨-, -, hselect⟩ := selectCommandsDriveTheSelectLine
  obtain ⟨hrun, -⟩ := (hselect s hr).2 hi
  refine .of_command hr hrun rfl ?_
  rw [List.append_assoc, delaySum_append]
  exact congrArg _ (delaySum_assertEvents ht)

theorem delays_csDeassert (hi : s.iface = .singleLane) : Delays .csDeassert s s.timing.half.toNat := by
  obtain ⟨-, -, hselect⟩ := selectCommandsDriveTheSelectLine
  obtain ⟨-, hrun⟩ := (hselect s hr).2 hi
  refine .of_command hr hrun rfl ?_
  rw [List.append_assoc, delaySum_append]
  exact congrArg _ (delaySum_deassertEvents ht)

theorem delays_txByte (hi : s.iface = .singleLane) (d : Byte) : Delays (.txByte d) s (25 * s.timing.half.toNat) := by
  obtain ⟨w, hrun⟩ := (txByteShiftsOutMsbFirst.2 d s hr).2 hi
  refine .of_command hr hrun rfl ?_
  rw [List.append_assoc, delaySum_append]
  exact congrArg _ (delaySum_txEvents ht d)

theorem delays_rxByte (hi : s.iface = .singleLane) : Delays .rxByte s (25 * s.timing.half.toNat) := by
  obtain ⟨w, hrun⟩ := (rxByteShiftsInMsbFirst.2 s hr).2 hi
  refine .of_command hr hrun rfl ?_
  rw [delaySum_append, delaySum_rxEvents ht (s.device.nextBits_length 8)]

variable (hcfg : configSupported s)
include hcfg

theorem delays_identify : Delays .identify s (102 * s.timing.half.toNat) := by
  obtain ⟨w, b1, b2, b3, d, hbytes, hrun⟩ := (identifyReadsTheTriple.2 s hr).2 hcfg
  have hlen : ∀ b ∈ [b1, b2, b3], b.length = 8 := fun b hb =>
    Device.length_of_mem_nextBytes (n := 3) (d := s.device) (by rwa [hbytes])
  simp only [List.mem_cons, List.not_mem_nil, or_false, forall_eq_or_imp, forall_eq] at hlen
  obtain ⟨h1, h2, h3⟩ := hlen
  refine .of_command hr hrun rfl ?_
  simp only [delaySum_append, delaySum_headerEvents_opcode ht (f := .rdid) rfl, delaySum_rxEvents ht h1,
    delaySum_rxEvents ht h2, delaySum_rxEvents ht h3, delaySum_deassertEvents ht]
  omega

theorem delays_read (hn : s.byteCount.toNat ≤ 2 ^ 28) (hm : s.streamMode = .write) :
    Delays .read s ((102 + 25 * s.byteCount.toNat) * s.timing.half.toNat) := by
  obtain ⟨-, -, -, hread⟩ := readCopiesByteCountBytes.2 s hr
  obtain ⟨w, hrun⟩ := hread hcfg hn hm
  have hbytes := delaySum_flatMap (l := (s.device.nextBytes s.byteCount.toNat).1) fun bits hb =>
    delaySum_readByteEvents ht (Device.length_of_mem_nextBytes hb)
  refine .of_command hr hrun rfl ?_
  simp only [delaySum_append, delaySum_headerEvents_address ht (f := .readData _) rfl, hbytes, Device.nextBytes_length,
    delaySum_deassertEvents ht]
  ring

theorem delays_wholeDeviceErase (h0 : s.byteCount = 0) : Delays .erase s (54 * s.timing.half.toNat) := by
  obtain ⟨w, hrun⟩ := wholeDeviceErase.2 s hr hcfg h0
  refine .of_command hr hrun rfl ?_
  simp only [delaySum_append, delaySum_plainFrameEvents_opcode ht (f := .wren) rfl,
    delaySum_plainFrameEvents_opcode ht (f := .ce) rfl]
  omega

theorem delays_busyWait {p : List Byte} {d : Device} (hp : EndsReady p) (hl : pollsAllowed p.length s)
    (hd : s.device = d.answering p) : Delays .busyWait s (52 * p.length * s.timing.half.toNat) := by
  obtain ⟨busy, ready, rfl, hbusy, hready, hlim⟩ := hp.split hl
  obtain ⟨w, hrun⟩ := busyWaitCountsItsStatusReads.2 s busy ready d hr hcfg hbusy hready hlim hd
  refine .of_command hr hrun rfl ?_
  rw [delaySum_append, delaySum_pollEvents ht]
  ring

theorem delays_program {data more : List Byte} {polls : List (List Byte)} {d : Device} (hm : s.streamMode = .read)
    (hn : s.byteCount.toNat ≤ 2 ^ 28) (hlen : data.length = s.byteCount.toNat) (hb : s.source.bytes = data ++ more)
    (hpolls : polls.length = (s.byteCount.toNat + 255) / 256)
    (hp : ∀ p ∈ polls, EndsReady p ∧ pollsAllowed p.length s) (hd : s.device = d.answering polls.flatten) :
    Delays .program s
      ((129 * polls.length + 25 * s.byteCount.toNat + 52 * polls.flatten.length) * s.timing.half.toNat) := by
  obtain ⟨w, hrun⟩ :=
    programWritesTheSourceByPages.2 s data more polls d hr hcfg hm hn hlen hb hpolls hp hd
  refine .of_command hr hrun rfl ?_
  rw [delaySum_append, delaySum_programEvents ht _ _ _ _ (by omega), hlen]

theorem delays_rangedErase {polls : List (List Byte)} {d : Device} (h1 : 1 ≤ s.byteCount.toNat)
    (hn : s.byteCount.toNat ≤ 2 ^ 28)
    (hpolls : polls.length = (s.offset.toNat % 4096 + s.byteCount.toNat + 4095) / 4096)
    (hp : ∀ p ∈ polls, EndsReady p ∧ pollsAllowed p.length s) (hd : s.device = d.answering polls.flatten) :
    Delays .erase s ((129 * polls.length + 52 * polls.flatten.length) * s.timing.half.toNat) := by
  obtain ⟨w, hrun⟩ := rangedEraseCoversTheRange.2 s polls d hr hcfg h1 hn (by omega) hp hd
  refine .of_command hr hrun rfl ?_
  rw [delaySum_append, delaySum_eraseEvents ht]

end

/-- Settles O28: the invariant makes the three delays one, and each row is a lemma of its own. -/
theorem delayTable : Obligations.DelayTable := by
  intro s hi h n
  have ht := hi.timing_uniform
  refine ⟨fun cmd hs hseq => ⟨?_, ?_, ?_⟩, fun hr hf => ⟨?_, ?_, ?_, ?_⟩, fun hr hcfg => ⟨?_, ?_, ?_, ?_, ?_, ?_⟩⟩
  · exact delays_plainFrame (.inl rfl) ht hs hseq
  · exact delays_plainFrame (.inr rfl) ht hs hseq
  · exact delays_rdsr ht hs hseq
  · exact delays_csAssert ht hr hf
  · exact delays_csDeassert ht hr hf
  · exact delays_txByte ht hr hf
  · exact delays_rxByte ht hr hf
  · exact delays_identify ht hr hcfg
  · exact delays_read ht hr hcfg
  · exact delays_wholeDeviceErase ht hr hcfg
  · exact fun p d => delays_busyWait ht hr hcfg
  · exact fun data more polls d => delays_program ht hr hcfg
  · exact fun polls d => delays_rangedErase ht hr hcfg

end Sys2Proof.Machine
